-- ==== Sys2Proof/Word.lean ====
section
/-! DEFINITION. The word types of the block (rules R10, R11, R75, R78): bytes, 16-bit lengths and checksums, 32-bit
registers. Every value is unsigned (rule R10). -/

namespace Sys2Proof

/-- One byte: the unit of the buffers and of the link (rules R10, R78). -/
abbrev Byte := BitVec 8

/-- A u16: lengths, indices and the CRC (rules R9, R10). -/
abbrev Half := BitVec 16

/-- A host-visible register (rule R21). -/
abbrev Word := BitVec 32

/-- `zext_16` of a byte (rule R10). -/
def Byte.toHalf (b : Byte) : Half := b.setWidth 16

/-- `zext_32` of a byte (rule R10). -/
def Byte.toWord (b : Byte) : Word := b.setWidth 32

/-- `zext_32` of a u16 (rule R10). -/
def Half.toWord (h : Half) : Word := h.setWidth 32

end Sys2Proof
end

