-- ==== Sys2Proof/Syntax.lean ====
section
/-! DEFINITION. The instructions: one constructor per row of spec/opcode_table.json, the ten commands of format `CMD8`
(rule R120) and the three function codes of format `FC8` (rule R110). A command has no operand in its word: every
operand is in registers and buffers (rules R118, R48). -/

namespace Sys2Proof

/-- The two formats of the opcode table: the command word written to `CMD` (rule R118) and the function-code byte of a
frame (rule R110). -/
inductive Format where
  | cmd8
  | fc8
  deriving DecidableEq, Repr

/-- The rows of spec/opcode_table.json. -/
inductive Instr where
  /-- `LRC`, rule R142. -/
  | lrc
  /-- `CRC16`, rule R148. -/
  | crc16
  /-- `ENC_ASCII`, rule R164. -/
  | encAscii
  /-- `ENC_RTU`, rule R168. -/
  | encRtu
  /-- `DEC_ASCII`, rule R188. -/
  | decAscii
  /-- `DEC_RTU`, rule R192. -/
  | decRtu
  /-- `EXECUTE`, rule R212. -/
  | execute
  /-- `WRITE_TEXT`, rule R232. -/
  | writeText
  /-- `READ_TEXT`, rule R234. -/
  | readText
  /-- `HANDLE`, rule R260. -/
  | handle
  /-- `FC_WRITE_TEXT`, rule R264: a write-text request at the dispatcher. -/
  | fcWriteText
  /-- `FC_READ_TEXT`, rule R266: a read-text request at the dispatcher. -/
  | fcReadText
  /-- `FC_EXCEPTION`, rules R111 and R270: the exception response whose function code has bit 7 set and `low` in bits
  6 to 0 (the bits the row's mask 0x80 leaves open). -/
  | fcException (low : BitVec 7)
  deriving DecidableEq, Repr

/-- The format of an instruction's row in the opcode table. -/
def Instr.format : Instr → Format
  | .lrc | .crc16 | .encAscii | .encRtu | .decAscii | .decRtu => .cmd8
  | .execute | .writeText | .readText | .handle => .cmd8
  | .fcWriteText | .fcReadText | .fcException _ => .fc8

end Sys2Proof
end

