-- ==== Sys2Proof/WellFormed.lean ====
section
/-! DEFINITION. Which instructions a block has: `HANDLE`, and the function codes only the dispatcher gives a meaning,
need the optional unit RD (rules R4, R8, R110, R121). -/

namespace Sys2Proof

/-- The instruction belongs to a unit the block has (`hasRd` is the parameter `HAS_RD` of rule R8). -/
def Instr.wellFormed (hasRd : Bool) : Instr → Bool
  | .lrc | .crc16 | .encAscii | .encRtu | .decAscii | .decRtu => true
  | .execute | .writeText | .readText => true
  | .handle => hasRd
  | .fcWriteText | .fcReadText | .fcException _ => hasRd

end Sys2Proof
end

