-- ==== Sys2Proof/Decode.lean ====
section
/-! DEFINITION. The decoder of the command word and of the function-code byte (rules R110, R118 to R122), written from
the fields of the formats, and after it the encoder, written from the match values of the opcode table. -/

namespace Sys2Proof

/-- Why a word is no instruction (rules R122, R110). -/
inductive DecodeReject where
  /-- A bit of `w[31:8]` is set (rule R118). -/
  | highBitsSet
  /-- A bit of `w[7:5]` is set (rule R118). -/
  | zeroBitsSet
  /-- `OP` is 0 or 9 to 15 (rule R122). -/
  | reservedOperation
  /-- `ENC` is 1 with an `OP` other than 3 or 4 (rule R122). -/
  | encodingNotTaken
  /-- `HANDLE`, or a function code, in a block without the dispatcher (rules R121, R122, R110). -/
  | unitAbsent
  /-- A function code of the row "not defined" of rule R110: 0x00 or 0x03 to 0x7F. -/
  | functionCodeUndefined
  deriving DecidableEq, Repr

/-- The operation of a command word by its fields `OP` and `ENC` (rules R118, R120). -/
def decodeOp (hasRd : Bool) (op : Nat) (enc : Bool) : Except DecodeReject Instr :=
  match op, enc with
  | 1, false => .ok .lrc
  | 2, false => .ok .crc16
  | 3, false => .ok .encAscii
  | 3, true => .ok .encRtu
  | 4, false => .ok .decAscii
  | 4, true => .ok .decRtu
  | 5, false => .ok .execute
  | 6, false => .ok .writeText
  | 7, false => .ok .readText
  | 8, false => if hasRd then .ok .handle else .error .unitAbsent
  | op, _ => if op = 0 ∨ 9 ≤ op then .error .reservedOperation else .error .encodingNotTaken

/-- The command that a value written to `CMD` issues (rules R118, R121, R122). -/
def decodeCmd (hasRd : Bool) (w : Word) : Except DecodeReject Instr :=
  if w.extractLsb' 8 24 ≠ 0 then .error .highBitsSet
  else if w.extractLsb' 5 3 ≠ 0 then .error .zeroBitsSet
  else decodeOp hasRd (w.extractLsb' 0 4).toNat (w.getLsbD 4)

/-- The row of the function-code map that a function-code byte belongs to (rule R110). -/
def decodeFc (hasRd : Bool) (f : Byte) : Except DecodeReject Instr :=
  if hasRd = false then .error .unitAbsent
  else if f = 0x01 then .ok .fcWriteText
  else if f = 0x02 then .ok .fcReadText
  else if f.getLsbD 7 then .ok (.fcException (f.extractLsb' 0 7))
  else .error .functionCodeUndefined

/-- The decoder of a word of either format: total, and it rejects by name. A function code is one byte, so a word with
a bit above bit 7 set is none. -/
def decode (fmt : Format) (hasRd : Bool) (w : Word) : Except DecodeReject Instr :=
  match fmt with
  | .cmd8 => decodeCmd hasRd w
  | .fc8 => if w.extractLsb' 8 24 ≠ 0 then .error .highBitsSet else decodeFc hasRd (w.setWidth 8)

/-- The match value of an instruction's row in the opcode table (rules R110, R120); for `FC_EXCEPTION` with the seven
bits its mask leaves open. -/
def encodeByte : Instr → Byte
  | .lrc => 0x01
  | .crc16 => 0x02
  | .encAscii => 0x03
  | .encRtu => 0x13
  | .decAscii => 0x04
  | .decRtu => 0x14
  | .execute => 0x05
  | .writeText => 0x06
  | .readText => 0x07
  | .handle => 0x08
  | .fcWriteText => 0x01
  | .fcReadText => 0x02
  | .fcException low => 0x80 ||| low.setWidth 8

/-- The encoder: the word of an instruction, all of its other bits zero (rule R118). -/
def encode (i : Instr) : Word := (encodeByte i).toWord

/-- A decoded instruction, or none. -/
def accepted : Except DecodeReject Instr → Option Instr
  | .ok i => some i
  | .error _ => none

/-- The instruction the decoder reads from a word of the opcode table, in a block that has every unit. A word is read
as a command word first; only a word that is no command is read as a function code. The words 0x01 and 0x02 are
both (`LRC` and `FC_WRITE_TEXT`, `CRC16` and `FC_READ_TEXT`): they come out as the commands (DESIGN CHOICE, log entry
10). -/
def decodeTableWord (nbits w : Nat) : Option Instr :=
  if nbits = 0 ∨ 2 ^ 32 ≤ w then none
  else
    match accepted (decode .cmd8 true (BitVec.ofNat 32 w)) with
    | some i => some i
    | none => accepted (decode .fc8 true (BitVec.ofNat 32 w))

end Sys2Proof
end

