-- ==== Sys2Proof/Config.lean ====
section
/-! DEFINITION. The parameters an implementation fixes (rules R6 to R9, 92_eei_decisions.md section 1) and the free
values the spec leaves unspecified (93_implementation_defined.md U2). The parameters are arguments of a run, held in
`State.params`, which no step changes. -/

namespace Sys2Proof

/-- Which predicate `utf8_ok` is (rules R9, R268, D30): the table of rule R268, or another one, left uninterpreted. -/
inductive Utf8Rule where
  | table
  | other
  deriving DecidableEq, Repr

/-- The OPEN parameters that rules depend on (rules R6, R7, R8, R9). `TICK_PERIOD` and `HOST_BUS` are OPEN too and no
rule depends on them, so they have no field. -/
structure Params where
  /-- `PAYLOAD_MAX`, rule R6. -/
  payloadMax : Nat
  /-- `RX_MAX`, rule R7. -/
  rxMax : Nat
  /-- `HAS_RD`, rule R8. -/
  hasRd : Bool
  /-- `HEX_UPPER`, rule R8. -/
  hexUpper : Bool
  /-- `utf8_ok`, rules R9 and R268. -/
  utf8 : Utf8Rule
  deriving DecidableEq, Repr

/-- The ranges of rules R6 and R7. -/
abbrev Params.wf (p : Params) : Prop :=
  1 ≤ p.payloadMax ∧ p.payloadMax ≤ 32759 ∧ 1 ≤ p.rxMax ∧ p.rxMax ≤ 65535

/-- `TX_MAX = 9 + 2 * PAYLOAD_MAX` (rule R7). -/
def Params.txMax (p : Params) : Nat := 9 + 2 * p.payloadMax

/-- `DF_MAX = max(RX_MAX - 4, 0)` (rule R7). -/
def Params.dfMax (p : Params) : Nat := p.rxMax - 4

/-- The parameters of the machine that `State.reset` is (DESIGN CHOICE, unsafe, log entry 2): the largest sizes the
spec allows, the dispatcher present, and the spec's own defaults for the hex case and `utf8_ok`. -/
def Params.default : Params where
  payloadMax := 32759
  rxMax := 65535
  hasRd := true
  hexUpper := true
  utf8 := .table

/-- The byte that the n-th draw of an unspecified byte gives (U2: a fresh draw at each read; log entry 4). -/
opaque Config.freeByte : Nat → Byte

/-- The value that the n-th draw of an unspecified u16 gives (U2; log entry 4). -/
opaque Config.freeHalf : Nat → Half

/-- The value that the n-th draw of an unspecified register read gives (U2; log entry 4). -/
opaque Config.freeWord : Nat → Word

/-- `utf8_ok` where the implementation does not take the table of rule R268 (D30: an uninterpreted predicate). -/
opaque Config.otherUtf8 : List Byte → Bool

end Sys2Proof
end

