-- ==== Sys2Proof/Machine/State.lean ====
section
/-! DEFINITION. The state of the block (rules R20, R23, R25, R38, R40 to R45), its input ports (rule R51), the two link
streams (rule R70), the events of the outside world still to come (log entry 6), and the state after reset (rule R50). -/

namespace Sys2Proof.Machine

/-- The error kinds of `STATUS.RESULT` (rule R310). -/
inductive Kind where
  | ok
  | framingError
  | checksumError
  | timeoutError
  | addressMismatch
  | unsupportedFunction
  | processingError
  | illegalCommand
  deriving DecidableEq, Repr

/-- Why the last failed attempt of a link command failed: `STATUS.CAUSE` (rules R25, R226). -/
inductive Cause where
  | none
  | noData
  | framing
  | checksum
  deriving DecidableEq, Repr

/-- `TE_STATE`, the sequencer of the Transaction Engine (rule R40); the codes 5 to 7 never occur. -/
inductive TeState where
  | idle
  | build
  | send
  | wait
  | check
  deriving DecidableEq, Repr

/-- The wire encodings (rules R18, R28). -/
inductive Encoding where
  | ascii
  | rtu
  deriving DecidableEq, Repr

/-- One host access (rules R21, R126): `W(n, v)`, `R(n)`, `B(id, i, b)`, `RB(id, i)`. -/
inductive HostAccess where
  | writeReg (n : Nat) (v : Word)
  | readReg (n : Nat)
  | writeBuf (id i : Nat) (b : Byte)
  | readBuf (id i : Nat)
  deriving DecidableEq, Repr

/-- What the outside world does next (rules R17, R51, R83; log entry 6). -/
inductive Event where
  /-- The host makes one access. -/
  | host (a : HostAccess)
  /-- One `clk` cycle of the core with the input ports `tick`, `tx_ready` and the transport's readiness to offer a byte. -/
  | cycle (tick txReady rxValid : Bool)
  /-- A byte of the receive stream reaches the transport (rules R47, R84). -/
  | arrive (b : Byte)
  /-- One `clk` cycle with `rst = 1` (rule R350). -/
  | reset
  deriving DecidableEq, Repr

/-- The contents of a buffer (rules R38, R39): the bytes at the listed indices, indices strictly rising. An unlisted
index holds an unspecified value (log entry 5). -/
abbrev Memory := List Host.Cell

/-- The whole machine. -/
@[ext]
structure State where
  /-- The OPEN parameters (rules R6 to R9); no step changes them. -/
  params : Params
  /-- `STATUS.BUSY`, bit 0 (rule R25). -/
  busy : Bool
  /-- `STATUS.DONE`, bit 1 (rule R25). -/
  done : Bool
  /-- `STATUS.RESULT`, bits 4:2 (rule R25). -/
  result : Kind
  /-- `STATUS.CAUSE`, bits 6:5 (rule R25). -/
  cause : Cause
  /-- `STATUS.EXC`, bit 7 (rule R25). -/
  exc : Bool
  /-- `STATUS.DF_VALID`, bit 8 (rule R25). -/
  dfValid : Bool
  /-- `STATUS.TEXT_VALID`, bit 9 (rule R25). -/
  textValid : Bool
  /-- `STATUS.UTF8_ERR`, bit 10 (rule R25). -/
  utf8Err : Bool
  /-- `STATUS.OVR`, bit 11 (rule R25). -/
  ovr : Bool
  /-- `STATUS.ATTEMPTS`, bits 24:16 (rule R25). -/
  attempts : BitVec 9
  /-- `CFG.MODE` (rule R28). -/
  mode : Encoding
  /-- `TIMEOUT` (rule R29). -/
  timeout : Word
  /-- `RETRIES` (rule R30). -/
  retries : Byte
  /-- `OWN_ADDR` (rule R31). -/
  ownAddr : Byte
  /-- `EF_HDR.ADDR` (rule R32). -/
  efAddr : Byte
  /-- `EF_HDR.FC` (rule R32). -/
  efFc : Byte
  /-- `EF_HDR.LEN` (rule R32). -/
  efLen : Half
  /-- `DF_HDR.ADDR` (rule R33). -/
  dfAddr : Byte
  /-- `DF_HDR.FC` (rule R33). -/
  dfFc : Byte
  /-- `DF_HDR.LEN` (rule R33). -/
  dfLen : Half
  /-- `CHK` (rule R34). -/
  chk : Half
  /-- `TX_LEN` (rule R35). -/
  txLen : Half
  /-- `RX_LEN` (rule R36). -/
  rxLen : Half
  /-- `TEXT_LEN` (rule R37). -/
  textLen : Half
  /-- Buffer 0, `EF_PAYLOAD` (rule R38). -/
  efPayload : Memory
  /-- Buffer 1, `TXBUF` (rule R38). -/
  txBuf : Memory
  /-- Buffer 2, `RXBUF` (rule R38). -/
  rxBuf : Memory
  /-- Buffer 3, `DF_PAYLOAD` (rule R38). -/
  dfPayload : Memory
  /-- Buffer 4, `TEXT`, the TextStore (rules R38, R274). -/
  text : Memory
  /-- `TE_STATE` (rule R40). -/
  teState : TeState
  /-- `RETRY_CNT` (rule R41). -/
  retryCnt : Byte
  /-- `TIMER` (rule R42). -/
  timer : Word
  /-- `TX_PTR` (rule R43). -/
  txPtr : Half
  /-- `CUR_OP` (rule R44). -/
  curOp : Byte
  /-- `LRC_ACC` (rule R45). -/
  lrcAcc : Byte
  /-- `CRC_REG` (rule R45). -/
  crcReg : Half
  /-- The input port `tick` in the last cycle (rule R51). -/
  tick : Bool
  /-- The input port `tx_ready` in the last cycle (rule R51). -/
  txReady : Bool
  /-- The transport was ready to offer a byte in the last cycle (rule R51, `rx_valid`; log entry 9). -/
  rxValid : Bool
  /-- The transmit stream: every byte the transport has taken, oldest first (rules R70, R71). -/
  txStream : List Byte
  /-- The receive stream: the bytes the transport holds for the core, next one first (rules R47, R70). -/
  rxStream : List Byte
  /-- The model's own: what the outside world does next, in order (log entry 6). -/
  inputs : List Event
  /-- The model's own: the value the last host read returned (log entry 19). -/
  hostData : Word
  /-- The model's own: how many unspecified values have been drawn (log entry 4). -/
  draws : Nat
  deriving DecidableEq, Repr

/-- No fault: the spec gives every step of the block an effect, errors are the `RESULT` of a command (rule R318), and a
transport or tick that never comes leaves the core where it is (rule R244; log entry 21). Nobody raises one; safe. -/
inductive Fault where
  deriving DecidableEq, Repr

/-- Why an instruction has no meaning. -/
inductive Refusal where
  /-- Raised by an arm of `exec` whose instruction is not modelled yet (none is left): safe, the run stops. -/
  | notModelled (mnemonic : String)
  deriving DecidableEq, Repr

/-- The block right after reset, for given parameters (rule R50). `DF_HDR`, `LRC_ACC` and `CRC_REG` are unspecified
there: they hold zero (DESIGN CHOICE, unsafe, log entry 3), and a host read of `DF_HDR` is a draw all the same. -/
def State.ofReset (p : Params) : State where
  params := p
  busy := false
  done := false
  result := .ok
  cause := .none
  exc := false
  dfValid := false
  textValid := false
  utf8Err := false
  ovr := false
  attempts := 0
  mode := .ascii
  timeout := 0
  retries := 0
  ownAddr := 1
  efAddr := 0
  efFc := 0
  efLen := 0
  dfAddr := 0
  dfFc := 0
  dfLen := 0
  chk := 0
  txLen := 0
  rxLen := 0
  textLen := 0
  efPayload := []
  txBuf := []
  rxBuf := []
  dfPayload := []
  text := []
  teState := .idle
  retryCnt := 0
  timer := 0
  txPtr := 0
  curOp := 0
  lrcAcc := 0
  crcReg := 0
  tick := false
  txReady := false
  rxValid := false
  txStream := []
  rxStream := []
  inputs := []
  hostData := 0
  draws := 0

/-- The machine right after reset (rules R50, R352), with the parameters of log entry 2. -/
def State.reset : State := State.ofReset Params.default

end Sys2Proof.Machine
end

