-- ==== Sys2Proof/Machine/Ops.lean ====
section
/-! DEFINITION. The named operations over the buffers and the registers: reading and writing a buffer, loading a frame
register set, drawing an unspecified value, accepting and completing a command (rules R26, R318: what this block has in
place of taking an exception and returning from one), reset. -/

namespace Sys2Proof.Machine

/-- What a step, a meaning or a host access answers. -/
abbrev Answer := Host.Outcome State Fault Refusal

/-! ### Buffers (rules R13, R38, R39) -/

/-- The canonical form of a buffer: indices strictly rising, so that equal contents are equal data. -/
abbrev Memory.wf (m : Memory) : Prop := m.Pairwise (fun c d => c.1 < d.1)

/-- The byte at an index, or none where the buffer holds an unspecified value there (rule R39). -/
def Memory.byteAt? (m : Memory) (i : Nat) : Option Byte :=
  match m with
  | [] => none
  | c :: rest => if c.1 = i then some c.2 else Memory.byteAt? rest i

/-- `BUF[i] <- b` (rule R13). -/
def Memory.put (m : Memory) (i : Nat) (b : Byte) : Memory :=
  match m with
  | [] => [(i, b)]
  | c :: rest =>
    if i < c.1 then (i, b) :: c :: rest
    else if i = c.1 then (i, b) :: rest
    else c :: Memory.put rest i b

/-- The bytes of `s` at the indices from `k` on. -/
def Memory.ofBytesFrom (k : Nat) (s : List Byte) : Memory :=
  match s with
  | [] => []
  | b :: rest => (k, b) :: Memory.ofBytesFrom (k + 1) rest

/-- `MemWrite(B, 0, |s|, s)` (rule R13) of a buffer whose bytes at and beyond `|s|` become unspecified (rule R39). -/
def Memory.ofBytes (s : List Byte) : Memory := Memory.ofBytesFrom 0 s

/-- The bytes below index `n`; at and beyond it the buffer becomes unspecified (rule R39). -/
def Memory.keepBelow (m : Memory) (n : Nat) : Memory := m.filter (fun c => decide (c.1 < n))

/-- Every unspecified byte below index `n` takes a drawn value and keeps it: the draws from number `d` on (rules R39,
U2; log entry 5). -/
def Memory.fillBelow (m : Memory) (d n : Nat) : Memory :=
  match n with
  | 0 => m
  | k + 1 =>
    match (Memory.fillBelow m d k).byteAt? k with
    | some _ => Memory.fillBelow m d k
    | none => (Memory.fillBelow m d k).put k (Config.freeByte (d + k))

/-- The host sets the length of a buffer to `n`: the bytes below it have a value from here on, those at and beyond it are
unspecified (rule R39; log entries 5 and 16). -/
def Memory.setLength (m : Memory) (d n : Nat) : Memory := (m.keepBelow n).fillBelow d n

/-- `MemRead(B, 0, n)` (rule R13); an unspecified byte reads as a draw (U2). -/
def Memory.read (m : Memory) (d n : Nat) : List Byte :=
  (List.range n).map (fun i => (m.byteAt? i).getD (Config.freeByte (d + i)))

/-! ### Host answers and draws (rules R21, R27, U2) -/

/-- A host read returns a value. -/
def State.answer (w : Word) (s : State) : State := { s with hostData := w }

/-- A host read returns an unspecified register value: a fresh draw (U2). -/
def State.answerFreeWord (s : State) : State :=
  { s with hostData := Config.freeWord s.draws, draws := s.draws + 1 }

/-- A host read returns an unspecified byte: a fresh draw (U2). -/
def State.answerFreeByte (s : State) : State :=
  { s with hostData := (Config.freeByte s.draws).toWord, draws := s.draws + 1 }

/-- A refused host write: it changes nothing but `OVR` (rule R27). -/
def State.refuseWrite (s : State) : State := { s with ovr := true }

/-! ### Frame registers and buffers -/

/-- `TXBUF[0..|tx|) <- tx; TX_LEN <- |tx|` (rules R164, R218, R260). -/
def State.loadTx (tx : List Byte) (s : State) : State :=
  { s with txBuf := Memory.ofBytes tx, txLen := BitVec.ofNat 16 tx.length }

/-- The frame register set EF takes the frame `(a, f, p)` (rule R260 step 5). -/
def State.loadEf (a f : Byte) (p : List Byte) (s : State) : State :=
  { s with efAddr := a, efFc := f, efLen := BitVec.ofNat 16 p.length, efPayload := Memory.ofBytes p }

/-- A decoded frame goes to DF and `CHK`, `DF_VALID <- 1`, `EXC <- f[7]` (rule R196). -/
def State.loadDf (a f : Byte) (p : List Byte) (c : Half) (s : State) : State :=
  { s with
    dfAddr := a, dfFc := f, dfLen := BitVec.ofNat 16 p.length, dfPayload := Memory.ofBytes p,
    chk := c, dfValid := true, exc := f.getLsbD 7 }

/-- After a failed decode DF and `DF_PAYLOAD` hold unspecified values, `DF_VALID` and `EXC` are 0, `CHK` is not written
(rule R196; log entry 15). -/
def State.loseDf (s : State) : State :=
  { s with
    dfAddr := Config.freeByte s.draws, dfFc := Config.freeByte (s.draws + 1),
    dfLen := Config.freeHalf (s.draws + 2), dfPayload := [], dfValid := false, exc := false,
    draws := s.draws + 3 }

/-- `TEXT[0..|q|) <- q; TEXT_LEN <- |q|` (rule R264). -/
def State.loadText (q : List Byte) (s : State) : State :=
  { s with text := Memory.ofBytes q, textLen := BitVec.ofNat 16 q.length }

/-- `HANDLE` begins: `TX_LEN <- 0` (rule R260 step 1). `HANDLE` writes `TXBUF` and `EF_PAYLOAD` (rule R48), so their
bytes at and beyond the current lengths become unspecified (rule R39; log entry 16). -/
def State.beginHandle (s : State) : State :=
  { s with txLen := 0, txBuf := [], efPayload := s.efPayload.keepBelow s.efLen.toNat }

/-! ### Acceptance and completion (rules R26, R318) -/

/-- What the host put at or beyond the length of a buffer that it writes is unspecified (rule R39; log entries 5 and
16). -/
def State.cutBuffers (s : State) : State :=
  { s with efPayload := s.efPayload.keepBelow s.efLen.toNat, rxBuf := s.rxBuf.keepBelow s.rxLen.toNat }

/-- Acceptance of the command word whose low byte is `w`; `decodes` says whether it is a command that decodes (rules
R25, R26). No byte that the host put at or beyond a length outlives it (rule R39). -/
def State.accept (w : Byte) (decodes : Bool) (s : State) : State :=
  { s.cutBuffers with
    busy := true, done := false, result := .ok, cause := .none, textValid := false, utf8Err := false,
    attempts := 0, curOp := w,
    dfValid := s.dfValid && !decodes, exc := s.exc && !decodes }

/-- Completion with an error kind, `OK` included (rules R26, R318): nothing is saved and control goes nowhere. -/
def State.complete (k : Kind) (s : State) : State :=
  { s with busy := false, done := true, result := k, teState := .idle }

/-! ### Reset (rules R50, R350, R354) -/

/-- The block takes its reset values whatever was in progress. The parameters, the streams (rule R354: bytes with the
transport stay there), the events to come and the model's own counters are not state of the block (log entry 18). -/
def State.resetBlock (s : State) : State :=
  { State.ofReset s.params with
    txStream := s.txStream, rxStream := s.rxStream, inputs := s.inputs, hostData := s.hostData,
    draws := s.draws }

end Sys2Proof.Machine
end

