-- ==== Sys2Proof/Machine/Operands.lean ====
section
/-! DEFINITION. The operands of the commands (rule R48): the frame in EF, the received bytes, the TextStore, the payload
in DF, the byte the core sends next. -/

namespace Sys2Proof.Machine

/-- `EF_PAYLOAD[0..EF.LEN)` (rule R32). -/
def State.efBytes (s : State) : List Byte := s.efPayload.read s.draws s.efLen.toNat

/-- `RXBUF[0..RX_LEN)` (rule R36). -/
def State.rxBytes (s : State) : List Byte := s.rxBuf.read s.draws s.rxLen.toNat

/-- `TXBUF[0..TX_LEN)` (rule R35). -/
def State.txBytes (s : State) : List Byte := s.txBuf.read s.draws s.txLen.toNat

/-- `DF_PAYLOAD[0..DF.LEN)` (rule R33). -/
def State.dfBytes (s : State) : List Byte := s.dfPayload.read s.draws s.dfLen.toNat

/-- `TEXT[0..TEXT_LEN)` (rule R37). -/
def State.textBytes (s : State) : List Byte := s.text.read s.draws s.textLen.toNat

/-- `TXBUF[TX_PTR]` (rule R220). -/
def State.txNext (s : State) : Byte :=
  (s.txBuf.byteAt? s.txPtr.toNat).getD (Config.freeByte s.draws)

/-! ### The buffers by identifier (rule R38) -/

/-- The contents of buffer `id`; none for an identifier that does not exist. -/
def State.buffer (s : State) (id : Nat) : Option Memory :=
  match id with
  | 0 => some s.efPayload
  | 1 => some s.txBuf
  | 2 => some s.rxBuf
  | 3 => some s.dfPayload
  | 4 => if s.params.hasRd then some s.text else none
  | _ => none

/-- The capacity of buffer `id` (rule R38). -/
def State.capacity (s : State) (id : Nat) : Nat :=
  match id with
  | 0 => s.params.payloadMax
  | 1 => s.params.txMax
  | 2 => s.params.rxMax
  | 3 => s.params.dfMax
  | 4 => s.params.payloadMax
  | _ => 0

/-- The current length of buffer `id`: the bytes below it are valid (rules R38, R39). DF has none while `DF_VALID = 0`
(rule R33). -/
def State.validLength (s : State) (id : Nat) : Nat :=
  match id with
  | 0 => s.efLen.toNat
  | 1 => s.txLen.toNat
  | 2 => s.rxLen.toNat
  | 3 => if s.dfValid then s.dfLen.toNat else 0
  | 4 => s.textLen.toNat
  | _ => 0

/-- One byte of one buffer as the state holds it: none where it is unspecified or does not exist. -/
def State.byteAt (s : State) (id i : Nat) : Option Byte :=
  match s.buffer id with
  | some m => m.byteAt? i
  | none => none

end Sys2Proof.Machine
end

