-- ==== Sys2Proof/Machine/Utf8.lean ====
section
/-! DEFINITION. `utf8_ok` (rules R76, R268). -/

namespace Sys2Proof.Machine

/-- A closed range of byte values. -/
abbrev ByteRange := Nat × Nat

/-- The byte lies in the range. -/
def inRange (b : Byte) (r : ByteRange) : Bool := decide (r.1 ≤ b.toNat) && decide (b.toNat ≤ r.2)

/-- The table of rule R268, a row each: the range of the first byte, and the ranges of the bytes after it. -/
def utf8Table : List (ByteRange × List ByteRange) :=
  [((0x00, 0x7F), []),
   ((0xC2, 0xDF), [(0x80, 0xBF)]),
   ((0xE0, 0xE0), [(0xA0, 0xBF), (0x80, 0xBF)]),
   ((0xE1, 0xEC), [(0x80, 0xBF), (0x80, 0xBF)]),
   ((0xED, 0xED), [(0x80, 0x9F), (0x80, 0xBF)]),
   ((0xEE, 0xEF), [(0x80, 0xBF), (0x80, 0xBF)]),
   ((0xF0, 0xF0), [(0x90, 0xBF), (0x80, 0xBF), (0x80, 0xBF)]),
   ((0xF1, 0xF3), [(0x80, 0xBF), (0x80, 0xBF), (0x80, 0xBF)]),
   ((0xF4, 0xF4), [(0x80, 0x8F), (0x80, 0xBF), (0x80, 0xBF)])]

/-- The bytes that must follow a first byte, by the first row of the table that it starts; none where it starts none. -/
def utf8Follow (rows : List (ByteRange × List ByteRange)) (b : Byte) : Option (List ByteRange) :=
  match rows with
  | [] => none
  | row :: rest => if inRange b row.1 then some row.2 else utf8Follow rest b

/-- The bytes of `s` fit the ranges still open, and after them `s` is a concatenation of the table's patterns. -/
def utf8Scan (follow : List ByteRange) (s : List Byte) : Bool :=
  match s with
  | [] => follow.isEmpty
  | b :: rest =>
    match follow with
    | r :: more => inRange b r && utf8Scan more rest
    | [] =>
      match utf8Follow utf8Table b with
      | some more => utf8Scan more rest
      | none => false

/-- Well-formed by the table of rule R268. -/
def utf8ByTable (s : List Byte) : Bool := utf8Scan [] s

/-- `utf8_ok(s)` of a block: the table, or the block's own predicate (rule R9, D30; log entry 17). -/
def utf8Ok (p : Params) (s : List Byte) : Bool :=
  match p.utf8 with
  | .table => utf8ByTable s
  | .other => Config.otherUtf8 s

end Sys2Proof.Machine
end

