-- ==== Sys2Proof/Machine/Flags.lean ====
section
/-! DEFINITION. `STATUS` as a register (rule R25), the codes of its fields (rules R25, R40, R310), and the flags that
commands set (rules R26, R49, R236). -/

namespace Sys2Proof.Machine

/-- The code of an error kind in `STATUS.RESULT` (rule R310). -/
def Kind.code : Kind → BitVec 3
  | .ok => 0
  | .framingError => 1
  | .checksumError => 2
  | .timeoutError => 3
  | .addressMismatch => 4
  | .unsupportedFunction => 5
  | .processingError => 6
  | .illegalCommand => 7

/-- The code of a cause in `STATUS.CAUSE` (rule R25). -/
def Cause.code : Cause → BitVec 2
  | .none => 0
  | .noData => 1
  | .framing => 2
  | .checksum => 3

/-- The code of `TE_STATE` in `STATUS.STATE` (rules R25, R40). -/
def TeState.code : TeState → BitVec 3
  | .idle => 0
  | .build => 1
  | .send => 2
  | .wait => 3
  | .check => 4

/-- The code of a wire encoding in `CFG.MODE` and `CMD.ENC` (rules R28, R118). -/
def Encoding.code : Encoding → BitVec 1
  | .ascii => 0
  | .rtu => 1

/-- The wire encoding that a bit of `CFG` selects (rule R28). -/
def Encoding.ofBit (b : Bool) : Encoding := if b then .rtu else .ascii

/-- `STATUS` as the host reads it, from bit 31 down (rule R25): zero `[31:28]`, `STATE`, `ATTEMPTS`, zero `[15:12]`,
`OVR`, `UTF8_ERR`, `TEXT_VALID`, `DF_VALID`, `EXC`, `CAUSE`, `RESULT`, `DONE`, `BUSY`. -/
def State.statusWord (s : State) : Word :=
  0#4 ++ s.teState.code ++ s.attempts ++ 0#4 ++ BitVec.ofBool s.ovr ++ BitVec.ofBool s.utf8Err
    ++ BitVec.ofBool s.textValid ++ BitVec.ofBool s.dfValid ++ BitVec.ofBool s.exc ++ s.cause.code
    ++ s.result.code ++ BitVec.ofBool s.done ++ BitVec.ofBool s.busy

/-- A host write to `STATUS` changes nothing but `OVR`, which a 1 in bit 11 clears (rules R25, R80). -/
def State.writeStatus (v : Word) (s : State) : State := { s with ovr := s.ovr && !v.getLsbD 11 }

/-- The command decodes a frame, so its acceptance clears `DF_VALID` and `EXC` (rule R25). -/
def decodesFrame : Instr → Bool
  | .lrc | .crc16 | .encAscii | .encRtu => false
  | .decAscii | .decRtu | .execute | .writeText | .readText | .handle => true
  | .fcWriteText | .fcReadText | .fcException _ => false

/-- The command is a link command (rule R19). -/
def isLink : Instr → Bool
  | .lrc | .crc16 | .encAscii | .encRtu | .decAscii | .decRtu | .handle => false
  | .execute | .writeText | .readText => true
  | .fcWriteText | .fcReadText | .fcException _ => false

/-- The text flags of `READ_TEXT` after a success (rule R236). -/
def State.setTextFlags (s : State) : State :=
  { s with textValid := utf8Ok s.params s.dfBytes, utf8Err := !utf8Ok s.params s.dfBytes }

end Sys2Proof.Machine
end

