-- ==== Sys2Proof/Machine/Checksum.lean ====
section
/-! DEFINITION. Unit CE: the functions `lrc` and `crc16` (rules R141, R146) and the commands `LRC` and `CRC16` (rules
R142, R148). -/

namespace Sys2Proof.Machine

/-- The sum of rule R141 modulo 256: the last value of `LRC_ACC` (rule R45). -/
def lrcSum (s : List Byte) : Byte := s.foldl (· + ·) 0

/-- `lrc(a, f, p)`: the two's complement of the sum (rule R141). -/
def lrc (a f : Byte) (p : List Byte) : Byte := ~~~(lrcSum (a :: f :: p)) + 1

/-- One of the eight shifts of rule R146. -/
def crcShift (c : Half) : Half := if c.getLsbD 0 then (c >>> 1) ^^^ 0xA001 else c >>> 1

/-- `n` shifts. -/
def crcShifts (n : Nat) (c : Half) : Half :=
  match n with
  | 0 => c
  | k + 1 => crcShifts k (crcShift c)

/-- One byte enters the CRC register (rule R146). -/
def crcByte (c : Half) (b : Byte) : Half := crcShifts 8 (c ^^^ b.toHalf)

/-- `crc16(s)` (rule R146): the last value of `CRC_REG` (rule R45). -/
def crc16 (s : List Byte) : Half := s.foldl crcByte 0xFFFF

/-- The checksum of a frame value in an encoding, as `CHK` holds it (rules R34, R108). -/
def checksum (m : Encoding) (a f : Byte) (p : List Byte) : Half :=
  match m with
  | .ascii => (lrc a f p).toHalf
  | .rtu => crc16 (a :: f :: p)

/-- A checksum computation leaves its last sum in the working register (rule R45; log entry 12). -/
def State.runChecksum (m : Encoding) (a f : Byte) (p : List Byte) (s : State) : State :=
  match m with
  | .ascii => { s with lrcAcc := lrcSum (a :: f :: p) }
  | .rtu => { s with crcReg := crc16 (a :: f :: p) }

/-- `CHK <-` the checksum of a frame value. -/
def State.loadChk (m : Encoding) (a f : Byte) (p : List Byte) (s : State) : State :=
  State.runChecksum m a f p { s with chk := checksum m a f p }

/-- Command `LRC` (rule R142). -/
def execLrc (s : State) : Answer :=
  .next ((s.loadChk .ascii s.efAddr s.efFc s.efBytes).complete .ok)

/-- Command `CRC16` (rule R148). -/
def execCrc16 (s : State) : Answer :=
  .next ((s.loadChk .rtu s.efAddr s.efFc s.efBytes).complete .ok)

end Sys2Proof.Machine
end

