-- ==== Sys2Proof/Machine/Encoder.lean ====
section
/-! DEFINITION. Unit ENC: the wire formats (rules R100, R102, R106, R160 to R166) and the commands `ENC_ASCII` and
`ENC_RTU` (rules R164, R168). -/

namespace Sys2Proof.Machine

/-- The hex character of a nibble in the case that `HEX_UPPER` selects (rules R102, R104). -/
def hexDigit (upper : Bool) (v : Byte) : Byte :=
  if v < 10 then 0x30 + v else (if upper then 0x41 else 0x61) + (v - 10)

/-- `hex2(b)`: the high nibble's character first (rules R73, R102). -/
def hex2 (upper : Bool) (b : Byte) : List Byte := [hexDigit upper (b >>> 4), hexDigit upper (b &&& 0x0F)]

/-- The bytes of a sequence, each as two hex characters. -/
def hexAll (upper : Bool) (s : List Byte) : List Byte :=
  match s with
  | [] => []
  | b :: rest => hex2 upper b ++ hexAll upper rest

/-- `enc_ascii(a, f, p)` (rules R100, R161). -/
def encAscii (upper : Bool) (a f : Byte) (p : List Byte) : List Byte :=
  0x3A :: (hexAll upper (a :: f :: p) ++ hex2 upper (lrc a f p) ++ [0x0D, 0x0A])

/-- `enc_rtu(a, f, p)`: the CRC low byte first (rules R72, R106, R166). -/
def encRtu (a f : Byte) (p : List Byte) : List Byte :=
  (a :: f :: p) ++ [(crc16 (a :: f :: p)).extractLsb' 0 8, (crc16 (a :: f :: p)).extractLsb' 8 8]

/-- `encode(a, f, p, m)` (rule R160). -/
def encodeFrame (m : Encoding) (upper : Bool) (a f : Byte) (p : List Byte) : List Byte :=
  match m with
  | .ascii => encAscii upper a f p
  | .rtu => encRtu a f p

/-- The frame `(a, f, p)` goes to `TXBUF`, its length to `TX_LEN` and its checksum to `CHK` (rules R164, R168, R218, R260
step 6). -/
def State.buildFrame (m : Encoding) (a f : Byte) (p : List Byte) (s : State) : State :=
  (s.loadTx (encodeFrame m s.params.hexUpper a f p)).loadChk m a f p

/-- Command `ENC_ASCII` (rule R164). -/
def execEncAscii (s : State) : Answer :=
  .next ((s.buildFrame .ascii s.efAddr s.efFc s.efBytes).complete .ok)

/-- Command `ENC_RTU` (rule R168). -/
def execEncRtu (s : State) : Answer :=
  .next ((s.buildFrame .rtu s.efAddr s.efFc s.efBytes).complete .ok)

end Sys2Proof.Machine
end

