-- ==== Sys2Proof/Machine/Decoder.lean ====
section
/-! DEFINITION. Unit DEC: the decoder and its two errors (rules R103, R180 to R190), the write-back (rule R196) and the
commands `DEC_ASCII` and `DEC_RTU` (rules R188, R192). -/

namespace Sys2Proof.Machine

/-- The fields that a byte sequence spells, with the checksum it carries (rule R12). -/
structure Parsed where
  addr : Byte
  fc : Byte
  payload : List Byte
  check : Half
  deriving DecidableEq, Repr

/-- Which framing check failed: the steps 1 to 5 of rule R186, and step 1 of rule R190. -/
inductive FramingCheck where
  | noColon
  | noTerminator
  | notHex
  | oddDigits
  | tooShort
  | rtuTooShort
  deriving DecidableEq, Repr

/-- The result of `decode` (rule R180). -/
inductive Verdict where
  | frame (q : Parsed)
  | framingError (c : FramingCheck)
  | checksumError
  deriving DecidableEq, Repr

/-- `is_hex(ch)` (rule R103). -/
def isHex (ch : Byte) : Bool :=
  (decide (0x30 ≤ ch.toNat) && decide (ch.toNat ≤ 0x39)) || (decide (0x41 ≤ ch.toNat) && decide (ch.toNat ≤ 0x46))
    || (decide (0x61 ≤ ch.toNat) && decide (ch.toNat ≤ 0x66))

/-- `unhex1(ch)` of a hex character (rule R103). -/
def unhex1 (ch : Byte) : Byte :=
  if ch ≤ 0x39 then ch - 0x30 else if ch ≤ 0x46 then ch - 0x41 + 10 else ch - 0x61 + 10

/-- The bytes that pairs of hex characters spell (rule R186 step 6). -/
def unhexPairs (s : List Byte) : List Byte :=
  match s with
  | c1 :: c2 :: rest => (unhex1 c1 * 16 + unhex1 c2) :: unhexPairs rest
  | _ => []

/-- The characters between the colon and the terminator, by the checks 1 to 5 of rule R186 in their order. -/
def asciiBody (s : List Byte) : Except FramingCheck (List Byte) :=
  if s.length < 1 ∨ s[0]? ≠ some 0x3A then .error .noColon
  else if s.length < 3 ∨ s[s.length - 2]? ≠ some 0x0D ∨ s[s.length - 1]? ≠ some 0x0A then .error .noTerminator
  else if ((s.drop 1).take (s.length - 3)).any (fun ch => !isHex ch) then .error .notHex
  else if ((s.drop 1).take (s.length - 3)).length % 2 = 1 then .error .oddDigits
  else if ((s.drop 1).take (s.length - 3)).length < 6 then .error .tooShort
  else .ok ((s.drop 1).take (s.length - 3))

/-- The fields of the values `v[0..k)` of rule R186 step 6: address, function code, payload, LRC. -/
def asciiFields (v : List Byte) : Parsed where
  addr := v.getD 0 0
  fc := v.getD 1 0
  payload := (v.drop 2).take (v.length - 3)
  check := (v.getD (v.length - 1) 0).toHalf

/-- Steps 1 to 6 of rule R186. -/
def parseAscii (s : List Byte) : Except FramingCheck Parsed :=
  match asciiBody s with
  | .error c => .error c
  | .ok body => .ok (asciiFields (unhexPairs body))

/-- Steps 1 and 2 of rule R190, and the fields of its step 4: the last two bytes are the CRC, low byte first (rule R72). -/
def parseRtu (s : List Byte) : Except FramingCheck Parsed :=
  if s.length < 4 then .error .rtuTooShort
  else .ok
    { addr := s.getD 0 0
      fc := s.getD 1 0
      payload := (s.drop 2).take (s.length - 4)
      check := (s.getD (s.length - 2) 0).toHalf ||| ((s.getD (s.length - 1) 0).toHalf <<< 8) }

/-- The framing checks of an encoding. -/
def parse (m : Encoding) (s : List Byte) : Except FramingCheck Parsed :=
  match m with
  | .ascii => parseAscii s
  | .rtu => parseRtu s

/-- `decode(s, m)`: the framing checks first, the checksum comparison last (rules R180, R182, R186 step 7, R190 step 3). -/
def decodeFrame (m : Encoding) (s : List Byte) : Verdict :=
  match parse m s with
  | .error c => .framingError c
  | .ok q => if checksum m q.addr q.fc q.payload = q.check then .frame q else .checksumError

/-- The checksum computation inside `decode` leaves its sum in the working register (rule R45; log entry 12). -/
def State.noteDecode (m : Encoding) (bytes : List Byte) (s : State) : State :=
  match parse m bytes with
  | .error _ => s
  | .ok q => s.runChecksum m q.addr q.fc q.payload

/-- The error kind of a result (rules R196, R310). -/
def Verdict.kind : Verdict → Kind
  | .frame _ => .ok
  | .framingError _ => .framingError
  | .checksumError => .checksumError

/-- Writing back a decode result (rule R196). -/
def State.writeBack (v : Verdict) (s : State) : State :=
  match v with
  | .frame q => s.loadDf q.addr q.fc q.payload q.check
  | .framingError _ => s.loseDf
  | .checksumError => s.loseDf

/-- Decode `bytes` and write the result back: every use of the decoder (rule R196). -/
def State.receive (m : Encoding) (bytes : List Byte) (s : State) : State :=
  (s.noteDecode m bytes).writeBack (decodeFrame m bytes)

/-- Command `DEC_ASCII` (rule R188). -/
def execDecAscii (s : State) : Answer :=
  .next ((s.receive .ascii s.rxBytes).complete (decodeFrame .ascii s.rxBytes).kind)

/-- Command `DEC_RTU` (rule R192). -/
def execDecRtu (s : State) : Answer :=
  .next ((s.receive .rtu s.rxBytes).complete (decodeFrame .rtu s.rxBytes).kind)

end Sys2Proof.Machine
end

