-- ==== Sys2Proof/Machine/Dispatcher.lean ====
section
/-! DEFINITION. Unit RD, the Request Dispatcher (rules R260 to R278): the function codes of the opcode table, which are
step 4 of `HANDLE` on the request in DF and the response it builds (steps 5 and 6), and the command `HANDLE`. -/

namespace Sys2Proof.Machine

/-- Steps 5 and 6 of rule R260: the response `(DF.ADDR, f, p)` goes to EF and, encoded, to `TXBUF`; the command completes
with `k`. -/
def State.respond (f : Byte) (p : List Byte) (k : Kind) (s : State) : State :=
  ((s.loadEf s.dfAddr f p).buildFrame s.mode s.dfAddr f p).complete k

/-- The payload of the write-text request in DF is a text the store can hold (rules R260 step 4, R264). -/
def State.textAccepted (s : State) : Bool :=
  decide (s.dfLen.toNat ≤ s.params.payloadMax) && utf8Ok s.params s.dfBytes

/-- `FC_WRITE_TEXT` (rule R264): the payload overwrites the TextStore and the response is empty; a payload that is no
text or does not fit leaves the store and is answered by the exception response 0x81 (rule R270). -/
def execFcWriteText (s : State) : Answer :=
  .next
    (if s.textAccepted then (s.loadText s.dfBytes).respond 0x01 [] .ok
     else s.respond 0x81 [0x01] .processingError)

/-- `FC_READ_TEXT` (rule R266): the response carries the stored text; the request's own payload is not looked at. -/
def execFcReadText (s : State) : Answer := .next (s.respond 0x02 s.textBytes .ok)

/-- `FC_EXCEPTION` (rules R111, R270): the exception response with bit 7 of the function code set, `low` below it, and
the payload `[0x01]`. -/
def execFcException (low : BitVec 7) (s : State) : Answer :=
  .next (s.respond (0x80 ||| low.setWidth 8) [0x01] .unsupportedFunction)

/-- Step 4 of rule R260: the request's function code selects what is done. Every code but 0x01 and 0x02 is answered by
the exception response with that code and bit 7 set (rules R110, R270; log entry 11). -/
def serveRequest (f : Byte) (s : State) : Answer :=
  if f = 0x01 then execFcWriteText s
  else if f = 0x02 then execFcReadText s
  else execFcException (f.extractLsb' 0 7) s

/-- Command `HANDLE` (rule R260), steps 1 to 4. -/
def execHandle (s : State) : Answer :=
  match decodeFrame s.mode s.rxBytes with
  | .framingError _ => .next ((s.beginHandle.receive s.mode s.rxBytes).complete .framingError)
  | .checksumError => .next ((s.beginHandle.receive s.mode s.rxBytes).complete .checksumError)
  | .frame q =>
    if q.addr = s.ownAddr then serveRequest q.fc (s.beginHandle.receive s.mode s.rxBytes)
    else .next ((s.beginHandle.receive s.mode s.rxBytes).complete .addressMismatch)

end Sys2Proof.Machine
end

