-- ==== Sys2Proof/Machine/Ports.lean ====
section
/-! DEFINITION. The ports of the block (rule R51): the outputs as functions of the state, and the receive byte the
transport offers. -/

namespace Sys2Proof.Machine

/-- Output `tx_valid`: 1 exactly when `TE_STATE = SEND` and `TX_PTR < TX_LEN`. -/
def State.txValid (s : State) : Bool := decide (s.teState = .send) && decide (s.txPtr < s.txLen)

/-- Output `tx_data`: `TXBUF[TX_PTR]` while it is offered (rule R220); with `tx_valid = 0` the spec gives it no value, and it
is a free value (log entry 25). -/
def State.txData (s : State) : Byte := if s.txValid then s.txNext else Config.freeByte s.draws

/-- Output `rx_ready`: 1 exactly when `TE_STATE = WAIT` and `RX_LEN < RX_MAX` and `TIMER < TIMEOUT`. -/
def State.rxReady (s : State) : Bool :=
  decide (s.teState = .wait) && decide (s.rxLen.toNat < s.params.rxMax) && decide (s.timer < s.timeout)

/-- Output `done`: equals `STATUS.DONE`. -/
def State.donePort (s : State) : Bool := s.done

/-- Inputs `rx_valid` and `rx_data`: the byte offered in this cycle, if one is. The transport offers the first byte of
the receive stream, in the cycles it is ready to (rule R302; log entry 9). -/
def State.rxOffer (s : State) : Option Byte := if s.rxValid then s.rxStream.head? else none

/-- The receive window is open (rule R222). -/
def State.windowOpen (s : State) : Bool :=
  decide (s.rxLen.toNat < s.params.rxMax) && decide (s.timer < s.timeout)

end Sys2Proof.Machine
end

