-- ==== Sys2Proof/Machine/Link.lean ====
section
/-! DEFINITION. Unit TE: the states of the Transaction Engine (rules R216 to R230, table R248), one `clk` cycle each
(log entry 8), and the link commands `EXECUTE`, `WRITE_TEXT` and `READ_TEXT` (rules R212, R232, R234). -/

namespace Sys2Proof.Machine

/-- `IDLE` to `BUILD`; `prepare` is what the command does to EF (rule R216). -/
def linkStart (prepare : State → State) (s : State) : State :=
  { prepare { s with retryCnt := 0 } with teState := .build }

/-- `BUILD` to `SEND` (rule R218). -/
def linkBuild (s : State) : State :=
  { s.buildFrame s.mode s.efAddr s.efFc s.efBytes with
    attempts := s.attempts + 1, txPtr := 0, teState := .send }

/-- The transport takes the byte offered: it joins the transmit stream (rules R51, R220). -/
def sendByte (s : State) : State :=
  { s with txPtr := s.txPtr + 1, txStream := s.txStream ++ [s.txNext] }

/-- The receive window opens: `SEND` to `WAIT`. The link command writes `RXBUF`, so with `RX_LEN = 0` every byte of it is
unspecified (rules R39, R220). -/
def openWindow (s : State) : State :=
  { s with rxLen := 0, rxBuf := [], timer := 0, teState := .wait }

/-- `SEND` (rule R220). -/
def linkSend (s : State) : State :=
  if s.txPtr < s.txLen then (if s.txReady then sendByte s else s) else openWindow s

/-- The core takes the byte offered, if one is (rule R222). -/
def takeByte (s : State) : State :=
  match s.rxOffer with
  | some b =>
    { s with rxBuf := s.rxBuf.put s.rxLen.toNat b, rxLen := s.rxLen + 1, rxStream := s.rxStream.tail }
  | none => s

/-- A `tick` pulse in `WAIT` is counted while `TIMER < TIMEOUT` (rule R42). -/
def countTick (s : State) : State :=
  if s.tick && decide (s.timer < s.timeout) then { s with timer := s.timer + 1 } else s

/-- `WAIT` (rules R42, R222): a byte and a tick in the same cycle both take effect; the cycle that leaves a window closed
by its last byte still counts a tick (log entry 24). -/
def linkWait (s : State) : State :=
  if s.windowOpen then countTick (takeByte s) else { countTick s with teState := .check }

/-- A failed attempt: exhaustion or the next attempt (rule R228). -/
def linkFail (c : Cause) (s : State) : State :=
  if s.retryCnt = s.retries then { s with cause := c }.complete .timeoutError
  else { s with cause := c, retryCnt := s.retryCnt + 1, teState := .build }

/-- `CHECK` (rules R226, R228, R230); `finish` is what the command adds to a success. -/
def linkCheck (finish : State → State) (s : State) : State :=
  if s.rxLen = 0 then linkFail .noData s
  else
    match decodeFrame s.mode s.rxBytes with
    | .frame _ => (finish (s.receive s.mode s.rxBytes)).complete .ok
    | .framingError _ => linkFail .framing (s.receive s.mode s.rxBytes)
    | .checksumError => linkFail .checksum (s.receive s.mode s.rxBytes)

/-- One cycle of a link command: the transition of its state (rule R248). -/
def linkStep (prepare finish : State → State) (s : State) : State :=
  match s.teState with
  | .idle => linkStart prepare s
  | .build => linkBuild s
  | .send => linkSend s
  | .wait => linkWait s
  | .check => linkCheck finish s

/-- `WRITE_TEXT` sets `EF.FC` (rules R216, R232). -/
def prepareWriteText (s : State) : State := { s with efFc := 0x01 }

/-- `READ_TEXT` sets `EF.FC` and empties the payload (rules R216, R234). With `EF.LEN = 0` every byte of `EF_PAYLOAD` is
unspecified (rule R39; log entry 16). -/
def prepareReadText (s : State) : State := { s with efFc := 0x02, efLen := 0, efPayload := [] }

/-- Command `EXECUTE`: its transition in this cycle (rules R212, R248). -/
def execExecute (s : State) : Answer := .next (linkStep id id s)

/-- Command `WRITE_TEXT`: its transition in this cycle (rules R232, R248). -/
def execWriteText (s : State) : Answer := .next (linkStep prepareWriteText id s)

/-- Command `READ_TEXT`: its transition in this cycle (rules R234, R236, R248). -/
def execReadText (s : State) : Answer := .next (linkStep prepareReadText State.setTextFlags s)

end Sys2Proof.Machine
end

