-- ==== Sys2Proof/Machine/Dispatch.lean ====
section
/-! DEFINITION. One arm per instruction: its meaning. -/

namespace Sys2Proof.Machine

def exec (i : Instr) (s : State) : Host.Outcome State Fault Refusal :=
  match i with
  | .lrc => Sys2Proof.Machine.execLrc s
  | .crc16 => Sys2Proof.Machine.execCrc16 s
  | .encAscii => Sys2Proof.Machine.execEncAscii s
  | .encRtu => Sys2Proof.Machine.execEncRtu s
  | .decAscii => Sys2Proof.Machine.execDecAscii s
  | .decRtu => Sys2Proof.Machine.execDecRtu s
  | .execute => Sys2Proof.Machine.execExecute s
  | .writeText => Sys2Proof.Machine.execWriteText s
  | .readText => Sys2Proof.Machine.execReadText s
  | .handle => Sys2Proof.Machine.execHandle s
  | .fcWriteText => Sys2Proof.Machine.execFcWriteText s
  | .fcReadText => Sys2Proof.Machine.execFcReadText s
  | .fcException low => Sys2Proof.Machine.execFcException low s

end Sys2Proof.Machine
end

