-- ==== Sys2Proof/Machine/HostAccess.lean ====
section
/-! DEFINITION. The host's register and buffer accesses (rules R21 to R39), the issue of a command (rules R24, R26, R122,
R216), and the BUSY lock (rule R27). -/

namespace Sys2Proof.Machine

/-- Register `n` exists: 0 to 11, less 5 and 11 in a block without the dispatcher (rule R23). -/
def State.hasRegister (s : State) (n : Nat) : Bool :=
  decide (n ≤ 11) && (s.params.hasRd || (n != 5 && n != 11))

/-- Buffer `id` exists: 0 to 4, less 4 in a block without the dispatcher (rule R38). -/
def State.hasBuffer (s : State) (id : Nat) : Bool := decide (id ≤ 3) || (s.params.hasRd && id == 4)

/-! ### Reads (rules R22, R23, R27, R80) -/

/-- The value of a register that exists, in an idle block; none where it is unspecified (rules R23, R33). -/
def State.regValue (s : State) (n : Nat) : Option Word :=
  match n with
  | 0 => some 0
  | 1 => some s.statusWord
  | 2 => some (s.mode.code.setWidth 32)
  | 3 => some s.timeout
  | 4 => some s.retries.toWord
  | 5 => some s.ownAddr.toWord
  | 6 => some (s.efLen ++ s.efFc ++ s.efAddr)
  | 7 => if s.dfValid then some (s.dfLen ++ s.dfFc ++ s.dfAddr) else none
  | 8 => some s.chk.toWord
  | 9 => some s.txLen.toWord
  | 10 => some s.rxLen.toWord
  | 11 => some s.textLen.toWord
  | _ => some 0

/-- `R(n)`: a register that does not exist reads as zero; while `BUSY = 1` every one but `STATUS` reads as an unspecified
value (rules R23, R27). -/
def State.readReg (n : Nat) (s : State) : State :=
  if s.hasRegister n = false then s.answer 0
  else if s.busy ∧ n ≠ 1 then s.answerFreeWord
  else
    match s.regValue n with
    | some w => s.answer w
    | none => s.answerFreeWord

/-- `RB(id, i)`: the byte while `BUSY = 0` and `i` is below the buffer's length, an unspecified value otherwise (rules
R27, R33, R38, R39). -/
def State.readBuf (id i : Nat) (s : State) : State :=
  if s.busy ∨ s.validLength id ≤ i then s.answerFreeByte
  else
    match s.byteAt id i with
    | some b => s.answer b.toWord
    | none => s.answerFreeByte

/-! ### Writes -/

/-- `CFG.MODE` (rule R28). -/
def State.setMode (v : Word) (s : State) : State := { s with mode := Encoding.ofBit (v.getLsbD 0) }

/-- `OWN_ADDR`, legal 1 to 247; an illegal value drops the write (rules R22, R31). -/
def State.setOwnAddr (v : Word) (s : State) : State :=
  if 1 ≤ (v.setWidth 8).toNat ∧ (v.setWidth 8).toNat ≤ 247 then { s with ownAddr := v.setWidth 8 } else s

/-- `EF_HDR`; an illegal `LEN` drops the whole write (rules R22, R32). The new length cuts `EF_PAYLOAD` (rule R39; log
entries 5 and 16). -/
def State.setEfHdr (v : Word) (s : State) : State :=
  if (v.extractLsb' 16 16).toNat ≤ s.params.payloadMax then
    { s with
      efAddr := v.extractLsb' 0 8, efFc := v.extractLsb' 8 8, efLen := v.extractLsb' 16 16,
      efPayload := s.efPayload.setLength s.draws (v.extractLsb' 16 16).toNat,
      draws := s.draws + (v.extractLsb' 16 16).toNat }
  else s

/-- `RX_LEN`, legal 0 to `RX_MAX` (rules R22, R36); it cuts `RXBUF` (rule R39; log entries 5 and 16). -/
def State.setRxLen (v : Word) (s : State) : State :=
  if (v.setWidth 16).toNat ≤ s.params.rxMax then
    { s with
      rxLen := v.setWidth 16, rxBuf := s.rxBuf.setLength s.draws (v.setWidth 16).toNat,
      draws := s.draws + (v.setWidth 16).toNat }
  else s

/-- A host write, in an idle block, to a register other than `CMD` and `STATUS`: a write to an `RO` register is ignored
(rules R22, R23). -/
def State.writeIdleReg (n : Nat) (v : Word) (s : State) : State :=
  match n with
  | 2 => s.setMode v
  | 3 => { s with timeout := v }
  | 4 => { s with retries := v.setWidth 8 }
  | 5 => s.setOwnAddr v
  | 6 => s.setEfHdr v
  | 10 => s.setRxLen v
  | _ => s

/-- A host write to `CMD` in an idle block (rules R24, R26). A local command is accepted and runs in a later cycle; a
link command goes on from `IDLE` to `BUILD` in the step that accepts it (rule R216); an illegal word completes at once
(rule R122). -/
def issue (w : Word) (s : State) : Answer :=
  match decodeCmd s.params.hasRd w with
  | .error _ => .next ((s.accept (w.setWidth 8) false).complete .illegalCommand)
  | .ok i =>
    if isLink i then exec i (s.accept (w.setWidth 8) (decodesFrame i))
    else .next (s.accept (w.setWidth 8) (decodesFrame i))

/-- `W(n, v)` (rules R22, R23, R25, R27). -/
def writeReg (n : Nat) (v : Word) (s : State) : Answer :=
  if s.hasRegister n = false then .next s
  else if n = 1 then .next (s.writeStatus v)
  else if s.busy then .next s.refuseWrite
  else if n = 0 then issue v s
  else .next (s.writeIdleReg n v)

/-- `B(id, i, b)`: the host writes `EF_PAYLOAD` and `RXBUF`, below their capacity; a write elsewhere is ignored, and while
`BUSY = 1` a write to any buffer is refused (rules R27, R38; log entry 13). -/
def State.writeBuf (id i : Nat) (b : Byte) (s : State) : State :=
  if s.hasBuffer id = false then s
  else if s.busy then s.refuseWrite
  else if s.capacity id ≤ i then s
  else
    match id with
    | 0 => { s with efPayload := s.efPayload.put i b }
    | 2 => { s with rxBuf := s.rxBuf.put i b }
    | _ => s

/-- One host access (rule R21). -/
def hostAccess (a : HostAccess) (s : State) : Answer :=
  match a with
  | .writeReg n v => writeReg n v s
  | .readReg n => .next (s.readReg n)
  | .writeBuf id i b => .next (s.writeBuf id i b)
  | .readBuf id i => .next (s.readBuf id i)

end Sys2Proof.Machine
end

