-- ==== Sys2Proof/Machine/Sequence.lean ====
section
/-! DEFINITION. What happens next: the core's cycle, and the events of the outside world in their order (rules R17, R44,
R83, R350; log entry 6). -/

namespace Sys2Proof.Machine

/-- One `clk` cycle of the core: idle it does nothing (rule R352); busy it runs the command latched in `CUR_OP` (rule
R44). A busy block whose `CUR_OP` is no command is never reached; it completes as rule R122 says. -/
def coreCycle (s : State) : Answer :=
  if s.busy then
    match decodeCmd s.params.hasRd s.curOp.toWord with
    | .ok i => exec i s
    | .error _ => .next (s.complete .illegalCommand)
  else .next s

/-- The input ports of this cycle (rule R51). -/
def State.withPorts (tick txReady rxValid : Bool) (s : State) : State :=
  { s with tick := tick, txReady := txReady, rxValid := rxValid }

/-- One event. In a cycle with `rst = 1` no byte moves on the link, whatever the outputs of the state before it offer (the
model's choice, log entry 23). -/
def happen (e : Event) (s : State) : Answer :=
  match e with
  | .host a => hostAccess a s
  | .cycle tick txReady rxValid => coreCycle (s.withPorts tick txReady rxValid)
  | .arrive b => .next { s with rxStream := s.rxStream ++ [b] }
  | .reset => .next s.resetBlock

/-- The event that comes next; when none is left, cycles in which the outside world does nothing. -/
def State.nextEvent (s : State) : Event := s.inputs.headD (.cycle false false false)

/-- The state with its next event taken. -/
def State.takeEvent (s : State) : State := { s with inputs := s.inputs.tail }

/-- One step of the machine. -/
def advance (s : State) : Answer := happen s.nextEvent s.takeEvent

end Sys2Proof.Machine
end

