-- ==== Sys2Proof/Machine/Fetch.lean ====
section
/-! DEFINITION. Placing an instruction where the core fetches its next one (rules R44, R87; log entries 1 and 10): the
command word in `CUR_OP` of a block that has just accepted it, or the function code of a request that `HANDLE` is about
to serve. -/

namespace Sys2Proof.Machine

/-- The next step is a cycle of the core in which the outside world does nothing. -/
def State.cycleNext (s : State) : State := { s with inputs := .cycle false false false :: s.inputs }

/-- The block has just accepted the command `i` with the word `w` (rule R26), from `IDLE` (rule R40). -/
def State.withCommand (w : Byte) (i : Instr) (s : State) : State :=
  (State.accept w (decodesFrame i) { s with teState := .idle }).cycleNext

/-- The block has just accepted `HANDLE` of an empty request with the function code `f`, addressed to it (rules R113,
R260). -/
def State.withRequest (f : Byte) (s : State) : State :=
  let frame := encodeFrame s.mode s.params.hexUpper s.ownAddr f []
  { s with rxBuf := Memory.ofBytes frame, rxLen := BitVec.ofNat 16 frame.length }.withCommand
    (encodeByte .handle) .handle

/-- The host is about to write `w` to `CMD` of an idle block: an illegal word, which completes at once (rule R122). -/
def State.withIllegalWord (w : Word) (s : State) : State :=
  { s with busy := false, inputs := .host (.writeReg 0 w) :: s.inputs }

/-- The word `w` placed so that the very next step runs it. -/
def State.placeWord (w : Word) (s : State) : State :=
  match decode .cmd8 s.params.hasRd w with
  | .ok i => s.withCommand (w.setWidth 8) i
  | .error _ =>
    match decode .fc8 s.params.hasRd w with
    | .ok _ => s.withRequest (w.setWidth 8)
    | .error _ => s.withIllegalWord w

end Sys2Proof.Machine
end

