-- ==== Sys2Proof/Machine/Step.lean ====
section
/-! DEFINITION. The step of the machine, and the fetch word. -/

namespace Sys2Proof.Machine

/-- One step: the next event of the outside world (a host access, a `clk` cycle of the core, a byte that reaches the
transport, reset). -/
def step (s : State) : Host.Outcome State Fault Refusal := advance s

/-- The instruction word `w` stored where the core fetches its next instruction. -/
def State.withFetchWord (s : State) (_nbits w : Nat) : State := s.placeWord (BitVec.ofNat 32 w)

end Sys2Proof.Machine
end

