-- ==== Sys2Proof/Machine/Script.lean ====
section
/-! DEFINITION. The script language of host programs (rules R126, R127): each statement is the list of the host accesses
it stands for. A text is given by its UTF-8 bytes (rule R76). -/

namespace Sys2Proof.Machine

/-- One statement of rule R126. -/
inductive Stmt where
  /-- `SET <REG>, <value>`. -/
  | set (n : Nat) (v : Word)
  /-- `PUT <BUF>, <bytes>`. -/
  | put (id : Nat) (bytes : List Byte)
  /-- `<MNEMONIC>`: the write to `CMD`, and the reads of `STATUS` the host makes until it sees `DONE = 1`; how many they
  are is up to the run (log entry 22). -/
  | command (i : Instr) (polls : Nat)
  /-- `GET <REG>`. -/
  | getReg (n : Nat)
  /-- `GET <BUF>, <n>`. -/
  | getBuf (id n : Nat)
  /-- `CLR_OVR`. -/
  | clrOvr
  deriving DecidableEq, Repr

/-- Buffer writes from index `k` on. -/
def putFrom (id k : Nat) (bytes : List Byte) : List HostAccess :=
  match bytes with
  | [] => []
  | b :: rest => .writeBuf id k b :: putFrom id (k + 1) rest

/-- The encoding of a statement (rule R126). -/
def Stmt.accesses : Stmt → List HostAccess
  | .set n v => [.writeReg n v]
  | .put id bytes => putFrom id 0 bytes
  | .command i polls => .writeReg 0 (encode i) :: List.replicate polls (.readReg 1)
  | .getReg n => [.readReg n]
  | .getBuf id n => (List.range n).map (fun i => .readBuf id i)
  | .clrOvr => [.writeReg 1 0x00000800]

/-- The encoding of a script (rule R126), as events of the outside world: the host's accesses and no other event. Where the
cycles of the core and the bytes of the transport fall between them is for whoever builds the queue of events to say: in
the queue of the accesses alone a command never runs, so it never completes and every later write is refused (the
model's choice, log entry 22). -/
def scriptEvents (script : List Stmt) : List Event := (script.flatMap Stmt.accesses).map Event.host

/-- `FRAME a, f, <bytes>` (rule R127). -/
def stmtFrame (a f : Byte) (bytes : List Byte) : List Stmt :=
  [.put 0 bytes, .set 6 (BitVec.ofNat 16 bytes.length ++ f ++ a)]

/-- `RX <bytes>` (rule R127). -/
def stmtRx (bytes : List Byte) : List Stmt := [.put 2 bytes, .set 10 (BitVec.ofNat 32 bytes.length)]

/-- `WRITE_TEXT a, "text"` (rule R127). -/
def stmtWriteText (a : Byte) (text : List Byte) (polls : Nat) : List Stmt :=
  stmtFrame a 0 text ++ [.command .writeText polls]

/-- `READ_TEXT a` (rule R127). -/
def stmtReadText (a : Byte) (polls : Nat) : List Stmt := [.set 6 a.toWord, .command .readText polls]

/-- `EXECUTE a, f, <bytes>` (rule R127). -/
def stmtExecute (a f : Byte) (bytes : List Byte) (polls : Nat) : List Stmt :=
  stmtFrame a f bytes ++ [.command .execute polls]

/-- `MASTER m, t, r` (rule R127). -/
def stmtMaster (m : Encoding) (t : Word) (r : Byte) : List Stmt :=
  [.set 2 (m.code.setWidth 32), .set 3 t, .set 4 r.toWord]

end Sys2Proof.Machine
end

