-- ==== Sys2Proof/Safety.lean ====
section
/-! DEFINITION. What a reachable state of the block satisfies (`State.Inv`), in the terms the statements use, and the
outside world of a transaction: one attempt of a link command answered by given bytes (rules R14, R214, R244), and what a
transaction has sent (rule R87). -/

namespace Sys2Proof.Machine

/-- The buffer is in canonical form, inside its capacity, and every byte below the length has a value (rules R38, R39). -/
def Memory.Fits (m : Memory) (len cap : Nat) : Prop :=
  m.wf ∧ (∀ c ∈ m, c.1 < cap) ∧ ∀ i < len, (m.byteAt? i).isSome = true

/-- The registers and buffers hold what the spec allows them to. -/
structure State.DataInv (s : State) : Prop where
  /-- The parameters are in range (rules R6, R7). -/
  params : s.params.wf
  /-- `EF.LEN <= PAYLOAD_MAX` (rule R32). -/
  efLen : s.efLen.toNat ≤ s.params.payloadMax
  /-- `TX_LEN <= TX_MAX` (rule R35). -/
  txLen : s.txLen.toNat ≤ s.params.txMax
  /-- `RX_LEN <= RX_MAX` (rule R36). -/
  rxLen : s.rxLen.toNat ≤ s.params.rxMax
  /-- `DF.LEN <= DF_MAX` while DF is valid (rule R33). -/
  dfLen : s.dfValid = true → s.dfLen.toNat ≤ s.params.dfMax
  /-- `TEXT_LEN <= PAYLOAD_MAX` (rule R37). -/
  textLen : s.textLen.toNat ≤ s.params.payloadMax
  /-- `OWN_ADDR` is a slave address (rule R31). -/
  ownAddr : 1 ≤ s.ownAddr.toNat ∧ s.ownAddr.toNat ≤ 247
  /-- The five buffers hold what their lengths say (rules R38, R39). -/
  efPayload : s.efPayload.Fits s.efLen.toNat s.params.payloadMax
  txBuf : s.txBuf.Fits s.txLen.toNat s.params.txMax
  rxBuf : s.rxBuf.Fits s.rxLen.toNat s.params.rxMax
  dfPayload : s.dfPayload.Fits (if s.dfValid then s.dfLen.toNat else 0) s.params.dfMax
  text : s.text.Fits s.textLen.toNat s.params.payloadMax
  /-- The TextStore is empty or well-formed (rule R274). -/
  textUtf8 : s.textLen = 0 ∨ utf8Ok s.params s.textBytes = true
  /-- `EXC` is bit 7 of `DF.FC` of a decoded frame, 0 where there is none (rules R25, R196). -/
  exc : s.exc = (s.dfValid && s.dfFc.getLsbD 7)

/-- The sequencer and the flags of a command in progress fit together. -/
structure State.ControlInv (s : State) : Prop where
  /-- `TE_STATE` is `IDLE` whenever `BUSY = 0` (rule R40). -/
  idle : s.busy = false → s.teState = .idle
  /-- `DONE` is 0 while a command is in progress (rule R26). -/
  notDone : s.busy = true → s.done = false
  /-- The command in progress is a command of the block, and a link command exactly where `TE_STATE` is not `IDLE` (rules
  R40, R44, R216). -/
  command : s.busy = true →
    ∃ i, decodeCmd s.params.hasRd s.curOp.toWord = .ok i ∧ (s.teState ≠ .idle ↔ isLink i = true)
  /-- Acceptance of a command that decodes has cleared `DF_VALID`, and nothing sets it before completion (rules R25,
  R196). -/
  noFrame : s.busy = true →
    ∀ i, decodeCmd s.params.hasRd s.curOp.toWord = .ok i → decodesFrame i = true → s.dfValid = false
  /-- `RETRY_CNT` never exceeds `RETRIES` (rule R41). -/
  retryCnt : s.teState ≠ .idle → s.retryCnt.toNat ≤ s.retries.toNat
  /-- No attempt is counted before the first build step (rules R26, R218). -/
  attemptsStart : s.busy = true → s.teState = .idle → s.attempts = 0
  /-- `ATTEMPTS = RETRY_CNT` on entry to a build step (rules R41, R218). -/
  attemptsBuild : s.teState = .build → s.attempts.toNat = s.retryCnt.toNat
  /-- `ATTEMPTS = RETRY_CNT + 1` from the build step on (rule R41). -/
  attemptsRun : s.teState = .send ∨ s.teState = .wait ∨ s.teState = .check →
    s.attempts.toNat = s.retryCnt.toNat + 1
  /-- `TX_PTR` does not pass `TX_LEN` (rule R43). -/
  txPtr : s.teState = .send → s.txPtr.toNat ≤ s.txLen.toNat
  /-- `TIMER` stops at `TIMEOUT` (rule R42). -/
  timer : s.teState = .wait ∨ s.teState = .check → s.timer.toNat ≤ s.timeout.toNat
  /-- A text, well-formed or not, is in a decoded frame, and there is none while a command runs (rules R25, R236). -/
  textFlags : s.textValid = true ∨ s.utf8Err = true → s.dfValid = true ∧ s.busy = false
  /-- `TEXT_VALID` and `UTF8_ERR` exclude each other (rule R236). -/
  textOne : ¬(s.textValid = true ∧ s.utf8Err = true)

/-- The invariant of the block: what every step keeps and reset establishes. -/
structure State.Inv (s : State) : Prop where
  data : s.DataInv
  control : s.ControlInv

/-- The bytes that one attempt of the transaction sends: the request in EF, encoded (rules R87, R212). -/
def State.request (s : State) : List Byte :=
  encodeFrame s.mode s.params.hexUpper s.efAddr s.efFc s.efBytes

/-- What a link command does to EF when it is accepted (rule R216). -/
def State.prepared (i : Instr) (s : State) : State :=
  match i with
  | .writeText => prepareWriteText s
  | .readText => prepareReadText s
  | _ => s

/-- Why an attempt whose answer is `rx` fails (rule R226); none where it succeeds. -/
def failedBy (m : Encoding) (rx : List Byte) : Option Cause :=
  if rx = [] then some .noData
  else
    match decodeFrame m rx with
    | .frame _ => none
    | .framingError _ => some .framing
    | .checksumError => some .checksum

/-- How many times the command in progress has written its whole request: once for every attempt counted, but for the
one that is still being sent (rules R218, R220). -/
def State.wholeWrites (s : State) : Nat := if s.teState = .send then s.attempts.toNat - 1 else s.attempts.toNat

/-- The transmit stream since the command was accepted, when it held `base`: whole copies of the request, and the part of
the copy in progress that the transport has taken; what is in `TXBUF` then is the request (rules R87, R220). -/
def State.Sent (base : List Byte) (s : State) : Prop :=
  s.txStream =
      base ++ (List.replicate s.wholeWrites s.request).flatten
        ++ (if s.teState = .send then s.request.take s.txPtr.toNat else []) ∧
    (s.teState = .send → s.txBytes = s.request)

/-- `n` steps, to the first fault or refusal (the run of `Host.Core.run`, on this machine's own types). -/
def runSteps (n : Nat) (s : State) : Answer :=
  match n with
  | 0 => .next s
  | k + 1 =>
    match step s with
    | .next t => runSteps k t
    | .fault r => .fault r
    | .refused r => .refused r

/-- `n` cycles with the given ports. -/
def cycles (n : Nat) (tick txReady rxValid : Bool) : List Event :=
  List.replicate n (.cycle tick txReady rxValid)

/-- The events of one attempt that the outside world answers with `rx` (rules R212, R244): the build step; a transport
that takes every byte of the request; the bytes of the answer arrive and are offered; the window closes because it is
full or because the timeout has run out; the check step. -/
def attemptEvents (s : State) (rx : List Byte) : List Event :=
  cycles 1 false false false ++ cycles (s.request.length + 1) false true false
    ++ rx.map Event.arrive ++ cycles rx.length false false true
    ++ (if rx.length < s.params.rxMax then cycles s.timeout.toNat true false false else [])
    ++ cycles 2 false false false

end Sys2Proof.Machine
end

