-- ==== Sys2Proof/Certificates/Slice0/Obligations.lean ====
section
/-! DEFINITION. The statements for the provers. Where a statement says that a step answers a state `t` and that `t` is `s`
with some fields changed, every field not named is unchanged; a field set to `t`'s own value is one the statement fixes
in another clause, or one the spec leaves unspecified. -/

section
open Sys2Proof Sys2Proof.Machine

/-! ### Encodings -/

/-- Words written out from the tables of rules R110 and R120, and the function-code map of rule R110 for every byte. That
the table words 0x01 and 0x02 come out as commands is the model's choice (log entry 10). -/
def Obligations.TableRowsDecode : Prop :=
  (decodeTableWord 8 0x01 = some .lrc ∧ decodeTableWord 8 0x02 = some .crc16 ∧
    decodeTableWord 8 0x03 = some .encAscii ∧ decodeTableWord 8 0x13 = some .encRtu ∧
    decodeTableWord 8 0x04 = some .decAscii ∧ decodeTableWord 8 0x14 = some .decRtu ∧
    decodeTableWord 8 0x05 = some .execute ∧ decodeTableWord 8 0x06 = some .writeText ∧
    decodeTableWord 8 0x07 = some .readText ∧ decodeTableWord 8 0x08 = some .handle ∧
    decodeTableWord 8 0x83 = some (.fcException 0x03)) ∧
  (∀ f : Byte,
    (f = 0x01 → decodeFc true f = .ok .fcWriteText) ∧
    (f = 0x02 → decodeFc true f = .ok .fcReadText) ∧
    (f.getLsbD 7 = true → decodeFc true f = .ok (.fcException (f.extractLsb' 0 7)) ∧
      encodeByte (.fcException (f.extractLsb' 0 7)) = f) ∧
    (f.getLsbD 7 = false → f ≠ 0x01 → f ≠ 0x02 → decodeFc true f = .error .functionCodeUndefined) ∧
    decodeFc false f = .error .unitAbsent)

/-- Decode and encode agree, in both directions, for every instruction of both formats (rules R110, R118, R120, R121). -/
def Obligations.DecodeEncodeAgree : Prop :=
  (∀ (hasRd : Bool) (i : Instr), i.wellFormed hasRd = true → decode i.format hasRd (encode i) = .ok i) ∧
  (∀ (fmt : Format) (hasRd : Bool) (w : Word) (i : Instr), decode fmt hasRd w = .ok i →
    i.wellFormed hasRd = true ∧ i.format = fmt ∧ encode i = w)

/-- The command list of rule R120: the ten words, all 32 bits significant (rule R118), `HANDLE` only with the dispatcher. -/
def Obligations.CommandTableExact : Prop :=
  ∀ (hasRd : Bool) (w : Word) (i : Instr), decodeCmd hasRd w = .ok i ↔
    (w, i) ∈ ([(0x01, .lrc), (0x02, .crc16), (0x03, .encAscii), (0x13, .encRtu), (0x04, .decAscii), (0x14, .decRtu),
      (0x05, .execute), (0x06, .writeText), (0x07, .readText), (0x08, .handle)] : List (Word × Instr)) ∧
    (i = .handle → hasRd = true)

/-- Rules R122 and R26: which words are illegal, and what a write of one to `CMD` of an idle block does: it is accepted (the
fields of rule R26, `CUR_OP` among them) and completes at once, and nothing else changes. That this is in the step of the
write, and that no byte which the host put at or beyond a length outlives an acceptance, are the model's readings (log
entries 7 and 16). -/
def Obligations.IllegalCommand : Prop :=
  (∀ (hasRd : Bool) (w : Word), (∀ i, decodeCmd hasRd w ≠ .ok i) ↔
    ((w.extractLsb' 0 4).toNat = 0 ∨ 9 ≤ (w.extractLsb' 0 4).toNat ∨
      (w.getLsbD 4 = true ∧ (w.extractLsb' 0 4).toNat ≠ 3 ∧ (w.extractLsb' 0 4).toNat ≠ 4) ∨
      w.extractLsb' 5 3 ≠ 0 ∨ w.extractLsb' 8 24 ≠ 0 ∨ (w = 0x08 ∧ hasRd = false))) ∧
  (∀ (s : State) (w : Word), s.busy = false → (∀ i, decodeCmd s.params.hasRd w ≠ .ok i) →
    ∃ t, hostAccess (.writeReg 0 w) s = .next t ∧
      t = { s with
        busy := false, done := true, result := .illegalCommand, cause := .none, textValid := false,
        utf8Err := false, attempts := 0, curOp := w.setWidth 8, teState := .idle,
        efPayload := t.efPayload, rxBuf := t.rxBuf } ∧
      (∀ j, t.byteAt 0 j = if j < s.efLen.toNat then s.byteAt 0 j else none) ∧
      (∀ j, t.byteAt 2 j = if j < s.rxLen.toNat then s.byteAt 2 j else none))

/-! ### The step -/

/-- A cycle of a busy block runs the command latched in `CUR_OP` (rule R44), with the input ports of that cycle. When the
queue of events is empty the cycle is one in which the outside world does nothing (log entry 6). -/
def Obligations.StepRunsLatchedCommand : Prop :=
  ∀ (s : State) (i : Instr), s.busy = true → decodeCmd s.params.hasRd s.curOp.toWord = .ok i →
    (∀ (tick txReady rxValid : Bool) (rest : List Event), s.inputs = .cycle tick txReady rxValid :: rest →
      step s = exec i { s with inputs := rest, tick := tick, txReady := txReady, rxValid := rxValid }) ∧
    (s.inputs = [] → step s = exec i { s with tick := false, txReady := false, rxValid := false })

/-- The other events: a host access is the access; a byte that arrives waits with the transport (rule R47); a cycle of an
idle block changes nothing but the port values (rule R352); reset is rule R350. The queue of events, and what reset keeps
beside the block, are the model's (log entries 6 and 18), and so are that no byte moves in a cycle in reset (log entry 23)
and that `State.ofReset` holds zero where rule R50 leaves `DF_HDR`, `LRC_ACC` and `CRC_REG` unspecified (log entry 3,
unsafe). -/
def Obligations.StepOfOtherEvents : Prop :=
  ∀ (s : State) (rest : List Event),
    (∀ a, s.inputs = .host a :: rest → step s = hostAccess a { s with inputs := rest }) ∧
    (∀ b, s.inputs = .arrive b :: rest →
      step s = .next { s with inputs := rest, rxStream := s.rxStream ++ [b] }) ∧
    (∀ tick txReady rxValid, s.busy = false → s.inputs = .cycle tick txReady rxValid :: rest →
      step s = .next { s with inputs := rest, tick := tick, txReady := txReady, rxValid := rxValid }) ∧
    (s.inputs = .reset :: rest →
      step s = .next
        { State.ofReset s.params with
          inputs := rest, txStream := s.txStream, rxStream := s.rxStream, hostData := s.hostData,
          draws := s.draws })

/-- No step and no instruction ends in a fault or a refusal: errors are the `RESULT` of a command (rule R318), and a
transport or tick that never comes leaves the core where it is (rule R244; the model's reading, log entry 21). -/
def Obligations.EveryStepAnswersNext : Prop :=
  (∀ s : State, ∃ t, step s = .next t) ∧ (∀ (i : Instr) (s : State), ∃ t, exec i s = .next t)

/-! ### The host's registers and buffers -/

/-- Rule R26, acceptance of a local command: the fields it sets, `DF_VALID` and `EXC` only for a command that decodes
(rule R25), and nothing else. That it then runs in a later cycle is the model's choice (log entry 7), and that no byte which
the host put at or beyond a length outlives the acceptance is its reading of rule R39 (log entry 16). -/
def Obligations.LocalCommandAccepted : Prop :=
  ∀ (s : State) (w : Word) (i : Instr), s.busy = false → decodeCmd s.params.hasRd w = .ok i →
    i ≠ .execute → i ≠ .writeText → i ≠ .readText →
    ∃ t, hostAccess (.writeReg 0 w) s = .next t ∧
      t = { s with
        busy := true, done := false, result := .ok, cause := .none, textValid := false, utf8Err := false,
        attempts := 0, curOp := w.setWidth 8,
        dfValid := if i = .decAscii ∨ i = .decRtu ∨ i = .handle then false else s.dfValid,
        exc := if i = .decAscii ∨ i = .decRtu ∨ i = .handle then false else s.exc,
        efPayload := t.efPayload, rxBuf := t.rxBuf } ∧
      (∀ j, t.byteAt 0 j = if j < s.efLen.toNat then s.byteAt 0 j else none) ∧
      (∀ j, t.byteAt 2 j = if j < s.rxLen.toNat then s.byteAt 2 j else none)

/-- Rule R216: acceptance of a link command (rule R26) and, in the same step, `IDLE` to `BUILD`. An idle block is in `IDLE`
(rule R40, `StepKeepsInvariant`). That `BUILD` is entered in the step of the write, and that no byte
which the host put at or beyond a length outlives the acceptance, those of `EF_PAYLOAD` under `READ_TEXT` among them, are
the model's readings (log entries 7 and 16). -/
def Obligations.LinkCommandAccepted : Prop :=
  ∀ (s : State) (w : Word) (fc : Byte) (len : Half), s.busy = false → s.teState = .idle →
    (w = 0x05 ∧ fc = s.efFc ∧ len = s.efLen ∨ w = 0x06 ∧ fc = 0x01 ∧ len = s.efLen ∨
      w = 0x07 ∧ fc = 0x02 ∧ len = 0) →
    ∃ t, hostAccess (.writeReg 0 w) s = .next t ∧
      t = { s with
        busy := true, done := false, result := .ok, cause := .none, textValid := false, utf8Err := false,
        attempts := 0, curOp := w.setWidth 8, dfValid := false, exc := false, retryCnt := 0, teState := .build,
        efFc := fc, efLen := len, efPayload := t.efPayload, rxBuf := t.rxBuf } ∧
      (∀ j, t.byteAt 0 j = if j < len.toNat then s.byteAt 0 j else none) ∧
      (∀ j, t.byteAt 2 j = if j < s.rxLen.toNat then s.byteAt 2 j else none)

/-- Rule R27. A write to `STATUS` is rule R25's; what a busy block does with a buffer index beyond the capacity, which names
no location (rule R38), is the model's (log entry 13) and not stated. The unspecified value of a read is a fresh draw (U2);
that it is a whole word for a register, that the draws are counted and that the value read is a field are the model's
choices (log entries 14, 4 and 19). -/
def Obligations.BusyLock : Prop :=
  ∀ s : State, s.busy = true →
    (∀ (n : Nat) (v : Word), n ≤ 11 → (s.params.hasRd = true ∨ (n ≠ 5 ∧ n ≠ 11)) → n ≠ 1 →
      hostAccess (.writeReg n v) s = .next { s with ovr := true } ∧
      hostAccess (.readReg n) s
        = .next { s with hostData := Config.freeWord s.draws, draws := s.draws + 1 }) ∧
    (∀ (id i : Nat) (b : Byte), id ≤ 4 → (s.params.hasRd = true ∨ id ≠ 4) → i < s.capacity id →
      hostAccess (.writeBuf id i b) s = .next { s with ovr := true } ∧
      hostAccess (.readBuf id i) s
        = .next { s with hostData := (Config.freeByte s.draws).toWord, draws := s.draws + 1 }) ∧
    hostAccess (.readReg 1) s = .next { s with hostData := s.statusWord }

/-- What the host can do to a block without issuing a command (rules R27, R80, R87): a read changes no state of the block,
and while `BUSY = 1` no access changes anything but `OVR`. The value returned and the count of draws are the model's own
(log entries 4 and 19). -/
def Obligations.HostCannotDisturb : Prop :=
  ∀ (s t : State) (a : HostAccess), s.nextEvent = .host a → step s = .next t →
    ((∃ n, a = .readReg n) ∨ (∃ id i, a = .readBuf id i) →
      t = { s with inputs := s.inputs.tail, hostData := t.hostData, draws := t.draws }) ∧
    (s.busy = true →
      t = { s with inputs := s.inputs.tail, ovr := t.ovr, hostData := t.hostData, draws := t.draws })

/-- The fields of `STATUS` (rule R25) and their codes (rules R25, R40, R310). -/
def Obligations.StatusFields : Prop :=
  (∀ s : State,
    s.statusWord.getLsbD 0 = s.busy ∧ s.statusWord.getLsbD 1 = s.done ∧
    s.statusWord.extractLsb' 2 3 = s.result.code ∧ s.statusWord.extractLsb' 5 2 = s.cause.code ∧
    s.statusWord.getLsbD 7 = s.exc ∧ s.statusWord.getLsbD 8 = s.dfValid ∧
    s.statusWord.getLsbD 9 = s.textValid ∧ s.statusWord.getLsbD 10 = s.utf8Err ∧
    s.statusWord.getLsbD 11 = s.ovr ∧ s.statusWord.extractLsb' 12 4 = 0 ∧
    s.statusWord.extractLsb' 16 9 = s.attempts ∧ s.statusWord.extractLsb' 25 3 = s.teState.code ∧
    s.statusWord.extractLsb' 28 4 = 0) ∧
  [Kind.ok, .framingError, .checksumError, .timeoutError, .addressMismatch, .unsupportedFunction, .processingError,
    .illegalCommand].map Kind.code = [0, 1, 2, 3, 4, 5, 6, 7] ∧
  [Cause.none, .noData, .framing, .checksum].map Cause.code = [0, 1, 2, 3] ∧
  [TeState.idle, .build, .send, .wait, .check].map TeState.code = [0, 1, 2, 3, 4]

/-- What the host reads from each register of an idle block (rules R23, R24, R28 to R37): `CMD` reads as zero, the fields
of a frame header stand at their places, `DF_HDR` without a decoded frame is a draw (rule R33). -/
def Obligations.RegisterReads : Prop :=
  ∀ s : State, s.busy = false →
    hostAccess (.readReg 0) s = .next { s with hostData := 0 } ∧
    hostAccess (.readReg 1) s = .next { s with hostData := s.statusWord } ∧
    hostAccess (.readReg 2) s = .next { s with hostData := if s.mode = .rtu then 1 else 0 } ∧
    hostAccess (.readReg 3) s = .next { s with hostData := s.timeout } ∧
    hostAccess (.readReg 4) s = .next { s with hostData := s.retries.setWidth 32 } ∧
    (s.params.hasRd = true → hostAccess (.readReg 5) s = .next { s with hostData := s.ownAddr.setWidth 32 }) ∧
    hostAccess (.readReg 6) s = .next
      { s with
        hostData := s.efAddr.setWidth 32 ||| (s.efFc.setWidth 32 <<< 8) ||| (s.efLen.setWidth 32 <<< 16) } ∧
    (s.dfValid = true → hostAccess (.readReg 7) s = .next
      { s with
        hostData := s.dfAddr.setWidth 32 ||| (s.dfFc.setWidth 32 <<< 8) ||| (s.dfLen.setWidth 32 <<< 16) }) ∧
    (s.dfValid = false → hostAccess (.readReg 7) s
      = .next { s with hostData := Config.freeWord s.draws, draws := s.draws + 1 }) ∧
    hostAccess (.readReg 8) s = .next { s with hostData := s.chk.setWidth 32 } ∧
    hostAccess (.readReg 9) s = .next { s with hostData := s.txLen.setWidth 32 } ∧
    hostAccess (.readReg 10) s = .next { s with hostData := s.rxLen.setWidth 32 } ∧
    (s.params.hasRd = true → hostAccess (.readReg 11) s = .next { s with hostData := s.textLen.setWidth 32 })

/-- Writes to the registers of an idle block: what each field takes, a write with an illegal value dropped whole (rules
R22, R31, R32, R36), a write to an `RO` register ignored. A new length keeps the bytes below it that have a value, gives
the others below it one, and leaves none at or beyond it (rule R39; the model's choices, log entries 5 and 16). -/
def Obligations.RegisterWrites : Prop :=
  ∀ (s : State) (v : Word), s.busy = false →
    hostAccess (.writeReg 2 v) s = .next { s with mode := if v.getLsbD 0 = true then .rtu else .ascii } ∧
    hostAccess (.writeReg 3 v) s = .next { s with timeout := v } ∧
    hostAccess (.writeReg 4 v) s = .next { s with retries := v.setWidth 8 } ∧
    (s.params.hasRd = true → hostAccess (.writeReg 5 v) s = .next
      (if 1 ≤ v.toNat % 256 ∧ v.toNat % 256 ≤ 247 then { s with ownAddr := v.setWidth 8 } else s)) ∧
    (s.params.payloadMax < (v.extractLsb' 16 16).toNat → hostAccess (.writeReg 6 v) s = .next s) ∧
    ((v.extractLsb' 16 16).toNat ≤ s.params.payloadMax → ∃ t, hostAccess (.writeReg 6 v) s = .next t ∧
      t = { s with
        efAddr := v.extractLsb' 0 8, efFc := v.extractLsb' 8 8, efLen := v.extractLsb' 16 16,
        efPayload := t.efPayload, draws := t.draws } ∧
      (∀ i b, i < t.efLen.toNat → s.byteAt 0 i = some b → t.byteAt 0 i = some b) ∧
      (∀ i, (t.byteAt 0 i).isSome = true ↔ i < t.efLen.toNat)) ∧
    (s.params.rxMax < v.toNat % 65536 → hostAccess (.writeReg 10 v) s = .next s) ∧
    (v.toNat % 65536 ≤ s.params.rxMax → ∃ t, hostAccess (.writeReg 10 v) s = .next t ∧
      t = { s with rxLen := v.setWidth 16, rxBuf := t.rxBuf, draws := t.draws } ∧
      (∀ i b, i < t.rxLen.toNat → s.byteAt 2 i = some b → t.byteAt 2 i = some b) ∧
      (∀ i, (t.byteAt 2 i).isSome = true ↔ i < t.rxLen.toNat)) ∧
    (∀ n, n = 7 ∨ n = 8 ∨ n = 9 ∨ n = 11 → hostAccess (.writeReg n v) s = .next s)

/-- Register accesses that do not depend on `BUSY`: a write to `STATUS` changes nothing but `OVR` and never sets it (rule
R25); a register that does not exist reads as zero and ignores a write (rule R23). That this holds while `BUSY = 1` too,
against rule R27's wording, is the model's reading (log entry 13). -/
def Obligations.StatusWritesAndAbsentRegisters : Prop :=
  ∀ s : State,
    (∀ v : Word, hostAccess (.writeReg 1 v) s
      = .next { s with ovr := if v.getLsbD 11 = true then false else s.ovr }) ∧
    (∀ n (v : Word), 12 ≤ n ∨ (s.params.hasRd = false ∧ (n = 5 ∨ n = 11)) →
      hostAccess (.readReg n) s = .next { s with hostData := 0 } ∧ hostAccess (.writeReg n v) s = .next s)

/-- The buffers of an idle block (rules R38, R39): the host writes one byte of `EF_PAYLOAD` or `RXBUF` and nothing else;
a write to the other three, to a buffer that does not exist or beyond a capacity is ignored; the host reads back the
bytes below the length, and draws at and beyond it. That a byte written at or beyond the length is held is the model's
choice (log entry 5). -/
def Obligations.BufferAccess : Prop :=
  ∀ s : State, s.busy = false →
    (∀ i b, i < s.params.payloadMax → ∃ t, hostAccess (.writeBuf 0 i b) s = .next t ∧
      t = { s with efPayload := t.efPayload } ∧ t.byteAt 0 i = some b ∧
      ∀ j, j ≠ i → t.byteAt 0 j = s.byteAt 0 j) ∧
    (∀ i b, i < s.params.rxMax → ∃ t, hostAccess (.writeBuf 2 i b) s = .next t ∧
      t = { s with rxBuf := t.rxBuf } ∧ t.byteAt 2 i = some b ∧
      ∀ j, j ≠ i → t.byteAt 2 j = s.byteAt 2 j) ∧
    (∀ id i b, id = 1 ∨ 3 ≤ id ∨ s.capacity id ≤ i → hostAccess (.writeBuf id i b) s = .next s) ∧
    (∀ id i b, i < s.validLength id → s.byteAt id i = some b →
      hostAccess (.readBuf id i) s = .next { s with hostData := b.setWidth 32 }) ∧
    (∀ id i, s.validLength id ≤ i → hostAccess (.readBuf id i) s
      = .next { s with hostData := (Config.freeByte s.draws).setWidth 32, draws := s.draws + 1 })

/-! ### Checksum Engine -/

/-- Rule R141: the two forms of `lrc`, and that the order of the bytes does not matter to the hardware form. -/
def Obligations.LrcFunction : Prop :=
  ∀ (a f : Byte) (p : List Byte),
    (lrc a f p).toNat = (256 - (a.toNat + f.toNat + (p.map BitVec.toNat).sum) % 256) % 256 ∧
    (∀ s : List Byte, s.Perm (a :: f :: p) → lrc a f p = ~~~(s.foldl (fun acc b => acc + b) 0) + 1)

/-- The consequences of rule R143: the sum with the LRC is zero; zero bytes and the order of the payload do not matter;
changing exactly one byte always changes the LRC. -/
def Obligations.LrcLaws : Prop :=
  ∀ (a f : Byte) (p q : List Byte),
    (a.toNat + f.toNat + (p.map BitVec.toNat).sum + (lrc a f p).toNat) % 256 = 0 ∧
    lrc a f (p ++ 0x00 :: q) = lrc a f (p ++ q) ∧
    (p.Perm q → lrc a f p = lrc a f q) ∧
    (∀ b c : Byte, b ≠ c →
      lrc b f p ≠ lrc c f p ∧ lrc a b p ≠ lrc a c p ∧ lrc a f (p ++ b :: q) ≠ lrc a f (p ++ c :: q))

/-- Rule R146, the loop with numbers, and the check value of rule R149. -/
def Obligations.Crc16Function : Prop :=
  crc16 [] = 0xFFFF ∧
  (∀ (s : List Byte) (b : Byte), crc16 (s ++ [b]) = Nat.iterate crcShift 8 (crc16 s ^^^ b.setWidth 16)) ∧
  (∀ c : Half, (c.toNat % 2 = 1 → crcShift c = BitVec.ofNat 16 (c.toNat / 2) ^^^ 0xA001) ∧
    (c.toNat % 2 = 0 → crcShift c = BitVec.ofNat 16 (c.toNat / 2))) ∧
  crc16 [0x31, 0x32, 0x33, 0x34, 0x35, 0x36, 0x37, 0x38, 0x39] = 0x4B37

/-- Rules R142 and R148: the two checksum commands cannot fail, write `CHK`, and change nothing else; `LRC_ACC` and
`CRC_REG` are the working registers of rule R45 (log entry 12). -/
def Obligations.ChecksumCommands : Prop :=
  ∀ s : State,
    exec .lrc s = .next
      { s with
        chk := (lrc s.efAddr s.efFc s.efBytes).setWidth 16,
        lrcAcc := (s.efAddr :: s.efFc :: s.efBytes).foldl (fun acc b => acc + b) 0,
        busy := false, done := true, result := .ok, teState := .idle } ∧
    exec .crc16 s = .next
      { s with
        chk := crc16 (s.efAddr :: s.efFc :: s.efBytes),
        crcReg := crc16 (s.efAddr :: s.efFc :: s.efBytes),
        busy := false, done := true, result := .ok, teState := .idle }

/-- Rule R147 (b), (c): a sequence with its CRC appended low byte first has CRC zero, after its low CRC byte alone the
register is the high byte, and zero bytes keep zero. -/
def Obligations.CrcResidue : Prop :=
  ∀ (s : List Byte) (n : Nat),
    crc16 (s ++ [(crc16 s).extractLsb' 0 8]) = ((crc16 s).extractLsb' 8 8).setWidth 16 ∧
    crc16 (s ++ [(crc16 s).extractLsb' 0 8, (crc16 s).extractLsb' 8 8] ++ List.replicate n 0x00) = 0

/-- Rule R147 (d): a change of one byte, one bit or more, always changes the CRC, and so does every burst of at most 16
bits, wherever in three consecutive bytes it starts. -/
def Obligations.CrcDetectsBursts : Prop :=
  (∀ (s t : List Byte) (b c : Byte), b ≠ c → crc16 (s ++ b :: t) ≠ crc16 (s ++ c :: t)) ∧
  (∀ (s t : List Byte) (x y z x' y' z' : Byte) (burst : Half) (k : Nat), burst ≠ 0 → k ≤ 8 →
    (z ^^^ z') ++ (y ^^^ y') ++ (x ^^^ x') = burst.setWidth 24 <<< k →
    crc16 (s ++ x :: y :: z :: t) ≠ crc16 (s ++ x' :: y' :: z' :: t))

/-! ### Frame encoder -/

/-- Rules R102 and R103: the characters of a byte, which characters are hex digits, their values, and that reading the
two characters of a byte gives the byte. -/
def Obligations.HexDigits : Prop :=
  (∀ (upper : Bool) (b : Byte), hex2 upper b = [hexDigit upper (b >>> 4), hexDigit upper (b &&& 0x0F)]) ∧
  (∀ (upper : Bool) (v : Byte), v.toNat ≤ 15 → (hexDigit upper v).toNat =
    if v.toNat ≤ 9 then 0x30 + v.toNat else (if upper = true then 0x41 else 0x61) + (v.toNat - 10)) ∧
  (∀ ch : Byte, (isHex ch = true ↔ (0x30 ≤ ch.toNat ∧ ch.toNat ≤ 0x39) ∨ (0x41 ≤ ch.toNat ∧ ch.toNat ≤ 0x46) ∨
      (0x61 ≤ ch.toNat ∧ ch.toNat ≤ 0x66)) ∧
    (0x30 ≤ ch.toNat → ch.toNat ≤ 0x39 → (unhex1 ch).toNat = ch.toNat - 0x30) ∧
    (0x41 ≤ ch.toNat → ch.toNat ≤ 0x46 → (unhex1 ch).toNat = ch.toNat - 0x41 + 10) ∧
    (0x61 ≤ ch.toNat → ch.toNat ≤ 0x66 → (unhex1 ch).toNat = ch.toNat - 0x61 + 10)) ∧
  (∀ c1 c2 : Byte, unhexPairs [c1, c2] = [unhex1 c1 * 16 + unhex1 c2]) ∧
  (∀ (upper : Bool) (b : Byte), unhexPairs (hex2 upper b) = [b])

/-- Rule R100, byte index by byte index, and the length of rule R162. -/
def Obligations.AsciiFrameLayout : Prop :=
  ∀ (upper : Bool) (a f : Byte) (p : List Byte),
    (encAscii upper a f p).length = 9 + 2 * p.length ∧
    (encAscii upper a f p)[0]? = some 0x3A ∧
    ((encAscii upper a f p).drop 1).take 2 = hex2 upper a ∧
    ((encAscii upper a f p).drop 3).take 2 = hex2 upper f ∧
    (∀ j b, p[j]? = some b → ((encAscii upper a f p).drop (5 + 2 * j)).take 2 = hex2 upper b) ∧
    ((encAscii upper a f p).drop (5 + 2 * p.length)).take 2 = hex2 upper (lrc a f p) ∧
    (encAscii upper a f p)[7 + 2 * p.length]? = some 0x0D ∧
    (encAscii upper a f p)[8 + 2 * p.length]? = some 0x0A

/-- Rule R162: between the colon and the terminator an encoded frame has hex digits of the chosen case only, so the colon
occurs only at index 0 and the terminator only at the end; a frame with a payload within `PAYLOAD_MAX` fits `TXBUF`. -/
def Obligations.AsciiFrameAlphabet : Prop :=
  ∀ (upper : Bool) (a f : Byte) (p : List Byte),
    (∀ (i : Nat) (ch : Byte), (encAscii upper a f p)[i]? = some ch →
      (ch = 0x3A ↔ i = 0) ∧ (ch = 0x0D ↔ i = 7 + 2 * p.length) ∧ (ch = 0x0A ↔ i = 8 + 2 * p.length) ∧
      (0 < i → i < 7 + 2 * p.length →
        (0x30 ≤ ch.toNat ∧ ch.toNat ≤ 0x39) ∨
        (if upper = true then 0x41 ≤ ch.toNat ∧ ch.toNat ≤ 0x46 else 0x61 ≤ ch.toNat ∧ ch.toNat ≤ 0x66))) ∧
    (∀ params : Params, p.length ≤ params.payloadMax → (encAscii upper a f p).length ≤ params.txMax)

/-- Rules R106 and R166: the bytes of an RTU frame, the CRC low byte first, and the length of rule R167. -/
def Obligations.RtuFrameLayout : Prop :=
  ∀ (a f : Byte) (p : List Byte),
    (encRtu a f p).length = 4 + p.length ∧
    (encRtu a f p)[0]? = some a ∧ (encRtu a f p)[1]? = some f ∧
    (∀ j < p.length, (encRtu a f p)[2 + j]? = p[j]?) ∧
    (encRtu a f p)[2 + p.length]? = some ((crc16 ([a, f] ++ p)).extractLsb' 0 8) ∧
    (encRtu a f p)[3 + p.length]? = some ((crc16 ([a, f] ++ p)).extractLsb' 8 8)

/-- Rules R164 and R168: the frame in EF goes encoded to `TXBUF`, its length to `TX_LEN`, its checksum to `CHK`, and every
other piece of state but the working register of the checksum (rule R45) is unchanged. That `TXBUF` then holds no byte at
or beyond `TX_LEN` is the model's reading of rule R39 (log entry 16). -/
def Obligations.EncodeCommands : Prop :=
  ∀ s : State, s.params.wf → s.efLen.toNat ≤ s.params.payloadMax →
    (∃ t, exec .encAscii s = .next t ∧
      t = { s with
        txBuf := t.txBuf, txLen := t.txLen, chk := (lrc s.efAddr s.efFc s.efBytes).setWidth 16,
        lrcAcc := t.lrcAcc,
        busy := false, done := true, result := .ok, teState := .idle } ∧
      t.txLen.toNat = 9 + 2 * s.efLen.toNat ∧
      t.txBytes = encAscii s.params.hexUpper s.efAddr s.efFc s.efBytes ∧
      (∀ i, t.byteAt 1 i = (encAscii s.params.hexUpper s.efAddr s.efFc s.efBytes)[i]?)) ∧
    (∃ t, exec .encRtu s = .next t ∧
      t = { s with
        txBuf := t.txBuf, txLen := t.txLen, chk := crc16 (s.efAddr :: s.efFc :: s.efBytes),
        crcReg := t.crcReg,
        busy := false, done := true, result := .ok, teState := .idle } ∧
      t.txLen.toNat = 4 + s.efLen.toNat ∧
      t.txBytes = encRtu s.efAddr s.efFc s.efBytes ∧
      (∀ i, t.byteAt 1 i = (encRtu s.efAddr s.efFc s.efBytes)[i]?))

/-- Rule R171: the round trip, for every frame value, both encodings and both hex cases. -/
def Obligations.CodecRoundTrip : Prop :=
  ∀ (m : Encoding) (upper : Bool) (a f : Byte) (p : List Byte),
    decodeFrame m (encodeFrame m upper a f p) = .frame ⟨a, f, p, checksum m a f p⟩

/-! ### Frame decoder -/

/-- The ASCII decoder accepts exactly the encoder's frames with the case of the letter digits left free (rules R186, R187):
no other sequence, and no frame with another value. -/
def Obligations.AsciiDecoderExact : Prop :=
  ∀ (s : List Byte) (q : Parsed), decodeFrame .ascii s = .frame q ↔
    s.map (fun ch => if 0x61 ≤ ch.toNat ∧ ch.toNat ≤ 0x66 then ch - 0x20 else ch) = encAscii true q.addr q.fc q.payload ∧
    q.check = (lrc q.addr q.fc q.payload).setWidth 16

/-- Rule R186: the framing checks on the whole sequence, each with the condition of its step, in their order; then the
fields, and the LRC comparison last (rule R182). -/
def Obligations.AsciiDecoderSteps : Prop :=
  ∀ s : List Byte,
    let n := s.length
    let body := (s.drop 1).take (n - 3)
    let step1 := n < 1 ∨ s[0]? ≠ some 0x3A
    let step2 := n < 3 ∨ s[n - 2]? ≠ some 0x0D ∨ s[n - 1]? ≠ some 0x0A
    let step3 := ∃ ch ∈ body, isHex ch = false
    let step4 := body.length % 2 = 1
    let step5 := body.length < 6
    (step1 → decodeFrame .ascii s = .framingError .noColon) ∧
    (¬step1 → step2 → decodeFrame .ascii s = .framingError .noTerminator) ∧
    (¬step1 → ¬step2 → step3 → decodeFrame .ascii s = .framingError .notHex) ∧
    (¬step1 → ¬step2 → ¬step3 → step4 → decodeFrame .ascii s = .framingError .oddDigits) ∧
    (¬step1 → ¬step2 → ¬step3 → ¬step4 → step5 → decodeFrame .ascii s = .framingError .tooShort) ∧
    (¬step1 → ¬step2 → ¬step3 → ¬step4 → ¬step5 →
      ∃ (a f l : Byte) (p : List Byte), a :: f :: (p ++ [l]) =
          (List.range (body.length / 2)).map (fun j => unhex1 (body.getD (2 * j) 0) * 16 + unhex1 (body.getD (2 * j + 1) 0)) ∧
        decodeFrame .ascii s = if lrc a f p = l then .frame ⟨a, f, p, l.setWidth 16⟩ else .checksumError)

/-- Rule R190: the three results of the RTU decoder, and (rules R166, R190) that it accepts exactly the encoder's
frames. -/
def Obligations.RtuDecoderExact : Prop :=
  ∀ s : List Byte,
    (s.length < 4 → decodeFrame .rtu s = .framingError .rtuTooShort) ∧
    (∀ (a f lo hi : Byte) (p : List Byte), s = a :: f :: (p ++ [lo, hi]) →
      decodeFrame .rtu s =
        if crc16 (a :: f :: p) = lo.setWidth 16 ||| (hi.setWidth 16 <<< 8)
        then .frame ⟨a, f, p, lo.setWidth 16 ||| (hi.setWidth 16 <<< 8)⟩ else .checksumError) ∧
    (∀ q, decodeFrame .rtu s = .frame q ↔
      s = encRtu q.addr q.fc q.payload ∧ q.check = crc16 (q.addr :: q.fc :: q.payload))

/-- `DEC_ASCII` and `DEC_RTU` (rules R188, R192) with the write-back of rule R196: a frame goes to DF and `CHK`; after
either error DF is unspecified and `CHK` is kept. Everything else, `RXBUF` and `RX_LEN` among it, is unchanged. That
`DF_PAYLOAD` holds no byte at or beyond `DF.LEN`, and that `DF_VALID` and `EXC` are written 0 after an error, are the model's
readings (log entries 16 and 15). -/
def Obligations.DecodeCommands : Prop :=
  ∀ (s : State) (i : Instr) (m : Encoding), (i = .decAscii ∧ m = .ascii) ∨ (i = .decRtu ∧ m = .rtu) →
    (∀ q, decodeFrame m s.rxBytes = .frame q → ∃ t, exec i s = .next t ∧
      t = { s with
        dfAddr := q.addr, dfFc := q.fc, dfLen := t.dfLen, dfPayload := t.dfPayload, chk := q.check,
        dfValid := true, exc := q.fc.getLsbD 7, lrcAcc := t.lrcAcc, crcReg := t.crcReg,
        busy := false, done := true, result := .ok, teState := .idle } ∧
      t.dfLen.toNat = q.payload.length ∧ t.dfBytes = q.payload ∧ (∀ j, t.byteAt 3 j = q.payload[j]?)) ∧
    (∀ k, (∃ c, decodeFrame m s.rxBytes = .framingError c) ∧ k = Kind.framingError ∨
        decodeFrame m s.rxBytes = .checksumError ∧ k = Kind.checksumError →
      ∃ t, exec i s = .next t ∧
        t = { s with
          dfAddr := t.dfAddr, dfFc := t.dfFc, dfLen := t.dfLen, dfPayload := t.dfPayload, dfValid := false,
          exc := false, lrcAcc := t.lrcAcc, crcReg := t.crcReg, draws := t.draws,
          busy := false, done := true, result := k, teState := .idle })

/-- Rule R198 (a): flipping any one bit of any byte of an encoded RTU frame gives `ChecksumError`; more, changing any one
byte does. -/
def Obligations.RtuFrameFlip : Prop :=
  ∀ (a f : Byte) (p : List Byte) (i : Nat) (b c : Byte), (encRtu a f p)[i]? = some b → c ≠ b →
    decodeFrame .rtu ((encRtu a f p).set i c) = .checksumError

/-- Rule R198 (b), (c). A change of one logical byte (payload, address or function code) under the original LRC characters
gives `ChecksumError`. One character between the colon and the terminator replaced by another: not a hex digit,
`FramingError`; a hex digit of another value, `ChecksumError`; the same digit in the other case, the same frame. -/
def Obligations.AsciiFrameFlip : Prop :=
  ∀ (upper : Bool) (a f : Byte) (p : List Byte) (i : Nat),
    (∀ b c : Byte, (a :: f :: p)[i]? = some b → c ≠ b →
      decodeFrame .ascii (0x3A :: (hexAll upper ((a :: f :: p).set i c) ++ hex2 upper (lrc a f p) ++ [0x0D, 0x0A]))
        = .checksumError) ∧
    (∀ ch ch' : Byte, 0 < i → i < 7 + 2 * p.length → (encAscii upper a f p)[i]? = some ch →
      (isHex ch' = false → decodeFrame .ascii ((encAscii upper a f p).set i ch') = .framingError .notHex) ∧
      (isHex ch' = true → unhex1 ch' ≠ unhex1 ch →
        decodeFrame .ascii ((encAscii upper a f p).set i ch') = .checksumError) ∧
      (isHex ch' = true → unhex1 ch' = unhex1 ch →
        decodeFrame .ascii ((encAscii upper a f p).set i ch') = .frame ⟨a, f, p, (lrc a f p).setWidth 16⟩))

/-! ### Transaction Engine -/

/-- Rule R218: `BUILD` to `SEND`, for each link command. -/
def Obligations.BuildStep : Prop :=
  ∀ (s : State) (i : Instr), i = .execute ∨ i = .writeText ∨ i = .readText → s.teState = .build →
    s.params.wf → s.efLen.toNat ≤ s.params.payloadMax →
    ∃ t, exec i s = .next t ∧
      t = { s with
        txBuf := t.txBuf, txLen := t.txLen, chk := checksum s.mode s.efAddr s.efFc s.efBytes,
        attempts := s.attempts + 1, txPtr := 0, teState := .send, lrcAcc := t.lrcAcc, crcReg := t.crcReg } ∧
      t.txLen.toNat = (encodeFrame s.mode s.params.hexUpper s.efAddr s.efFc s.efBytes).length ∧
      t.txBytes = encodeFrame s.mode s.params.hexUpper s.efAddr s.efFc s.efBytes

/-- Rule R220: `SEND`. The byte offered is `TXBUF[TX_PTR]`; taken, it joins the transmit stream; not taken, the core stays
as it is; after the last byte the receive window opens. No byte is received meanwhile. -/
def Obligations.SendStep : Prop :=
  ∀ (s : State) (i : Instr), i = .execute ∨ i = .writeText ∨ i = .readText → s.teState = .send →
    s.rxReady = false ∧
    (s.txPtr.toNat < s.txLen.toNat →
      s.txValid = true ∧ (∀ b, s.byteAt 1 s.txPtr.toNat = some b → s.txData = b) ∧
      (s.txReady = true →
        exec i s = .next { s with txPtr := s.txPtr + 1, txStream := s.txStream ++ [s.txData] }) ∧
      (s.txReady = false → exec i s = .next s)) ∧
    (s.txPtr = s.txLen → s.txValid = false ∧ ∃ t, exec i s = .next t ∧
      t = { s with rxLen := 0, rxBuf := t.rxBuf, timer := 0, teState := .wait })

/-- Rules R42 and R222: `WAIT`. While the window is open a byte that is offered goes to `RXBUF[RX_LEN]` and a tick is
counted, both in one cycle where both happen, neither where neither does; closed, the core goes on to `CHECK` and takes
nothing. That the cycle that leaves a window closed by its last byte still counts a tick (rule R42) is the model's reading
(log entry 24). -/
def Obligations.WaitStep : Prop :=
  ∀ (s : State) (i : Instr), i = .execute ∨ i = .writeText ∨ i = .readText → s.teState = .wait →
    (s.rxLen.toNat < s.params.rxMax ∧ s.timer.toNat < s.timeout.toNat →
      s.rxReady = true ∧
      (∀ b, s.rxOffer = some b → ∃ t, exec i s = .next t ∧
        t = { s with
          rxBuf := t.rxBuf, rxLen := s.rxLen + 1, rxStream := s.rxStream.tail,
          timer := if s.tick = true then s.timer + 1 else s.timer } ∧
        t.byteAt 2 s.rxLen.toNat = some b ∧ (∀ j, j ≠ s.rxLen.toNat → t.byteAt 2 j = s.byteAt 2 j)) ∧
      (s.rxOffer = none →
        exec i s = .next { s with timer := if s.tick = true then s.timer + 1 else s.timer })) ∧
    (s.params.rxMax ≤ s.rxLen.toNat ∨ s.timeout.toNat ≤ s.timer.toNat →
      s.rxReady = false ∧ exec i s = .next
        { s with
          teState := .check,
          timer := if s.tick = true ∧ s.timer.toNat < s.timeout.toNat then s.timer + 1 else s.timer })

/-- Rules R226 and R228: a failed attempt. Why it failed goes to `CAUSE`; with retries left the next attempt is built, with
none left the command completes with `TIMEOUT_ERROR`. DF is unspecified after a failed decode (rule R196). -/
def Obligations.FailedAttempt : Prop :=
  ∀ (s : State) (i : Instr) (c : Cause), s.Inv → s.busy = true → decodeCmd s.params.hasRd s.curOp.toWord = .ok i →
    s.teState = .check → failedBy s.mode s.rxBytes = some c →
    (s.retryCnt = s.retries → ∃ t, exec i s = .next t ∧
      t = { s with
        cause := c, busy := false, done := true, result := .timeoutError, teState := .idle,
        dfAddr := t.dfAddr, dfFc := t.dfFc, dfLen := t.dfLen, dfPayload := t.dfPayload,
        lrcAcc := t.lrcAcc, crcReg := t.crcReg, draws := t.draws } ∧
      t.dfValid = false ∧ t.attempts.toNat = s.retries.toNat + 1) ∧
    (s.retryCnt ≠ s.retries → ∃ t, exec i s = .next t ∧
      t = { s with
        cause := c, retryCnt := s.retryCnt + 1, teState := .build,
        dfAddr := t.dfAddr, dfFc := t.dfFc, dfLen := t.dfLen, dfPayload := t.dfPayload,
        lrcAcc := t.lrcAcc, crcReg := t.crcReg, draws := t.draws } ∧
      t.retryCnt.toNat = s.retryCnt.toNat + 1 ∧ t.retryCnt.toNat ≤ s.retries.toNat)

/-- Rules R226, R230 and R236: a successful attempt. The frame goes to DF and `CHK`, `CAUSE` is kept, the command completes
with `OK` whatever retries are left; for `READ_TEXT` the text flags tell whether the payload is well-formed. -/
def Obligations.SuccessfulAttempt : Prop :=
  ∀ (s : State) (i : Instr) (q : Parsed), i = .execute ∨ i = .writeText ∨ i = .readText → s.teState = .check →
    s.rxLen ≠ 0 → decodeFrame s.mode s.rxBytes = .frame q →
    ∃ t, exec i s = .next t ∧
      t = { s with
        dfAddr := q.addr, dfFc := q.fc, dfLen := t.dfLen, dfPayload := t.dfPayload, chk := q.check,
        dfValid := true, exc := q.fc.getLsbD 7, lrcAcc := t.lrcAcc, crcReg := t.crcReg,
        textValid := if i = .readText then utf8Ok s.params q.payload else s.textValid,
        utf8Err := if i = .readText then !utf8Ok s.params q.payload else s.utf8Err,
        busy := false, done := true, result := .ok, teState := .idle } ∧
      t.dfLen.toNat = q.payload.length ∧ t.dfBytes = q.payload

/-- The table of rule R248: every change of `TE_STATE` of a block whose state a run can reach, by the event that makes it. -/
def Obligations.SequencerTransitions : Prop :=
  ∀ s t : State, s.Inv → step s = .next t → t.teState ≠ s.teState →
    s.nextEvent = .reset ∧ t.teState = .idle ∨
    (∃ w, s.nextEvent = .host (.writeReg 0 w) ∧ (w = 0x05 ∨ w = 0x06 ∨ w = 0x07)) ∧ s.busy = false ∧
      s.teState = .idle ∧ t.teState = .build ∨
    (∃ tick txReady rxValid, s.nextEvent = .cycle tick txReady rxValid) ∧ s.busy = true ∧
      (s.teState = .build ∧ t.teState = .send ∨
        s.teState = .send ∧ s.txPtr = s.txLen ∧ t.teState = .wait ∨
        s.teState = .wait ∧ (s.rxLen.toNat = s.params.rxMax ∨ s.timer = s.timeout) ∧ t.teState = .check ∨
        s.teState = .check ∧ failedBy s.mode s.rxBytes = none ∧ t.teState = .idle ∧ t.result = .ok ∨
        s.teState = .check ∧ failedBy s.mode s.rxBytes ≠ none ∧ s.retryCnt = s.retries ∧ t.teState = .idle ∧
          t.result = .timeoutError ∨
        s.teState = .check ∧ failedBy s.mode s.rxBytes ≠ none ∧ s.retryCnt.toNat < s.retries.toNat ∧
          t.teState = .build)

/-- The link is touched by link commands only (rule R71): the transmit stream grows by the byte offered in `SEND`, the
receive stream loses the byte taken in `WAIT` or gains one that arrives, and no other step changes either. That a cycle in
reset moves no byte, and that the transport drops none it holds, are the model's choices (log entries 23 and 9). -/
def Obligations.OnlyLinkCommandsTouchTheLink : Prop :=
  ∀ s t : State, s.Inv → step s = .next t →
    (t.txStream ≠ s.txStream →
      s.busy = true ∧ s.teState = .send ∧ s.txPtr.toNat < s.txLen.toNat ∧
      (∃ tick rxValid, s.nextEvent = .cycle tick true rxValid) ∧ t.txStream = s.txStream ++ [s.txData]) ∧
    (t.rxStream ≠ s.rxStream →
      (∃ b, s.nextEvent = .arrive b ∧ t.rxStream = s.rxStream ++ [b]) ∨
      (s.busy = true ∧ s.teState = .wait ∧ s.rxLen.toNat < s.params.rxMax ∧ s.timer.toNat < s.timeout.toNat ∧
        (∃ tick txReady, s.nextEvent = .cycle tick txReady true) ∧ t.rxStream = s.rxStream.tail))

/-- Every attempt sends the same bytes, whatever the outside world does and in whatever order (rules R87, R212, R220): from
acceptance to completion the transmit stream is what it was, then whole copies of the request, then the part of the copy
in progress already taken; at completion there is a whole copy for every attempt counted. -/
def Obligations.EveryAttemptSendsTheRequest : Prop :=
  (∀ (s t : State) (i : Instr), i = .execute ∨ i = .writeText ∨ i = .readText → s.Inv → s.busy = false →
    hostAccess (.writeReg 0 (encode i)) s = .next t → t.Sent s.txStream ∧ t.request = (s.prepared i).request) ∧
  (∀ (s t : State) (base : List Byte), s.Inv → s.busy = true → s.teState ≠ .idle → s.Sent base →
    s.nextEvent ≠ .reset → step s = .next t → t.Sent base ∧ t.request = s.request)

/-- Rule R214, the first part, for each link command and an outside world that answers attempt after attempt: when the
first good answer comes within the retry bound, the host's write to `CMD` leads to exactly that many writes of the
request, to `OK`, and to the decoding of that answer in DF; `CAUSE` is that of the last failed attempt (rule R226). The
schedule of cycles is the model's (log entries 6 and 8). -/
def Obligations.TransactionSucceeds : Prop :=
  ∀ (s : State) (i : Instr) (bad : List (List Byte)) (good : List Byte) (q : Parsed) (rest : List Event),
    i = .execute ∨ i = .writeText ∨ i = .readText → s.Inv → s.busy = false → s.rxStream = [] →
    bad.length ≤ s.retries.toNat → s.timeout ≠ 0 → (∀ rx ∈ bad, rx.length ≤ s.params.rxMax) →
    (∀ rx ∈ bad, failedBy s.mode rx ≠ none) → good.length ≤ s.params.rxMax → decodeFrame s.mode good = .frame q →
    s.inputs = .host (.writeReg 0 (encode i)) ::
      ((bad ++ [good]).flatMap (attemptEvents (s.prepared i)) ++ rest) →
    ∃ t, runSteps (1 + ((bad ++ [good]).flatMap (attemptEvents (s.prepared i))).length) s = .next t ∧
      t.inputs = rest ∧ t.busy = false ∧ t.done = true ∧ t.teState = .idle ∧ t.result = .ok ∧
      t.attempts.toNat = bad.length + 1 ∧
      t.txStream = s.txStream ++ (List.replicate (bad.length + 1) (s.prepared i).request).flatten ∧
      t.rxStream = [] ∧
      some t.cause = ((bad.getLast?).elim (some .none) (failedBy s.mode)) ∧
      t.dfValid = true ∧ t.dfAddr = q.addr ∧ t.dfFc = q.fc ∧ t.dfLen.toNat = q.payload.length ∧
      t.dfBytes = q.payload ∧ t.chk = q.check ∧ t.exc = q.fc.getLsbD 7 ∧
      t.textValid = (decide (i = .readText) && utf8Ok s.params q.payload) ∧
      t.utf8Err = (decide (i = .readText) && !utf8Ok s.params q.payload)

/-- Rules R214, the second part, R224 and R240: when every one of the `RETRIES + 1` answers is bad, for any mixture of
causes, the command makes exactly `RETRIES + 1` writes of the request and completes with `TIMEOUT_ERROR`. With
`TIMEOUT = 0` every answer is the empty one. The schedule of cycles is the model's (log entries 6 and 8). -/
def Obligations.TransactionExhausted : Prop :=
  ∀ (s : State) (i : Instr) (bad : List (List Byte)) (rest : List Event),
    i = .execute ∨ i = .writeText ∨ i = .readText → s.Inv → s.busy = false → s.rxStream = [] →
    bad.length = s.retries.toNat + 1 → (∀ rx ∈ bad, rx.length ≤ s.params.rxMax) →
    (∀ rx ∈ bad, failedBy s.mode rx ≠ none) → (s.timeout = 0 → ∀ rx ∈ bad, rx = []) →
    s.inputs = .host (.writeReg 0 (encode i)) :: (bad.flatMap (attemptEvents (s.prepared i)) ++ rest) →
    ∃ t, runSteps (1 + (bad.flatMap (attemptEvents (s.prepared i))).length) s = .next t ∧
      t.inputs = rest ∧ t.busy = false ∧ t.done = true ∧ t.teState = .idle ∧ t.result = .timeoutError ∧
      t.attempts.toNat = s.retries.toNat + 1 ∧
      t.txStream = s.txStream ++ (List.replicate (s.retries.toNat + 1) (s.prepared i).request).flatten ∧
      (∃ rx, bad.getLast? = some rx ∧ some t.cause = failedBy s.mode rx) ∧
      t.dfValid = false ∧ t.textValid = false ∧ t.utf8Err = false

/-! ### Request Dispatcher -/

/-- Rule R262: silence. After a decode error, or a frame for another address, there is no response, EF and the TextStore
are unchanged; the decode error comes before the address test; a misaddressed frame is in DF (rules R260 and R310), and
after a decode error `DF_VALID` and `EXC` are 0 and DF has some value (rule R196; the model's reading, log entry 15). -/
def Obligations.HandleSilence : Prop :=
  ∀ s : State,
    (∀ k, (∃ c, decodeFrame s.mode s.rxBytes = .framingError c) ∧ k = Kind.framingError ∨
        decodeFrame s.mode s.rxBytes = .checksumError ∧ k = Kind.checksumError →
      ∃ t, exec .handle s = .next t ∧
        t = { s with
          txLen := 0, txBuf := t.txBuf, efPayload := t.efPayload,
          dfAddr := t.dfAddr, dfFc := t.dfFc, dfLen := t.dfLen, dfPayload := t.dfPayload, dfValid := false,
          exc := false, lrcAcc := t.lrcAcc, crcReg := t.crcReg, draws := t.draws,
          busy := false, done := true, result := k, teState := .idle } ∧
        (∀ i < s.efLen.toNat, t.byteAt 0 i = s.byteAt 0 i)) ∧
    (∀ q, decodeFrame s.mode s.rxBytes = .frame q → q.addr ≠ s.ownAddr →
      ∃ t, exec .handle s = .next t ∧
        t = { s with
          txLen := 0, txBuf := t.txBuf, efPayload := t.efPayload,
          dfAddr := q.addr, dfFc := q.fc, dfLen := t.dfLen, dfPayload := t.dfPayload, chk := q.check,
          dfValid := true, exc := q.fc.getLsbD 7, lrcAcc := t.lrcAcc, crcReg := t.crcReg,
          busy := false, done := true, result := .addressMismatch, teState := .idle } ∧
        t.dfLen.toNat = q.payload.length ∧ t.dfBytes = q.payload ∧
        (∀ i < s.efLen.toNat, t.byteAt 0 i = s.byteAt 0 i))

/-- `HANDLE` runs the function code of a request for this slave (rule R260 steps 3 and 4): it is the meaning of the
function-code instruction, on the state in which the request is in DF and nothing else that the meaning reads has
changed. A code of rule R110's row "not defined" is answered like the exception response with that code and bit 7 set
(rule R270; log entry 11). -/
def Obligations.HandleRunsTheFunctionCode : Prop :=
  ∀ (s : State) (q : Parsed), decodeFrame s.mode s.rxBytes = .frame q → q.addr = s.ownAddr →
    ∃ u, u = { s with
        txLen := 0, txBuf := u.txBuf, efPayload := u.efPayload,
        dfAddr := q.addr, dfFc := q.fc, dfLen := u.dfLen, dfPayload := u.dfPayload, chk := q.check,
        dfValid := true, exc := q.fc.getLsbD 7, lrcAcc := u.lrcAcc, crcReg := u.crcReg } ∧
      u.dfLen.toNat = q.payload.length ∧ u.dfBytes = q.payload ∧
      (∀ i, decodeFc true q.fc = .ok i → exec .handle s = exec i u) ∧
      (decodeFc true q.fc = .error .functionCodeUndefined →
        exec .handle s = exec (.fcException (q.fc.extractLsb' 0 7)) u)

/-- The three function-code instructions on a request in DF (rules R260 steps 4 to 6, R264, R266, R270): the response
`(DF.ADDR, f, p)` goes to EF and, encoded, to `TXBUF`; the store takes an accepted text; nothing else changes. What
`FC_EXCEPTION` means as an instruction is the model's reading (log entry 11). -/
def Obligations.FunctionCodeInstructions : Prop :=
  ∀ (s : State), s.params.wf → s.textLen.toNat ≤ s.params.payloadMax →
    ∀ (i : Instr) (f : Byte) (p : List Byte) (k : Kind) (newText : Option (List Byte)),
      (i = .fcWriteText ∧ s.dfLen.toNat ≤ s.params.payloadMax ∧ utf8Ok s.params s.dfBytes = true ∧
          f = 0x01 ∧ p = [] ∧ k = .ok ∧ newText = some s.dfBytes ∨
        i = .fcWriteText ∧ ¬(s.dfLen.toNat ≤ s.params.payloadMax ∧ utf8Ok s.params s.dfBytes = true) ∧
          f = 0x81 ∧ p = [0x01] ∧ k = .processingError ∧ newText = none ∨
        i = .fcReadText ∧ f = 0x02 ∧ p = s.textBytes ∧ k = .ok ∧ newText = none ∨
        (∃ low, i = .fcException low ∧ f = 0x80 ||| low.setWidth 8) ∧ p = [0x01] ∧ k = .unsupportedFunction ∧
          newText = none) →
      ∃ t, exec i s = .next t ∧
        t = { s with
          efAddr := s.dfAddr, efFc := f, efLen := t.efLen, efPayload := t.efPayload,
          txBuf := t.txBuf, txLen := t.txLen, chk := checksum s.mode s.dfAddr f p,
          text := t.text, textLen := t.textLen, lrcAcc := t.lrcAcc, crcReg := t.crcReg,
          busy := false, done := true, result := k, teState := .idle } ∧
        t.efLen.toNat = p.length ∧ t.efBytes = p ∧
        t.txLen.toNat = (encodeFrame s.mode s.params.hexUpper s.dfAddr f p).length ∧
        t.txBytes = encodeFrame s.mode s.params.hexUpper s.dfAddr f p ∧
        (∀ q, newText = some q → t.textLen.toNat = q.length ∧ t.textBytes = q) ∧
        (newText = none → t.text = s.text ∧ t.textLen = s.textLen)

/-- Rule R264: a write-text request for this slave. A payload that is well-formed and fits overwrites the store and is
answered by the empty write-text response; any other leaves the store and is answered by the exception response 0x81. A
byte of the store at or beyond the new length has no value. -/
def Obligations.HandleWriteText : Prop :=
  ∀ (s : State) (q : Parsed), decodeFrame s.mode s.rxBytes = .frame q → q.addr = s.ownAddr → q.fc = 0x01 →
    (q.payload.length ≤ s.params.payloadMax ∧ utf8Ok s.params q.payload = true →
      ∃ t, exec .handle s = .next t ∧ t.result = .ok ∧ t.done = true ∧ t.busy = false ∧
        t.textLen.toNat = q.payload.length ∧ t.textBytes = q.payload ∧ (∀ i, t.text.byteAt? i = q.payload[i]?) ∧
        t.txBytes = encodeFrame s.mode s.params.hexUpper s.ownAddr 0x01 []) ∧
    (¬(q.payload.length ≤ s.params.payloadMax ∧ utf8Ok s.params q.payload = true) →
      ∃ t, exec .handle s = .next t ∧ t.result = .processingError ∧ t.done = true ∧ t.busy = false ∧
        t.text = s.text ∧ t.textLen = s.textLen ∧
        t.txBytes = encodeFrame s.mode s.params.hexUpper s.ownAddr 0x81 [0x01])

/-- Rule R266: a read-text request for this slave is answered with the stored text, whatever its own payload; the store is
not changed. -/
def Obligations.HandleReadText : Prop :=
  ∀ (s : State) (q : Parsed), s.params.wf → s.textLen.toNat ≤ s.params.payloadMax →
    decodeFrame s.mode s.rxBytes = .frame q → q.addr = s.ownAddr → q.fc = 0x02 →
    ∃ t, exec .handle s = .next t ∧ t.result = .ok ∧ t.done = true ∧ t.busy = false ∧
      t.text = s.text ∧ t.textLen = s.textLen ∧
      t.txBytes = encodeFrame s.mode s.params.hexUpper s.ownAddr 0x02 s.textBytes

/-- Rule R270: every other function code, and a write-text request that is no text or does not fit, is answered by the
exception response: the request's code with bit 7 set and the one byte 0x01; the store is unchanged, and `RESULT` tells
the two sources apart. -/
def Obligations.HandleException : Prop :=
  ∀ (s : State) (q : Parsed) (k : Kind), decodeFrame s.mode s.rxBytes = .frame q → q.addr = s.ownAddr →
    (q.fc ≠ 0x01 ∧ q.fc ≠ 0x02 ∧ k = .unsupportedFunction ∨
      q.fc = 0x01 ∧ ¬(q.payload.length ≤ s.params.payloadMax ∧ utf8Ok s.params q.payload = true) ∧
        k = .processingError) →
    ∃ t, exec .handle s = .next t ∧ t.result = k ∧ t.done = true ∧ t.busy = false ∧
      t.text = s.text ∧ t.textLen = s.textLen ∧
      t.txBytes = encodeFrame s.mode s.params.hexUpper s.ownAddr (q.fc ||| 0x80) [0x01]

/-- A text written to the slave by a write-text request is what every later read-text request reads back (rules R264, R266,
R272, R274 and the codec, on both sides): the master's frames in either hex case, the response decoded at the master. The
second `HANDLE` starts from any state that still has the text, the address and the encoding that the first one left. -/
def Obligations.TextIsReadBack : Prop :=
  ∀ (s u : State) (upper upper' : Bool) (p p' : List Byte), s.Inv → u.Inv →
    p.length ≤ s.params.payloadMax → utf8Ok s.params p = true →
    s.rxBytes = encodeFrame s.mode upper s.ownAddr 0x01 p →
    ∃ t, exec .handle s = .next t ∧
      decodeFrame s.mode t.txBytes = .frame ⟨s.ownAddr, 0x01, [], checksum s.mode s.ownAddr 0x01 []⟩ ∧
      (u.params = t.params → u.text = t.text → u.textLen = t.textLen → u.ownAddr = t.ownAddr → u.mode = t.mode →
        u.rxBytes = encodeFrame s.mode upper' s.ownAddr 0x02 p' →
        ∃ v, exec .handle u = .next v ∧
          decodeFrame s.mode v.txBytes = .frame ⟨s.ownAddr, 0x02, p, checksum s.mode s.ownAddr 0x02 p⟩)

/-- Rule R274: the TextStore changes only at reset, and in a cycle in which `HANDLE` finds a write-text request for this
slave whose payload is accepted; it then holds that payload. -/
def Obligations.OnlyWriteRequestsChangeTheText : Prop :=
  ∀ s t : State, step s = .next t → t.text ≠ s.text ∨ t.textLen ≠ s.textLen →
    s.nextEvent = .reset ∨
    (s.busy = true ∧ s.curOp = 0x08 ∧ (∃ tick txReady rxValid, s.nextEvent = .cycle tick txReady rxValid) ∧
      ∃ q, decodeFrame s.mode s.rxBytes = .frame q ∧ q.addr = s.ownAddr ∧ q.fc = 0x01 ∧
        q.payload.length ≤ s.params.payloadMax ∧ utf8Ok s.params q.payload = true ∧
        t.text = Memory.ofBytes q.payload ∧ t.textLen.toNat = q.payload.length)

/-- Rule R268: the table's predicate holds of exactly the concatenations of its patterns. -/
def Obligations.Utf8TableExact : Prop :=
  let between (lo hi : Nat) (b : Byte) : Prop := lo ≤ b.toNat ∧ b.toNat ≤ hi
  let cont (b : Byte) : Prop := between 0x80 0xBF b
  let pattern (s : List Byte) : Prop :=
    (∃ a, s = [a] ∧ between 0x00 0x7F a) ∨
    (∃ a b, s = [a, b] ∧ between 0xC2 0xDF a ∧ cont b) ∨
    (∃ a b c, s = [a, b, c] ∧ cont c ∧
      (a = 0xE0 ∧ between 0xA0 0xBF b ∨ between 0xE1 0xEC a ∧ cont b ∨ a = 0xED ∧ between 0x80 0x9F b ∨
        between 0xEE 0xEF a ∧ cont b)) ∨
    (∃ a b c d, s = [a, b, c, d] ∧ cont c ∧ cont d ∧
      (a = 0xF0 ∧ between 0x90 0xBF b ∨ between 0xF1 0xF3 a ∧ cont b ∨ a = 0xF4 ∧ between 0x80 0x8F b))
  ∀ s : List Byte, utf8ByTable s = true ↔ ∃ parts : List (List Byte), s = parts.flatten ∧ ∀ x ∈ parts, pattern x

/-! ### Errors, invariants, reset -/

/-- Which kind each command can complete with (rules R310, R312); `ILLEGAL_COMMAND` is no command's. -/
def Obligations.ResultKindsPerCommand : Prop :=
  ∀ (s t : State) (i : Instr), exec i s = .next t → s.done = false → t.done = true →
    t.busy = false ∧ t.teState = .idle ∧
    (i = .lrc ∨ i = .crc16 ∨ i = .encAscii ∨ i = .encRtu → t.result = .ok) ∧
    (i = .decAscii ∨ i = .decRtu → t.result = .ok ∨ t.result = .framingError ∨ t.result = .checksumError) ∧
    (i = .execute ∨ i = .writeText ∨ i = .readText → t.result = .ok ∨ t.result = .timeoutError) ∧
    (i = .handle → t.result = .ok ∨ t.result = .framingError ∨ t.result = .checksumError ∨
      t.result = .addressMismatch ∨ t.result = .unsupportedFunction ∨ t.result = .processingError)

/-- `OVR` is sticky (rules R25, R320): a step clears it only at reset and at a host write of 1 to bit 11 of `STATUS`, and
sets it only at a host write while `BUSY = 1`. -/
def Obligations.OvrIsSticky : Prop :=
  ∀ s t : State, step s = .next t →
    (s.ovr = true → t.ovr = false →
      s.nextEvent = .reset ∨ ∃ v : Word, s.nextEvent = .host (.writeReg 1 v) ∧ v.getLsbD 11 = true) ∧
    (s.ovr = false → t.ovr = true →
      s.busy = true ∧ ((∃ n v, s.nextEvent = .host (.writeReg n v) ∧ n ≠ 1) ∨
        ∃ id i b, s.nextEvent = .host (.writeBuf id i b)))

/-- Every step keeps the invariant: lengths within capacities, buffers in canonical form with every byte below the length
specified, `OWN_ADDR` a slave address, the store well-formed, counters in step, the sequencer idle whenever `BUSY = 0`. -/
def Obligations.StepKeepsInvariant : Prop := ∀ s t : State, s.Inv → step s = .next t → t.Inv

/-- The invariant holds right after reset, with any parameters in range. -/
def Obligations.ResetInvariant : Prop := (∀ p : Params, p.wf → (State.ofReset p).Inv) ∧ State.reset.Inv

/-- Rule R50, the values it gives: everything zero, idle and empty but `OWN_ADDR`, and no buffer byte specified. A block
in reset takes them whatever it was doing (rule R350). -/
def Obligations.ResetValues : Prop :=
  ∀ (s : State) (rest : List Event), s.inputs = .reset :: rest → ∃ t, step s = .next t ∧
    t.statusWord = 0 ∧ t.mode = .ascii ∧ t.timeout = 0 ∧ t.retries = 0 ∧ t.ownAddr = 1 ∧
    t.efAddr = 0 ∧ t.efFc = 0 ∧ t.efLen = 0 ∧ t.chk = 0 ∧ t.txLen = 0 ∧ t.rxLen = 0 ∧ t.textLen = 0 ∧
    (∀ id i, t.byteAt id i = none) ∧ t.teState = .idle ∧ t.retryCnt = 0 ∧ t.timer = 0 ∧ t.txPtr = 0 ∧ t.curOp = 0 ∧
    t.txValid = false ∧ t.rxReady = false ∧ t.donePort = false

/-- `FRAME a, f, <bytes>` and `RX <bytes>` of the script language (rules R126, R127), run on an idle block, put exactly that
frame into EF and exactly those bytes before the decoder. That bytes written beyond the length are there when the length
is set, and that the accesses are a queue of events, are the model's choices (log entries 5 and 6). -/
def Obligations.ScriptsPlaceOperands : Prop :=
  ∀ (s : State) (a f : Byte) (bytes : List Byte) (rest : List Event), s.Inv → s.busy = false →
    (bytes.length ≤ s.params.payloadMax → s.inputs = scriptEvents (stmtFrame a f bytes) ++ rest →
      ∃ t, runSteps (bytes.length + 1) s = .next t ∧ t.inputs = rest ∧
        t.efAddr = a ∧ t.efFc = f ∧ t.efLen.toNat = bytes.length ∧ t.efBytes = bytes) ∧
    (bytes.length ≤ s.params.rxMax → s.inputs = scriptEvents (stmtRx bytes) ++ rest →
      ∃ t, runSteps (bytes.length + 1) s = .next t ∧ t.inputs = rest ∧
        t.rxLen.toNat = bytes.length ∧ t.rxBytes = bytes)

end
end

