-- ==== Sys2Proof/Laws/Checksum.lean ====
section
/-! SUPPORT. The laws of the two checksum loops: the sum byte by byte and as a number, one CRC shift and one CRC byte as
injections, and what eight shifts do to a register whose low byte is zero. -/

namespace Sys2Proof.Machine

/-! ### The sum of rule R141 -/

theorem foldl_add (s : List Byte) (c : Byte) : s.foldl (· + ·) c = c + lrcSum s := by
  induction s generalizing c with
  | nil => simp [lrcSum]
  | cons b s ih =>
    simp only [lrcSum, List.foldl_cons] at ih ⊢
    rw [ih (c + b), ih (0 + b)]; simp [BitVec.add_assoc]

@[simp] theorem lrcSum_nil : lrcSum [] = 0 := rfl

theorem lrcSum_cons (b : Byte) (s : List Byte) : lrcSum (b :: s) = b + lrcSum s := by
  have h := foldl_add s (0 + b)
  simpa [lrcSum] using h

theorem lrcSum_append (s t : List Byte) : lrcSum (s ++ t) = lrcSum s + lrcSum t := by
  induction s with
  | nil => simp
  | cons b s ih => rw [List.cons_append, lrcSum_cons, lrcSum_cons, ih, BitVec.add_assoc]

/-- The sum as a number: modulo 256. -/
theorem lrcSum_toNat (s : List Byte) : (lrcSum s).toNat = (s.map BitVec.toNat).sum % 256 := by
  induction s with
  | nil => rfl
  | cons b s ih =>
    rw [lrcSum_cons, BitVec.toNat_add, ih, List.map_cons, List.sum_cons, Nat.add_mod_mod]

theorem lrc_eq_neg (a f : Byte) (p : List Byte) : lrc a f p = -lrcSum (a :: f :: p) := (BitVec.neg_eq_not_add _).symm

/-! ### One shift and one byte of rule R146 -/

/-- The bit shifted out is the top bit of the result, because bit 15 of the polynomial is set. -/
theorem crcShift_top (c : Half) : (crcShift c).getLsbD 15 = c.getLsbD 0 := by
  unfold crcShift
  split
  · next h => rw [h]; simp
  · next h => simpa using h

theorem crcShift_low (c : Half) (i : Nat) :
    (crcShift c).getLsbD i = (c.getLsbD (1 + i) ^^ (c.getLsbD 0 && (0xA001 : Half).getLsbD i)) := by
  unfold crcShift
  split
  · next h => rw [h, BitVec.getLsbD_xor, BitVec.getLsbD_ushiftRight, Bool.true_and]
  · next h => simp only [Bool.not_eq_true] at h; rw [h, BitVec.getLsbD_ushiftRight]; simp

/-- A shift loses nothing. -/
theorem crcShift_injective (c d : Half) (h : crcShift c = crcShift d) : c = d := by
  have h0 : c.getLsbD 0 = d.getLsbD 0 := by rw [← crcShift_top, ← crcShift_top, h]
  refine BitVec.eq_of_getLsbD_eq fun i _ => ?_
  cases i with
  | zero => exact h0
  | succ j =>
    have hc := crcShift_low c j
    have hd := crcShift_low d j
    rw [h, h0] at hc
    rw [hc, Nat.add_comm 1 j] at hd
    simpa using hd

theorem crcShifts_injective (n : Nat) (c d : Half) (h : crcShifts n c = crcShifts n d) : c = d := by
  induction n generalizing c d with
  | zero => exact h
  | succ k ih => exact crcShift_injective _ _ (ih _ _ h)

/-- Different registers stay different when the same byte enters. -/
theorem crcByte_injective_reg (b : Byte) (c d : Half) (h : crcByte c b = crcByte d b) : c = d :=
  (BitVec.xor_left_inj _).1 (crcShifts_injective 8 _ _ h)

theorem toHalf_injective (b e : Byte) (h : b.toHalf = e.toHalf) : b = e := by
  have := congrArg (fun x : Half => x.setWidth 8) h
  simpa [Byte.toHalf] using this

/-- Different bytes that enter the same register leave different registers. -/
theorem crcByte_injective_byte (c : Half) (b e : Byte) (h : crcByte c b = crcByte c e) : b = e :=
  toHalf_injective _ _ ((BitVec.xor_right_inj _).1 (crcShifts_injective 8 _ _ h))

theorem crc_foldl_injective (s : List Byte) (c d : Half) (h : s.foldl crcByte c = s.foldl crcByte d) : c = d := by
  induction s generalizing c d with
  | nil => exact h
  | cons b s ih => exact crcByte_injective_reg b _ _ (ih _ _ h)

theorem crc16_append (s t : List Byte) : crc16 (s ++ t) = t.foldl crcByte (crc16 s) := List.foldl_append

@[simp] theorem crcShifts_zero (n : Nat) : crcShifts n 0 = 0 := by
  induction n with
  | zero => rfl
  | succ k ih => exact ih

/-- Eight shifts of a register whose low byte is zero only move its high byte down. -/
theorem crcShifts_high (h : Byte) : crcShifts 8 (h.toHalf <<< 8) = h.toHalf := by
  revert h; decide

/-- The low byte of the register enters it: the high byte is left. -/
theorem crcByte_low (c : Half) : crcByte c (c.extractLsb' 0 8) = Byte.toHalf (c.extractLsb' 8 8) := by
  rw [← crcShifts_high]
  unfold crcByte
  congr 1
  refine BitVec.eq_of_getLsbD_eq fun i hi => ?_
  simp only [Byte.toHalf, BitVec.getLsbD_xor, BitVec.getLsbD_setWidth, BitVec.getLsbD_extractLsb',
    BitVec.getLsbD_shiftLeft]
  by_cases h8 : i < 8
  · simp [h8, hi]
  · have : i - 8 < 8 := by omega
    have e : 8 + (i - 8) = i := by omega
    simp [h8, hi, this, e]
    intro _; omega

/-- A byte equal to the register enters it: zero is left. -/
theorem crcByte_self (b : Byte) : crcByte b.toHalf b = 0 := by
  simpa [crcByte] using crcShifts_zero 8

end Sys2Proof.Machine
end

