-- ==== Sys2Proof/Laws/Codec.lean ====
section
/-! SUPPORT. The laws of the frame codec: hex characters and back, the lengths of the frames, what the framing checks
accept, and the fields they read. -/

namespace Sys2Proof.Machine

/-! ### Hex characters (rules R102, R103) -/

theorem isHex_hex2 (u : Bool) (b : Byte) :
    isHex (hexDigit u (b >>> 4)) = true ∧ isHex (hexDigit u (b &&& 0x0F)) = true := by
  cases u <;> revert b <;> decide

/-- Reading back the two characters of a byte gives the byte. -/
theorem unhex_hex2 (u : Bool) (b : Byte) :
    unhex1 (hexDigit u (b >>> 4)) * 16 + unhex1 (hexDigit u (b &&& 0x0F)) = b := by
  cases u <;> revert b <;> decide

theorem hexAll_cons (u : Bool) (b : Byte) (s : List Byte) :
    hexAll u (b :: s) = hexDigit u (b >>> 4) :: hexDigit u (b &&& 0x0F) :: hexAll u s := rfl

@[simp] theorem hexAll_length (u : Bool) (s : List Byte) : (hexAll u s).length = 2 * s.length := by
  induction s with
  | nil => rfl
  | cons b s ih => rw [hexAll_cons]; simp only [List.length_cons, ih]; omega

theorem hexAll_append (u : Bool) (s t : List Byte) : hexAll u (s ++ t) = hexAll u s ++ hexAll u t := by
  induction s with
  | nil => rfl
  | cons b s ih => rw [List.cons_append, hexAll_cons, hexAll_cons, ih, List.cons_append, List.cons_append]

theorem hexAll_isHex (u : Bool) (s : List Byte) : ∀ ch ∈ hexAll u s, isHex ch = true := by
  induction s with
  | nil => intro ch h; cases h
  | cons b s ih =>
    intro ch h
    rw [hexAll_cons, List.mem_cons, List.mem_cons] at h
    rcases h with rfl | rfl | h
    · exact (isHex_hex2 u b).1
    · exact (isHex_hex2 u b).2
    · exact ih ch h

theorem unhexPairs_cons (c d : Byte) (s : List Byte) :
    unhexPairs (c :: d :: s) = (unhex1 c * 16 + unhex1 d) :: unhexPairs s := rfl

/-- Reading back the characters of a sequence gives the sequence. -/
@[simp] theorem unhexPairs_hexAll (u : Bool) (s : List Byte) : unhexPairs (hexAll u s) = s := by
  induction s with
  | nil => rfl
  | cons b s ih => rw [hexAll_cons, unhexPairs_cons, unhex_hex2, ih]

theorem unhexPairs_length (s : List Byte) : (unhexPairs s).length = s.length / 2 := by
  match s with
  | [] => rfl
  | [_] => simp [unhexPairs]
  | c :: d :: s => rw [unhexPairs_cons, List.length_cons, unhexPairs_length s]; simp only [List.length_cons]; omega

/-! ### The frames (rules R100, R106) -/

/-- The characters between the colon and the terminator. -/
def asciiHex (u : Bool) (a f : Byte) (p : List Byte) : List Byte := hexAll u (a :: f :: (p ++ [lrc a f p]))

theorem encAscii_eq (u : Bool) (a f : Byte) (p : List Byte) :
    encAscii u a f p = 0x3A :: (asciiHex u a f p ++ [0x0D, 0x0A]) := by
  rw [encAscii, asciiHex, show a :: f :: (p ++ [lrc a f p]) = (a :: f :: p) ++ [lrc a f p] from rfl,
    hexAll_append]
  rfl

@[simp] theorem encAscii_length (u : Bool) (a f : Byte) (p : List Byte) :
    (encAscii u a f p).length = 9 + 2 * p.length := by
  rw [encAscii_eq, asciiHex]; simp; omega

@[simp] theorem encRtu_length (a f : Byte) (p : List Byte) : (encRtu a f p).length = 4 + p.length := by
  simp [encRtu]; omega

theorem encodeFrame_length_le (m : Encoding) (u : Bool) (a f : Byte) (p : List Byte) :
    4 ≤ (encodeFrame m u a f p).length ∧ (encodeFrame m u a f p).length ≤ 9 + 2 * p.length := by
  cases m
  · simp [encodeFrame]; omega
  · simp [encodeFrame]; omega

/-! ### What the ASCII framing checks accept (rule R186) -/

theorem getElem?_last_two (s : List Byte) (x y : Byte) :
    (s ++ [x, y])[s.length]? = some x ∧ (s ++ [x, y])[s.length + 1]? = some y := by
  constructor
  · simp
  · rw [List.getElem?_append_right (by omega)]; simp

/-- A sequence whose last two bytes are known. -/
theorem eq_append_last_two (s : List Byte) (x y : Byte) (h : 2 ≤ s.length) (hx : s[s.length - 2]? = some x)
    (hy : s[s.length - 1]? = some y) : s = s.take (s.length - 2) ++ [x, y] := by
  refine List.ext_getElem? fun i => ?_
  have hl : (s.take (s.length - 2)).length = s.length - 2 := by simp
  rcases Nat.lt_or_ge i (s.length - 2) with hi | hi
  · rw [List.getElem?_append_left (by omega), List.getElem?_take_of_lt hi]
  · rw [List.getElem?_append_right (by omega), hl]
    obtain h0 | h1 | h2 : i = s.length - 2 ∨ i = s.length - 1 ∨ s.length ≤ i := by omega
    · subst h0; simpa using hx
    · subst h1
      rw [hy, show s.length - 1 - (s.length - 2) = 1 by omega]; rfl
    · rw [List.getElem?_eq_none h2, List.getElem?_eq_none (by simp; omega)]

/-- The checks 1 to 5 of rule R186 accept exactly a colon, an even number of at least six hex characters, and the
terminator. -/
theorem asciiBody_eq_ok_iff (s body : List Byte) :
    asciiBody s = .ok body ↔
      s = 0x3A :: (body ++ [0x0D, 0x0A]) ∧ (∀ ch ∈ body, isHex ch = true) ∧ body.length % 2 = 0 ∧
        6 ≤ body.length := by
  constructor
  · intro h
    unfold asciiBody at h
    split at h
    · cases h
    next h1 =>
    split at h
    · cases h
    next h2 =>
    split at h
    · cases h
    next h3 =>
    split at h
    · cases h
    next h4 =>
    split at h
    · cases h
    next h5 =>
    simp only [not_or, Nat.not_lt, Decidable.not_not] at h1 h2
    cases h
    refine ⟨?_, ?_, by omega, by omega⟩
    · have h6 := eq_append_last_two s _ _ (by omega) h2.2.1 h2.2.2
      cases s with
      | nil => simp at h1
      | cons c t =>
        obtain rfl : c = 0x3A := by simpa using h1.2
        simp only [List.drop_succ_cons, List.drop_zero, List.length_cons] at h6 ⊢
        rw [show t.length + 1 - 2 = (t.length + 1 - 3) + 1 by simp at h2; omega, List.take_succ_cons,
          List.cons_append, List.cons.injEq] at h6
        exact congrArg _ h6.2
    · simpa using h3
  · rintro ⟨rfl, hh, he, hl⟩
    have hlen : (0x3A :: (body ++ [0x0D, 0x0A]) : List Byte).length = body.length + 3 := by simp
    have hb : ((0x3A :: (body ++ [0x0D, 0x0A]) : List Byte).drop 1).take (body.length + 3 - 3) = body := by simp
    unfold asciiBody
    rw [hlen, hb]
    have e2 : (0x3A :: (body ++ [0x0D, 0x0A]) : List Byte)[body.length + 3 - 2]? = some 0x0D := by
      rw [show body.length + 3 - 2 = body.length + 1 by omega, List.getElem?_cons_succ]
      exact (getElem?_last_two body _ _).1
    have e1 : (0x3A :: (body ++ [0x0D, 0x0A]) : List Byte)[body.length + 3 - 1]? = some 0x0A := by
      rw [show body.length + 3 - 1 = (body.length + 1) + 1 by omega, List.getElem?_cons_succ]
      exact (getElem?_last_two body _ _).2
    rw [if_neg (by simp), if_neg (by rw [e1, e2]; simp), if_neg (by simpa using hh), if_neg (by omega),
      if_neg (by omega)]

theorem asciiFields_eq (a f l : Byte) (p : List Byte) :
    asciiFields (a :: f :: (p ++ [l])) = ⟨a, f, p, l.toHalf⟩ := by
  unfold asciiFields
  congr 1
  · simp
  · simp

/-- A list of at least three values by its fields. -/
theorem fields_eq (v : List Byte) (h : 3 ≤ v.length) :
    v = v.getD 0 0 :: v.getD 1 0 :: ((v.drop 2).take (v.length - 3) ++ [v.getD (v.length - 1) 0]) := by
  match v, h with
  | a :: f :: rest, h =>
    simp only [List.getD_cons_zero, List.getD_cons_succ, List.drop_succ_cons, List.drop_zero, List.length_cons,
      List.cons.injEq, true_and]
    have hr : rest ≠ [] := by rintro rfl; simp at h
    have h2 : rest.dropLast = rest.take (rest.length + 1 + 1 - 3) := by
      rw [List.dropLast_eq_take]; congr 1
    have h3 : rest.getLast hr = (a :: f :: rest).getD (rest.length + 1 + 1 - 1) 0 := by
      rw [List.getLast_eq_getElem]
      have : 0 < rest.length := List.length_pos_iff.2 hr
      rw [show rest.length + 1 + 1 - 1 = (rest.length - 1) + 1 + 1 by omega]
      simp [List.getD_eq_getElem?_getD, this]
    rw [← h2, ← h3, List.dropLast_append_getLast]

/-- What the framing checks and the field parser of rule R186 make of a sequence. -/
theorem parseAscii_eq_ok_iff (s : List Byte) (q : Parsed) :
    parseAscii s = .ok q ↔
      ∃ body l, asciiBody s = .ok body ∧ unhexPairs body = q.addr :: q.fc :: (q.payload ++ [l]) ∧
        q.check = l.toHalf := by
  unfold parseAscii
  constructor
  · intro h
    split at h
    · cases h
    · next body hb =>
      cases h
      have hl := ((asciiBody_eq_ok_iff s body).1 hb).2.2
      have h3 : 3 ≤ (unhexPairs body).length := by rw [unhexPairs_length]; omega
      exact ⟨body, _, hb, fields_eq _ h3, rfl⟩
  · rintro ⟨body, l, hb, hv, hc⟩
    rw [hb]
    simp only [hv, asciiFields_eq, ← hc]

/-- An encoded ASCII frame parses to its own fields. -/
theorem parseAscii_encAscii (u : Bool) (a f : Byte) (p : List Byte) :
    parseAscii (encAscii u a f p) = .ok ⟨a, f, p, (lrc a f p).toHalf⟩ := by
  refine (parseAscii_eq_ok_iff _ _).2 ⟨asciiHex u a f p, lrc a f p, ?_, ?_, rfl⟩
  · refine (asciiBody_eq_ok_iff _ _).2 ⟨encAscii_eq u a f p, hexAll_isHex _ _, ?_, ?_⟩
    · rw [asciiHex, hexAll_length]; omega
    · rw [asciiHex, hexAll_length]; simp; omega
  · rw [asciiHex, unhexPairs_hexAll]

/-! ### What the RTU framing check accepts (rule R190) -/

theorem join_halves (c : Half) :
    Byte.toHalf (c.extractLsb' 0 8) ||| (Byte.toHalf (c.extractLsb' 8 8) <<< 8) = c := by
  refine BitVec.eq_of_getLsbD_eq fun i hi => ?_
  simp only [Byte.toHalf, BitVec.getLsbD_or, BitVec.getLsbD_setWidth, BitVec.getLsbD_extractLsb',
    BitVec.getLsbD_shiftLeft]
  by_cases h8 : i < 8
  · simp [h8, hi]
  · have : i - 8 < 8 := by omega
    have e : 8 + (i - 8) = i := by omega
    simp [h8, hi, this, e]
    intro _; omega

theorem split_halves (lo hi : Byte) :
    (lo.toHalf ||| (hi.toHalf <<< 8)).extractLsb' 0 8 = lo ∧
      (lo.toHalf ||| (hi.toHalf <<< 8)).extractLsb' 8 8 = hi := by
  constructor <;> refine BitVec.eq_of_getLsbD_eq fun i h => ?_
  · simp [Byte.toHalf, h, show i < 16 by omega]
  · simp only [Byte.toHalf, BitVec.getLsbD_extractLsb', BitVec.getLsbD_or, BitVec.getLsbD_setWidth,
      BitVec.getLsbD_shiftLeft, h]
    simp [show 8 + i < 16 by omega]
    intro _; omega

/-- The RTU check takes any four bytes or more apart into address, function code, payload and CRC, low byte first. -/
theorem parseRtu_eq_ok_iff (s : List Byte) (q : Parsed) :
    parseRtu s = .ok q ↔
      s = q.addr :: q.fc :: (q.payload ++ [q.check.extractLsb' 0 8, q.check.extractLsb' 8 8]) := by
  unfold parseRtu
  constructor
  · intro h
    split at h
    · cases h
    next hn =>
    cases h
    simp only [Nat.not_lt] at hn
    obtain ⟨h0, h8⟩ := split_halves (s.getD (s.length - 2) 0) (s.getD (s.length - 1) 0)
    simp only [h0, h8]
    match s, hn with
    | a :: f :: rest, hn =>
      simp only [List.length_cons] at hn
      have key := eq_append_last_two rest ((a :: f :: rest).getD (rest.length + 1 + 1 - 2) 0)
        ((a :: f :: rest).getD (rest.length + 1 + 1 - 1) 0) (by omega)
        (by
          rw [show rest.length + 1 + 1 - 2 = (rest.length - 2) + 1 + 1 by omega]
          simp [List.getD_eq_getElem?_getD, show rest.length - 2 < rest.length by omega])
        (by
          rw [show rest.length + 1 + 1 - 1 = (rest.length - 1) + 1 + 1 by omega]
          simp [List.getD_eq_getElem?_getD, show rest.length - 1 < rest.length by omega])
      simp only [List.getD_cons_zero, List.getD_cons_succ, List.drop_succ_cons, List.drop_zero, List.length_cons]
      rw [show rest.length + 1 + 1 - 4 = rest.length - 2 by omega, ← key]
  · intro h
    have hl : s.length = q.payload.length + 4 := by rw [h]; simp
    rw [if_neg (by omega), hl]
    obtain ⟨a, f, p, c⟩ := q
    simp only at h
    subst h
    congr 1
    have e1 : (a :: f :: (p ++ [c.extractLsb' 0 8, c.extractLsb' 8 8])).getD (p.length + 4 - 2) 0
        = c.extractLsb' 0 8 := by
      rw [show p.length + 4 - 2 = p.length + 1 + 1 by omega]
      simp [List.getD_eq_getElem?_getD]
    have e2 : (a :: f :: (p ++ [c.extractLsb' 0 8, c.extractLsb' 8 8])).getD (p.length + 4 - 1) 0
        = c.extractLsb' 8 8 := by
      rw [show p.length + 4 - 1 = (p.length + 1) + 1 + 1 by omega]
      rw [List.getD_cons_succ, List.getD_cons_succ, List.getD_eq_getElem?_getD, (getElem?_last_two p _ _).2]; rfl
    rw [e1, e2, join_halves]
    simp

theorem parseRtu_encRtu (a f : Byte) (p : List Byte) :
    parseRtu (encRtu a f p) = .ok ⟨a, f, p, crc16 (a :: f :: p)⟩ :=
  (parseRtu_eq_ok_iff _ _).2 (by simp [encRtu])

/-! ### The verdict (rules R180, R182) -/

theorem decodeFrame_eq_frame_iff (m : Encoding) (s : List Byte) (q : Parsed) :
    decodeFrame m s = .frame q ↔ parse m s = .ok q ∧ checksum m q.addr q.fc q.payload = q.check := by
  unfold decodeFrame
  cases h : parse m s with
  | error c => simp
  | ok r =>
    by_cases hc : checksum m r.addr r.fc r.payload = r.check
    · simp only [hc, if_true, Verdict.frame.injEq, Except.ok.injEq]
      constructor
      · rintro rfl; exact ⟨rfl, hc⟩
      · exact fun h => h.1
    · simp only [hc, if_false, Except.ok.injEq, reduceCtorEq, false_iff, not_and]
      rintro rfl; exact hc

theorem decodeFrame_eq_framingError_iff (m : Encoding) (s : List Byte) (c : FramingCheck) :
    decodeFrame m s = .framingError c ↔ parse m s = .error c := by
  unfold decodeFrame
  cases h : parse m s with
  | error d => simp
  | ok r => by_cases hc : checksum m r.addr r.fc r.payload = r.check <;> simp [hc]

theorem decodeFrame_eq_checksumError_iff (m : Encoding) (s : List Byte) :
    decodeFrame m s = .checksumError ↔
      ∃ q, parse m s = .ok q ∧ checksum m q.addr q.fc q.payload ≠ q.check := by
  unfold decodeFrame
  cases h : parse m s with
  | error d => simp
  | ok r => by_cases hc : checksum m r.addr r.fc r.payload = r.check <;> simp [hc]

theorem parse_encodeFrame (m : Encoding) (u : Bool) (a f : Byte) (p : List Byte) :
    parse m (encodeFrame m u a f p) = .ok ⟨a, f, p, checksum m a f p⟩ := by
  cases m
  · exact parseAscii_encAscii u a f p
  · exact parseRtu_encRtu a f p

/-- A decoded payload is shorter than its frame by four bytes at least (rule R7: `DF_MAX`). -/
theorem payload_length_le (m : Encoding) (s : List Byte) (q : Parsed) (h : parse m s = .ok q) :
    q.payload.length + 4 ≤ s.length := by
  cases m with
  | ascii =>
    obtain ⟨body, l, hb, hv, -⟩ := (parseAscii_eq_ok_iff s q).1 h
    obtain ⟨hs, -⟩ := (asciiBody_eq_ok_iff s body).1 hb
    have h1 := congrArg List.length hv
    rw [unhexPairs_length] at h1
    simp only [List.length_cons, List.length_append, List.length_nil] at h1
    rw [hs]; simp only [List.length_cons, List.length_append, List.length_nil]; omega
  | rtu =>
    rw [(parseRtu_eq_ok_iff s q).1 h]; simp

/-- Nothing received is no frame. -/
theorem decodeFrame_nil (m : Encoding) (q : Parsed) : decodeFrame m [] ≠ .frame q := by
  cases m <;> intro h <;> cases h

end Sys2Proof.Machine
end

