-- ==== Sys2Proof/Laws/Memory.lean ====
section
/-! SUPPORT. The laws of a buffer: a read after a write, every other index left alone, and the canonical form kept by
every operation. -/

namespace Sys2Proof.Machine

/-! ### Reading one byte -/

@[simp] theorem byteAt?_nil (i : Nat) : Memory.byteAt? [] i = none := rfl

theorem byteAt?_cons (c : Host.Cell) (m : Memory) (i : Nat) :
    Memory.byteAt? (c :: m) i = if c.1 = i then some c.2 else Memory.byteAt? m i := rfl

/-- An index below every listed one is unspecified. -/
theorem byteAt?_eq_none_of_lt (m : Memory) (i : Nat) (h : ∀ c ∈ m, i < c.1) : m.byteAt? i = none := by
  induction m with
  | nil => rfl
  | cons c m ih =>
    have hc : i < c.1 := h c (by simp)
    rw [byteAt?_cons, if_neg (by omega)]
    exact ih fun d hd => h d (by simp [hd])

/-- A byte read is a listed one. -/
theorem mem_of_byteAt? (m : Memory) (i : Nat) (b : Byte) (h : m.byteAt? i = some b) : (i, b) ∈ m := by
  induction m with
  | nil => cases h
  | cons c m ih =>
    rw [byteAt?_cons] at h
    split at h
    · next hc => cases h; subst hc; simp
    · exact List.mem_cons_of_mem _ (ih h)

/-! ### Writing one byte -/

/-- A read after a write to the same index gives the byte written. -/
@[simp] theorem byteAt?_put_same (m : Memory) (i : Nat) (b : Byte) : (m.put i b).byteAt? i = some b := by
  induction m with
  | nil => simp [Memory.put, byteAt?_cons]
  | cons c m ih =>
    unfold Memory.put
    split
    · simp [byteAt?_cons]
    · split
      · simp [byteAt?_cons]
      · rw [byteAt?_cons, if_neg (by omega)]; exact ih

/-- A write leaves every other index alone. -/
theorem byteAt?_put_other (m : Memory) (i j : Nat) (b : Byte) (h : j ≠ i) :
    (m.put i b).byteAt? j = m.byteAt? j := by
  induction m with
  | nil => simp [Memory.put, byteAt?_cons, h.symm]
  | cons c m ih =>
    unfold Memory.put
    split
    · rw [byteAt?_cons, if_neg h.symm]
    · split
      · next hic => rw [byteAt?_cons, if_neg h.symm, byteAt?_cons, if_neg (by omega)]
      · rw [byteAt?_cons, byteAt?_cons, ih]

/-- Every entry after a write is the new one or an old one. -/
theorem mem_put (m : Memory) (i : Nat) (b : Byte) (c : Host.Cell) (h : c ∈ m.put i b) : c = (i, b) ∨ c ∈ m := by
  induction m with
  | nil => simpa [Memory.put] using h
  | cons d m ih =>
    unfold Memory.put at h
    split at h
    · simpa using h
    · split at h
      · rcases List.mem_cons.1 h with h | h
        · exact .inl h
        · exact .inr (List.mem_cons_of_mem _ h)
      · rcases List.mem_cons.1 h with h | h
        · exact .inr (by simp [h])
        · exact (ih h).imp id (List.mem_cons_of_mem _)

/-- A write keeps the canonical form. -/
theorem wf_put (m : Memory) (i : Nat) (b : Byte) (h : m.wf) : (m.put i b).wf := by
  induction m with
  | nil => simp [Memory.put]
  | cons c m ih =>
    rw [Memory.wf, List.pairwise_cons] at h
    unfold Memory.put
    split
    · next hic =>
      refine List.pairwise_cons.2 ⟨fun d hd => ?_, List.pairwise_cons.2 h⟩
      rcases List.mem_cons.1 hd with rfl | hd
      · exact hic
      · exact Nat.lt_trans hic (h.1 d hd)
    · split
      · next hic => exact List.pairwise_cons.2 ⟨fun d hd => by have := h.1 d hd; simp only; omega, h.2⟩
      · next h1 h2 =>
        refine List.pairwise_cons.2 ⟨fun d hd => ?_, ih h.2⟩
        rcases mem_put m i b d hd with rfl | hd
        · simp only; omega
        · exact h.1 d hd

/-! ### Writing a sequence from index 0 -/

theorem mem_ofBytesFrom (k : Nat) (s : List Byte) (c : Host.Cell) (h : c ∈ Memory.ofBytesFrom k s) :
    k ≤ c.1 ∧ c.1 < k + s.length := by
  induction s generalizing k with
  | nil => cases h
  | cons b s ih =>
    rw [Memory.ofBytesFrom, List.mem_cons] at h
    rcases h with rfl | h
    · simp
    · have := ih (k + 1) h
      simp only [List.length_cons]; omega

theorem byteAt?_ofBytesFrom (k : Nat) (s : List Byte) (i : Nat) :
    (Memory.ofBytesFrom k s).byteAt? (k + i) = s[i]? := by
  induction s generalizing k i with
  | nil => simp [Memory.ofBytesFrom]
  | cons b s ih =>
    rw [Memory.ofBytesFrom, byteAt?_cons]
    cases i with
    | zero => simp
    | succ j =>
      rw [if_neg (by simp), show k + (j + 1) = (k + 1) + j by omega, ih]
      simp

/-- The bytes of a sequence stand at their own indices, and nothing stands beyond them. -/
@[simp] theorem byteAt?_ofBytes (s : List Byte) (i : Nat) : (Memory.ofBytes s).byteAt? i = s[i]? := by
  simpa [Memory.ofBytes] using byteAt?_ofBytesFrom 0 s i

theorem wf_ofBytesFrom (k : Nat) (s : List Byte) : (Memory.ofBytesFrom k s).wf := by
  induction s generalizing k with
  | nil => exact .nil
  | cons b s ih =>
    refine List.pairwise_cons.2 ⟨fun d hd => ?_, ih (k + 1)⟩
    have := mem_ofBytesFrom (k + 1) s d hd
    simp only; omega

/-- A sequence written from index 0 is in canonical form. -/
theorem wf_ofBytes (s : List Byte) : (Memory.ofBytes s).wf := wf_ofBytesFrom 0 s

/-! ### Dropping and filling -/

/-- What stays below the cut is unchanged, and nothing stands beyond it. -/
theorem byteAt?_keepBelow (m : Memory) (n i : Nat) :
    (m.keepBelow n).byteAt? i = if i < n then m.byteAt? i else none := by
  induction m with
  | nil => simp [Memory.keepBelow]
  | cons c m ih =>
    simp only [Memory.keepBelow, List.filter_cons] at ih ⊢
    by_cases hc : c.1 < n
    · simp only [hc, decide_true, if_true, byteAt?_cons]
      by_cases hi : c.1 = i
      · subst hi; simp [hc]
      · simp only [hi, if_false, ih]
    · simp only [hc, decide_false, byteAt?_cons]
      by_cases hi : c.1 = i
      · subst hi
        simp only [hc, if_false]
        simpa [hc] using ih
      · simp only [hi, if_false]
        simpa using ih

theorem wf_keepBelow (m : Memory) (n : Nat) (h : m.wf) : (m.keepBelow n).wf := List.Pairwise.filter _ h

theorem wf_fillBelow (m : Memory) (d n : Nat) (h : m.wf) : (m.fillBelow d n).wf := by
  induction n with
  | zero => exact h
  | succ k ih =>
    unfold Memory.fillBelow
    split
    · exact ih
    · exact wf_put _ _ _ ih

theorem mem_fillBelow (m : Memory) (d n : Nat) (c : Host.Cell) (h : c ∈ m.fillBelow d n) : c.1 < n ∨ c ∈ m := by
  induction n with
  | zero => exact .inr h
  | succ k ih =>
    unfold Memory.fillBelow at h
    split at h
    · exact (ih h).imp (by omega) id
    · rcases mem_put _ _ _ _ h with rfl | h
      · exact .inl (by simp)
      · exact (ih h).imp (by omega) id

/-- Filling changes no byte that has a value. -/
theorem byteAt?_fillBelow_of_some (m : Memory) (d n i : Nat) (b : Byte) (h : m.byteAt? i = some b) :
    (m.fillBelow d n).byteAt? i = some b := by
  induction n with
  | zero => exact h
  | succ k ih =>
    unfold Memory.fillBelow
    split
    · exact ih
    · next hk =>
      rw [byteAt?_put_other _ _ _ _ (by rintro rfl; rw [ih] at hk; cases hk)]
      exact ih

/-- Filling leaves every index at or beyond the length alone. -/
theorem byteAt?_fillBelow_of_le (m : Memory) (d n i : Nat) (h : n ≤ i) :
    (m.fillBelow d n).byteAt? i = m.byteAt? i := by
  induction n with
  | zero => rfl
  | succ k ih =>
    unfold Memory.fillBelow
    split
    · exact ih (by omega)
    · rw [byteAt?_put_other _ _ _ _ (by omega)]; exact ih (by omega)

/-- After filling every byte below the length has a value. -/
theorem isSome_fillBelow (m : Memory) (d n i : Nat) (h : i < n) : ((m.fillBelow d n).byteAt? i).isSome = true := by
  induction n with
  | zero => omega
  | succ k ih =>
    unfold Memory.fillBelow
    rcases Nat.lt_or_ge i k with hk | hk
    · obtain ⟨b, hb⟩ := Option.isSome_iff_exists.1 (ih hk)
      split
      · simp [hb]
      · rw [byteAt?_put_other _ _ _ _ (by omega)]; simp [hb]
    · obtain rfl : i = k := by omega
      split
      · next hb => simp [hb]
      · simp

/-! ### Setting a length (rule R39) -/

/-- A byte below the new length that has a value keeps it. -/
theorem byteAt?_setLength_of_some (m : Memory) (d n i : Nat) (b : Byte) (hi : i < n) (h : m.byteAt? i = some b) :
    (m.setLength d n).byteAt? i = some b :=
  byteAt?_fillBelow_of_some _ _ _ _ _ (by rw [byteAt?_keepBelow, if_pos hi, h])

/-- The bytes that have a value are those below the new length. -/
theorem isSome_setLength (m : Memory) (d n i : Nat) : ((m.setLength d n).byteAt? i).isSome = true ↔ i < n := by
  refine ⟨fun h => ?_, fun h => isSome_fillBelow _ _ _ _ h⟩
  by_contra hn
  rw [Memory.setLength, byteAt?_fillBelow_of_le _ _ _ _ (by omega), byteAt?_keepBelow, if_neg hn] at h
  cases h

/-! ### Reading a sequence -/

@[simp] theorem read_length (m : Memory) (d n : Nat) : (m.read d n).length = n := by simp [Memory.read]

/-- The bytes read are the bytes held. -/
theorem read_getElem? (m : Memory) (d n i : Nat) (b : Byte) (hi : i < n) (hb : m.byteAt? i = some b) :
    (m.read d n)[i]? = some b := by
  simp [Memory.read, hi, hb]

/-- What is dropped at or beyond the length is not read. -/
@[simp] theorem read_keepBelow (m : Memory) (d n : Nat) : (m.keepBelow n).read d n = m.read d n :=
  List.map_congr_left fun i hi => by rw [byteAt?_keepBelow, if_pos (List.mem_range.1 hi)]

/-- Where every byte below the length has a value the draws do not matter. -/
theorem read_congr (m m' : Memory) (d d' n : Nat) (h : ∀ i < n, (m.byteAt? i).isSome = true)
    (hm : ∀ i < n, m'.byteAt? i = m.byteAt? i) : m'.read d' n = m.read d n := by
  refine List.map_congr_left fun i hi => ?_
  have hi := List.mem_range.1 hi
  obtain ⟨b, hb⟩ := Option.isSome_iff_exists.1 (h i hi)
  simp [hm i hi, hb]

/-- Reading back a sequence written from index 0. -/
@[simp] theorem read_ofBytes (s : List Byte) (d : Nat) : (Memory.ofBytes s).read d s.length = s := by
  refine List.ext_getElem? fun i => ?_
  rcases Nat.lt_or_ge i s.length with hi | hi
  · exact (read_getElem? _ _ _ _ s[i] hi (by simp [hi])).trans (by simp [hi])
  · rw [List.getElem?_eq_none (by simpa using hi), List.getElem?_eq_none hi]

/-! ### Buffers that fit -/

theorem fits_nil (cap : Nat) : Memory.Fits [] 0 cap := ⟨.nil, by simp, by omega⟩

/-- A sequence no longer than the capacity fits. -/
theorem fits_ofBytes (s : List Byte) (cap : Nat) (h : s.length ≤ cap) : (Memory.ofBytes s).Fits s.length cap :=
  ⟨wf_ofBytes s, fun c hc => by have := mem_ofBytesFrom 0 s c hc; omega, fun i hi => by simp [hi]⟩

theorem fits_put (m : Memory) (len cap i : Nat) (b : Byte) (hm : m.Fits len cap) (hi : i < cap) :
    (m.put i b).Fits len cap := by
  obtain ⟨hw, hc, hs⟩ := hm
  refine ⟨wf_put _ _ _ hw, fun c h => ?_, fun j hj => ?_⟩
  · rcases mem_put _ _ _ _ h with rfl | h
    · exact hi
    · exact hc c h
  · by_cases hji : j = i
    · subst hji; simp
    · rw [byteAt?_put_other _ _ _ _ hji]; exact hs j hj

/-- A byte appended at the length. -/
theorem fits_append (m : Memory) (len cap : Nat) (b : Byte) (hm : m.Fits len cap) (hi : len < cap) :
    (m.put len b).Fits (len + 1) cap := by
  obtain ⟨hw, hc, hs⟩ := fits_put m len cap len b hm hi
  refine ⟨hw, hc, fun j hj => ?_⟩
  by_cases hji : j = len
  · subst hji; simp
  · exact hs j (by omega)

theorem fits_fillBelow (m : Memory) (d len n cap : Nat) (hm : m.Fits len cap) (hn : n ≤ cap) :
    (m.fillBelow d n).Fits n cap := by
  obtain ⟨hw, hc, -⟩ := hm
  refine ⟨wf_fillBelow _ _ _ hw, fun c h => ?_, fun i hi => isSome_fillBelow _ _ _ _ hi⟩
  rcases mem_fillBelow _ _ _ _ h with h | h
  · omega
  · exact hc c h

theorem fits_keepBelow (m : Memory) (len cap : Nat) (hm : m.Fits len cap) : (m.keepBelow len).Fits len cap := by
  obtain ⟨hw, hc, hs⟩ := hm
  refine ⟨wf_keepBelow _ _ hw, fun c h => hc c (List.mem_of_mem_filter h), fun i hi => ?_⟩
  rw [byteAt?_keepBelow, if_pos hi]; exact hs i hi

theorem fits_setLength (m : Memory) (d len n cap : Nat) (hm : m.Fits len cap) (hn : n ≤ cap) :
    (m.setLength d n).Fits n cap :=
  fits_fillBelow _ d 0 n cap
    ⟨wf_keepBelow _ _ hm.1, fun c h => hm.2.1 c (List.mem_of_mem_filter h), fun i hi => absurd hi (Nat.not_lt_zero i)⟩ hn

theorem fits_shorten (m : Memory) (len n cap : Nat) (hm : m.Fits len cap) (hn : n ≤ len) : m.Fits n cap :=
  ⟨hm.1, hm.2.1, fun i hi => hm.2.2 i (by omega)⟩

end Sys2Proof.Machine
end

