-- ==== Sys2Proof/Laws/State.lean ====
section
/-! SUPPORT. One lemma per field per shared update: what each operation does to each field. -/

namespace Sys2Proof.Machine

/-! ### `State.accept` -/

@[simp] theorem accept_params (w : Byte) (d : Bool) (s : State) : (s.accept w d).params = s.params := rfl
@[simp] theorem accept_busy (w : Byte) (d : Bool) (s : State) : (s.accept w d).busy = true := rfl
@[simp] theorem accept_done (w : Byte) (d : Bool) (s : State) : (s.accept w d).done = false := rfl
@[simp] theorem accept_result (w : Byte) (d : Bool) (s : State) : (s.accept w d).result = .ok := rfl
@[simp] theorem accept_cause (w : Byte) (d : Bool) (s : State) : (s.accept w d).cause = .none := rfl
@[simp] theorem accept_exc (w : Byte) (d : Bool) (s : State) : (s.accept w d).exc = (s.exc && !d) := rfl
@[simp] theorem accept_dfValid (w : Byte) (d : Bool) (s : State) : (s.accept w d).dfValid = (s.dfValid && !d) := rfl
@[simp] theorem accept_textValid (w : Byte) (d : Bool) (s : State) : (s.accept w d).textValid = false := rfl
@[simp] theorem accept_utf8Err (w : Byte) (d : Bool) (s : State) : (s.accept w d).utf8Err = false := rfl
@[simp] theorem accept_ovr (w : Byte) (d : Bool) (s : State) : (s.accept w d).ovr = s.ovr := rfl
@[simp] theorem accept_attempts (w : Byte) (d : Bool) (s : State) : (s.accept w d).attempts = 0 := rfl
@[simp] theorem accept_mode (w : Byte) (d : Bool) (s : State) : (s.accept w d).mode = s.mode := rfl
@[simp] theorem accept_timeout (w : Byte) (d : Bool) (s : State) : (s.accept w d).timeout = s.timeout := rfl
@[simp] theorem accept_retries (w : Byte) (d : Bool) (s : State) : (s.accept w d).retries = s.retries := rfl
@[simp] theorem accept_ownAddr (w : Byte) (d : Bool) (s : State) : (s.accept w d).ownAddr = s.ownAddr := rfl
@[simp] theorem accept_efAddr (w : Byte) (d : Bool) (s : State) : (s.accept w d).efAddr = s.efAddr := rfl
@[simp] theorem accept_efFc (w : Byte) (d : Bool) (s : State) : (s.accept w d).efFc = s.efFc := rfl
@[simp] theorem accept_efLen (w : Byte) (d : Bool) (s : State) : (s.accept w d).efLen = s.efLen := rfl
@[simp] theorem accept_dfAddr (w : Byte) (d : Bool) (s : State) : (s.accept w d).dfAddr = s.dfAddr := rfl
@[simp] theorem accept_dfFc (w : Byte) (d : Bool) (s : State) : (s.accept w d).dfFc = s.dfFc := rfl
@[simp] theorem accept_dfLen (w : Byte) (d : Bool) (s : State) : (s.accept w d).dfLen = s.dfLen := rfl
@[simp] theorem accept_chk (w : Byte) (d : Bool) (s : State) : (s.accept w d).chk = s.chk := rfl
@[simp] theorem accept_txLen (w : Byte) (d : Bool) (s : State) : (s.accept w d).txLen = s.txLen := rfl
@[simp] theorem accept_rxLen (w : Byte) (d : Bool) (s : State) : (s.accept w d).rxLen = s.rxLen := rfl
@[simp] theorem accept_textLen (w : Byte) (d : Bool) (s : State) : (s.accept w d).textLen = s.textLen := rfl
@[simp] theorem accept_efPayload (w : Byte) (d : Bool) (s : State) :
    (s.accept w d).efPayload = s.efPayload.keepBelow s.efLen.toNat := rfl
@[simp] theorem accept_txBuf (w : Byte) (d : Bool) (s : State) : (s.accept w d).txBuf = s.txBuf := rfl
@[simp] theorem accept_rxBuf (w : Byte) (d : Bool) (s : State) :
    (s.accept w d).rxBuf = s.rxBuf.keepBelow s.rxLen.toNat := rfl
@[simp] theorem accept_dfPayload (w : Byte) (d : Bool) (s : State) : (s.accept w d).dfPayload = s.dfPayload := rfl
@[simp] theorem accept_text (w : Byte) (d : Bool) (s : State) : (s.accept w d).text = s.text := rfl
@[simp] theorem accept_teState (w : Byte) (d : Bool) (s : State) : (s.accept w d).teState = s.teState := rfl
@[simp] theorem accept_retryCnt (w : Byte) (d : Bool) (s : State) : (s.accept w d).retryCnt = s.retryCnt := rfl
@[simp] theorem accept_timer (w : Byte) (d : Bool) (s : State) : (s.accept w d).timer = s.timer := rfl
@[simp] theorem accept_txPtr (w : Byte) (d : Bool) (s : State) : (s.accept w d).txPtr = s.txPtr := rfl
@[simp] theorem accept_curOp (w : Byte) (d : Bool) (s : State) : (s.accept w d).curOp = w := rfl
@[simp] theorem accept_lrcAcc (w : Byte) (d : Bool) (s : State) : (s.accept w d).lrcAcc = s.lrcAcc := rfl
@[simp] theorem accept_crcReg (w : Byte) (d : Bool) (s : State) : (s.accept w d).crcReg = s.crcReg := rfl
@[simp] theorem accept_tick (w : Byte) (d : Bool) (s : State) : (s.accept w d).tick = s.tick := rfl
@[simp] theorem accept_txReady (w : Byte) (d : Bool) (s : State) : (s.accept w d).txReady = s.txReady := rfl
@[simp] theorem accept_rxValid (w : Byte) (d : Bool) (s : State) : (s.accept w d).rxValid = s.rxValid := rfl
@[simp] theorem accept_txStream (w : Byte) (d : Bool) (s : State) : (s.accept w d).txStream = s.txStream := rfl
@[simp] theorem accept_rxStream (w : Byte) (d : Bool) (s : State) : (s.accept w d).rxStream = s.rxStream := rfl
@[simp] theorem accept_inputs (w : Byte) (d : Bool) (s : State) : (s.accept w d).inputs = s.inputs := rfl
@[simp] theorem accept_hostData (w : Byte) (d : Bool) (s : State) : (s.accept w d).hostData = s.hostData := rfl
@[simp] theorem accept_draws (w : Byte) (d : Bool) (s : State) : (s.accept w d).draws = s.draws := rfl

/-! ### `State.complete` -/

@[simp] theorem complete_params (k : Kind) (s : State) : (s.complete k).params = s.params := rfl
@[simp] theorem complete_busy (k : Kind) (s : State) : (s.complete k).busy = false := rfl
@[simp] theorem complete_done (k : Kind) (s : State) : (s.complete k).done = true := rfl
@[simp] theorem complete_result (k : Kind) (s : State) : (s.complete k).result = k := rfl
@[simp] theorem complete_cause (k : Kind) (s : State) : (s.complete k).cause = s.cause := rfl
@[simp] theorem complete_exc (k : Kind) (s : State) : (s.complete k).exc = s.exc := rfl
@[simp] theorem complete_dfValid (k : Kind) (s : State) : (s.complete k).dfValid = s.dfValid := rfl
@[simp] theorem complete_textValid (k : Kind) (s : State) : (s.complete k).textValid = s.textValid := rfl
@[simp] theorem complete_utf8Err (k : Kind) (s : State) : (s.complete k).utf8Err = s.utf8Err := rfl
@[simp] theorem complete_ovr (k : Kind) (s : State) : (s.complete k).ovr = s.ovr := rfl
@[simp] theorem complete_attempts (k : Kind) (s : State) : (s.complete k).attempts = s.attempts := rfl
@[simp] theorem complete_mode (k : Kind) (s : State) : (s.complete k).mode = s.mode := rfl
@[simp] theorem complete_timeout (k : Kind) (s : State) : (s.complete k).timeout = s.timeout := rfl
@[simp] theorem complete_retries (k : Kind) (s : State) : (s.complete k).retries = s.retries := rfl
@[simp] theorem complete_ownAddr (k : Kind) (s : State) : (s.complete k).ownAddr = s.ownAddr := rfl
@[simp] theorem complete_efAddr (k : Kind) (s : State) : (s.complete k).efAddr = s.efAddr := rfl
@[simp] theorem complete_efFc (k : Kind) (s : State) : (s.complete k).efFc = s.efFc := rfl
@[simp] theorem complete_efLen (k : Kind) (s : State) : (s.complete k).efLen = s.efLen := rfl
@[simp] theorem complete_dfAddr (k : Kind) (s : State) : (s.complete k).dfAddr = s.dfAddr := rfl
@[simp] theorem complete_dfFc (k : Kind) (s : State) : (s.complete k).dfFc = s.dfFc := rfl
@[simp] theorem complete_dfLen (k : Kind) (s : State) : (s.complete k).dfLen = s.dfLen := rfl
@[simp] theorem complete_chk (k : Kind) (s : State) : (s.complete k).chk = s.chk := rfl
@[simp] theorem complete_txLen (k : Kind) (s : State) : (s.complete k).txLen = s.txLen := rfl
@[simp] theorem complete_rxLen (k : Kind) (s : State) : (s.complete k).rxLen = s.rxLen := rfl
@[simp] theorem complete_textLen (k : Kind) (s : State) : (s.complete k).textLen = s.textLen := rfl
@[simp] theorem complete_efPayload (k : Kind) (s : State) : (s.complete k).efPayload = s.efPayload := rfl
@[simp] theorem complete_txBuf (k : Kind) (s : State) : (s.complete k).txBuf = s.txBuf := rfl
@[simp] theorem complete_rxBuf (k : Kind) (s : State) : (s.complete k).rxBuf = s.rxBuf := rfl
@[simp] theorem complete_dfPayload (k : Kind) (s : State) : (s.complete k).dfPayload = s.dfPayload := rfl
@[simp] theorem complete_text (k : Kind) (s : State) : (s.complete k).text = s.text := rfl
@[simp] theorem complete_teState (k : Kind) (s : State) : (s.complete k).teState = .idle := rfl
@[simp] theorem complete_retryCnt (k : Kind) (s : State) : (s.complete k).retryCnt = s.retryCnt := rfl
@[simp] theorem complete_timer (k : Kind) (s : State) : (s.complete k).timer = s.timer := rfl
@[simp] theorem complete_txPtr (k : Kind) (s : State) : (s.complete k).txPtr = s.txPtr := rfl
@[simp] theorem complete_curOp (k : Kind) (s : State) : (s.complete k).curOp = s.curOp := rfl
@[simp] theorem complete_lrcAcc (k : Kind) (s : State) : (s.complete k).lrcAcc = s.lrcAcc := rfl
@[simp] theorem complete_crcReg (k : Kind) (s : State) : (s.complete k).crcReg = s.crcReg := rfl
@[simp] theorem complete_tick (k : Kind) (s : State) : (s.complete k).tick = s.tick := rfl
@[simp] theorem complete_txReady (k : Kind) (s : State) : (s.complete k).txReady = s.txReady := rfl
@[simp] theorem complete_rxValid (k : Kind) (s : State) : (s.complete k).rxValid = s.rxValid := rfl
@[simp] theorem complete_txStream (k : Kind) (s : State) : (s.complete k).txStream = s.txStream := rfl
@[simp] theorem complete_rxStream (k : Kind) (s : State) : (s.complete k).rxStream = s.rxStream := rfl
@[simp] theorem complete_inputs (k : Kind) (s : State) : (s.complete k).inputs = s.inputs := rfl
@[simp] theorem complete_hostData (k : Kind) (s : State) : (s.complete k).hostData = s.hostData := rfl
@[simp] theorem complete_draws (k : Kind) (s : State) : (s.complete k).draws = s.draws := rfl

/-! ### `State.refuseWrite` -/

@[simp] theorem refuseWrite_params (s : State) : (s.refuseWrite).params = s.params := rfl
@[simp] theorem refuseWrite_busy (s : State) : (s.refuseWrite).busy = s.busy := rfl
@[simp] theorem refuseWrite_done (s : State) : (s.refuseWrite).done = s.done := rfl
@[simp] theorem refuseWrite_result (s : State) : (s.refuseWrite).result = s.result := rfl
@[simp] theorem refuseWrite_cause (s : State) : (s.refuseWrite).cause = s.cause := rfl
@[simp] theorem refuseWrite_exc (s : State) : (s.refuseWrite).exc = s.exc := rfl
@[simp] theorem refuseWrite_dfValid (s : State) : (s.refuseWrite).dfValid = s.dfValid := rfl
@[simp] theorem refuseWrite_textValid (s : State) : (s.refuseWrite).textValid = s.textValid := rfl
@[simp] theorem refuseWrite_utf8Err (s : State) : (s.refuseWrite).utf8Err = s.utf8Err := rfl
@[simp] theorem refuseWrite_ovr (s : State) : (s.refuseWrite).ovr = true := rfl
@[simp] theorem refuseWrite_attempts (s : State) : (s.refuseWrite).attempts = s.attempts := rfl
@[simp] theorem refuseWrite_mode (s : State) : (s.refuseWrite).mode = s.mode := rfl
@[simp] theorem refuseWrite_timeout (s : State) : (s.refuseWrite).timeout = s.timeout := rfl
@[simp] theorem refuseWrite_retries (s : State) : (s.refuseWrite).retries = s.retries := rfl
@[simp] theorem refuseWrite_ownAddr (s : State) : (s.refuseWrite).ownAddr = s.ownAddr := rfl
@[simp] theorem refuseWrite_efAddr (s : State) : (s.refuseWrite).efAddr = s.efAddr := rfl
@[simp] theorem refuseWrite_efFc (s : State) : (s.refuseWrite).efFc = s.efFc := rfl
@[simp] theorem refuseWrite_efLen (s : State) : (s.refuseWrite).efLen = s.efLen := rfl
@[simp] theorem refuseWrite_dfAddr (s : State) : (s.refuseWrite).dfAddr = s.dfAddr := rfl
@[simp] theorem refuseWrite_dfFc (s : State) : (s.refuseWrite).dfFc = s.dfFc := rfl
@[simp] theorem refuseWrite_dfLen (s : State) : (s.refuseWrite).dfLen = s.dfLen := rfl
@[simp] theorem refuseWrite_chk (s : State) : (s.refuseWrite).chk = s.chk := rfl
@[simp] theorem refuseWrite_txLen (s : State) : (s.refuseWrite).txLen = s.txLen := rfl
@[simp] theorem refuseWrite_rxLen (s : State) : (s.refuseWrite).rxLen = s.rxLen := rfl
@[simp] theorem refuseWrite_textLen (s : State) : (s.refuseWrite).textLen = s.textLen := rfl
@[simp] theorem refuseWrite_efPayload (s : State) : (s.refuseWrite).efPayload = s.efPayload := rfl
@[simp] theorem refuseWrite_txBuf (s : State) : (s.refuseWrite).txBuf = s.txBuf := rfl
@[simp] theorem refuseWrite_rxBuf (s : State) : (s.refuseWrite).rxBuf = s.rxBuf := rfl
@[simp] theorem refuseWrite_dfPayload (s : State) : (s.refuseWrite).dfPayload = s.dfPayload := rfl
@[simp] theorem refuseWrite_text (s : State) : (s.refuseWrite).text = s.text := rfl
@[simp] theorem refuseWrite_teState (s : State) : (s.refuseWrite).teState = s.teState := rfl
@[simp] theorem refuseWrite_retryCnt (s : State) : (s.refuseWrite).retryCnt = s.retryCnt := rfl
@[simp] theorem refuseWrite_timer (s : State) : (s.refuseWrite).timer = s.timer := rfl
@[simp] theorem refuseWrite_txPtr (s : State) : (s.refuseWrite).txPtr = s.txPtr := rfl
@[simp] theorem refuseWrite_curOp (s : State) : (s.refuseWrite).curOp = s.curOp := rfl
@[simp] theorem refuseWrite_lrcAcc (s : State) : (s.refuseWrite).lrcAcc = s.lrcAcc := rfl
@[simp] theorem refuseWrite_crcReg (s : State) : (s.refuseWrite).crcReg = s.crcReg := rfl
@[simp] theorem refuseWrite_tick (s : State) : (s.refuseWrite).tick = s.tick := rfl
@[simp] theorem refuseWrite_txReady (s : State) : (s.refuseWrite).txReady = s.txReady := rfl
@[simp] theorem refuseWrite_rxValid (s : State) : (s.refuseWrite).rxValid = s.rxValid := rfl
@[simp] theorem refuseWrite_txStream (s : State) : (s.refuseWrite).txStream = s.txStream := rfl
@[simp] theorem refuseWrite_rxStream (s : State) : (s.refuseWrite).rxStream = s.rxStream := rfl
@[simp] theorem refuseWrite_inputs (s : State) : (s.refuseWrite).inputs = s.inputs := rfl
@[simp] theorem refuseWrite_hostData (s : State) : (s.refuseWrite).hostData = s.hostData := rfl
@[simp] theorem refuseWrite_draws (s : State) : (s.refuseWrite).draws = s.draws := rfl

/-! ### `State.loadTx` -/

@[simp] theorem loadTx_params (tx : List Byte) (s : State) : (s.loadTx tx).params = s.params := rfl
@[simp] theorem loadTx_busy (tx : List Byte) (s : State) : (s.loadTx tx).busy = s.busy := rfl
@[simp] theorem loadTx_done (tx : List Byte) (s : State) : (s.loadTx tx).done = s.done := rfl
@[simp] theorem loadTx_result (tx : List Byte) (s : State) : (s.loadTx tx).result = s.result := rfl
@[simp] theorem loadTx_cause (tx : List Byte) (s : State) : (s.loadTx tx).cause = s.cause := rfl
@[simp] theorem loadTx_exc (tx : List Byte) (s : State) : (s.loadTx tx).exc = s.exc := rfl
@[simp] theorem loadTx_dfValid (tx : List Byte) (s : State) : (s.loadTx tx).dfValid = s.dfValid := rfl
@[simp] theorem loadTx_textValid (tx : List Byte) (s : State) : (s.loadTx tx).textValid = s.textValid := rfl
@[simp] theorem loadTx_utf8Err (tx : List Byte) (s : State) : (s.loadTx tx).utf8Err = s.utf8Err := rfl
@[simp] theorem loadTx_ovr (tx : List Byte) (s : State) : (s.loadTx tx).ovr = s.ovr := rfl
@[simp] theorem loadTx_attempts (tx : List Byte) (s : State) : (s.loadTx tx).attempts = s.attempts := rfl
@[simp] theorem loadTx_mode (tx : List Byte) (s : State) : (s.loadTx tx).mode = s.mode := rfl
@[simp] theorem loadTx_timeout (tx : List Byte) (s : State) : (s.loadTx tx).timeout = s.timeout := rfl
@[simp] theorem loadTx_retries (tx : List Byte) (s : State) : (s.loadTx tx).retries = s.retries := rfl
@[simp] theorem loadTx_ownAddr (tx : List Byte) (s : State) : (s.loadTx tx).ownAddr = s.ownAddr := rfl
@[simp] theorem loadTx_efAddr (tx : List Byte) (s : State) : (s.loadTx tx).efAddr = s.efAddr := rfl
@[simp] theorem loadTx_efFc (tx : List Byte) (s : State) : (s.loadTx tx).efFc = s.efFc := rfl
@[simp] theorem loadTx_efLen (tx : List Byte) (s : State) : (s.loadTx tx).efLen = s.efLen := rfl
@[simp] theorem loadTx_dfAddr (tx : List Byte) (s : State) : (s.loadTx tx).dfAddr = s.dfAddr := rfl
@[simp] theorem loadTx_dfFc (tx : List Byte) (s : State) : (s.loadTx tx).dfFc = s.dfFc := rfl
@[simp] theorem loadTx_dfLen (tx : List Byte) (s : State) : (s.loadTx tx).dfLen = s.dfLen := rfl
@[simp] theorem loadTx_chk (tx : List Byte) (s : State) : (s.loadTx tx).chk = s.chk := rfl
@[simp] theorem loadTx_txLen (tx : List Byte) (s : State) : (s.loadTx tx).txLen = BitVec.ofNat 16 tx.length := rfl
@[simp] theorem loadTx_rxLen (tx : List Byte) (s : State) : (s.loadTx tx).rxLen = s.rxLen := rfl
@[simp] theorem loadTx_textLen (tx : List Byte) (s : State) : (s.loadTx tx).textLen = s.textLen := rfl
@[simp] theorem loadTx_efPayload (tx : List Byte) (s : State) : (s.loadTx tx).efPayload = s.efPayload := rfl
@[simp] theorem loadTx_txBuf (tx : List Byte) (s : State) : (s.loadTx tx).txBuf = Memory.ofBytes tx := rfl
@[simp] theorem loadTx_rxBuf (tx : List Byte) (s : State) : (s.loadTx tx).rxBuf = s.rxBuf := rfl
@[simp] theorem loadTx_dfPayload (tx : List Byte) (s : State) : (s.loadTx tx).dfPayload = s.dfPayload := rfl
@[simp] theorem loadTx_text (tx : List Byte) (s : State) : (s.loadTx tx).text = s.text := rfl
@[simp] theorem loadTx_teState (tx : List Byte) (s : State) : (s.loadTx tx).teState = s.teState := rfl
@[simp] theorem loadTx_retryCnt (tx : List Byte) (s : State) : (s.loadTx tx).retryCnt = s.retryCnt := rfl
@[simp] theorem loadTx_timer (tx : List Byte) (s : State) : (s.loadTx tx).timer = s.timer := rfl
@[simp] theorem loadTx_txPtr (tx : List Byte) (s : State) : (s.loadTx tx).txPtr = s.txPtr := rfl
@[simp] theorem loadTx_curOp (tx : List Byte) (s : State) : (s.loadTx tx).curOp = s.curOp := rfl
@[simp] theorem loadTx_lrcAcc (tx : List Byte) (s : State) : (s.loadTx tx).lrcAcc = s.lrcAcc := rfl
@[simp] theorem loadTx_crcReg (tx : List Byte) (s : State) : (s.loadTx tx).crcReg = s.crcReg := rfl
@[simp] theorem loadTx_tick (tx : List Byte) (s : State) : (s.loadTx tx).tick = s.tick := rfl
@[simp] theorem loadTx_txReady (tx : List Byte) (s : State) : (s.loadTx tx).txReady = s.txReady := rfl
@[simp] theorem loadTx_rxValid (tx : List Byte) (s : State) : (s.loadTx tx).rxValid = s.rxValid := rfl
@[simp] theorem loadTx_txStream (tx : List Byte) (s : State) : (s.loadTx tx).txStream = s.txStream := rfl
@[simp] theorem loadTx_rxStream (tx : List Byte) (s : State) : (s.loadTx tx).rxStream = s.rxStream := rfl
@[simp] theorem loadTx_inputs (tx : List Byte) (s : State) : (s.loadTx tx).inputs = s.inputs := rfl
@[simp] theorem loadTx_hostData (tx : List Byte) (s : State) : (s.loadTx tx).hostData = s.hostData := rfl
@[simp] theorem loadTx_draws (tx : List Byte) (s : State) : (s.loadTx tx).draws = s.draws := rfl

/-! ### `State.loadEf` -/

@[simp] theorem loadEf_params (a f : Byte) (p : List Byte) (s : State) : (s.loadEf a f p).params = s.params := rfl
@[simp] theorem loadEf_busy (a f : Byte) (p : List Byte) (s : State) : (s.loadEf a f p).busy = s.busy := rfl
@[simp] theorem loadEf_done (a f : Byte) (p : List Byte) (s : State) : (s.loadEf a f p).done = s.done := rfl
@[simp] theorem loadEf_result (a f : Byte) (p : List Byte) (s : State) : (s.loadEf a f p).result = s.result := rfl
@[simp] theorem loadEf_cause (a f : Byte) (p : List Byte) (s : State) : (s.loadEf a f p).cause = s.cause := rfl
@[simp] theorem loadEf_exc (a f : Byte) (p : List Byte) (s : State) : (s.loadEf a f p).exc = s.exc := rfl
@[simp] theorem loadEf_dfValid (a f : Byte) (p : List Byte) (s : State) : (s.loadEf a f p).dfValid = s.dfValid := rfl
@[simp] theorem loadEf_textValid (a f : Byte) (p : List Byte) (s : State) :
    (s.loadEf a f p).textValid = s.textValid := rfl
@[simp] theorem loadEf_utf8Err (a f : Byte) (p : List Byte) (s : State) : (s.loadEf a f p).utf8Err = s.utf8Err := rfl
@[simp] theorem loadEf_ovr (a f : Byte) (p : List Byte) (s : State) : (s.loadEf a f p).ovr = s.ovr := rfl
@[simp] theorem loadEf_attempts (a f : Byte) (p : List Byte) (s : State) :
    (s.loadEf a f p).attempts = s.attempts := rfl
@[simp] theorem loadEf_mode (a f : Byte) (p : List Byte) (s : State) : (s.loadEf a f p).mode = s.mode := rfl
@[simp] theorem loadEf_timeout (a f : Byte) (p : List Byte) (s : State) : (s.loadEf a f p).timeout = s.timeout := rfl
@[simp] theorem loadEf_retries (a f : Byte) (p : List Byte) (s : State) : (s.loadEf a f p).retries = s.retries := rfl
@[simp] theorem loadEf_ownAddr (a f : Byte) (p : List Byte) (s : State) : (s.loadEf a f p).ownAddr = s.ownAddr := rfl
@[simp] theorem loadEf_efAddr (a f : Byte) (p : List Byte) (s : State) : (s.loadEf a f p).efAddr = a := rfl
@[simp] theorem loadEf_efFc (a f : Byte) (p : List Byte) (s : State) : (s.loadEf a f p).efFc = f := rfl
@[simp] theorem loadEf_efLen (a f : Byte) (p : List Byte) (s : State) :
    (s.loadEf a f p).efLen = BitVec.ofNat 16 p.length := rfl
@[simp] theorem loadEf_dfAddr (a f : Byte) (p : List Byte) (s : State) : (s.loadEf a f p).dfAddr = s.dfAddr := rfl
@[simp] theorem loadEf_dfFc (a f : Byte) (p : List Byte) (s : State) : (s.loadEf a f p).dfFc = s.dfFc := rfl
@[simp] theorem loadEf_dfLen (a f : Byte) (p : List Byte) (s : State) : (s.loadEf a f p).dfLen = s.dfLen := rfl
@[simp] theorem loadEf_chk (a f : Byte) (p : List Byte) (s : State) : (s.loadEf a f p).chk = s.chk := rfl
@[simp] theorem loadEf_txLen (a f : Byte) (p : List Byte) (s : State) : (s.loadEf a f p).txLen = s.txLen := rfl
@[simp] theorem loadEf_rxLen (a f : Byte) (p : List Byte) (s : State) : (s.loadEf a f p).rxLen = s.rxLen := rfl
@[simp] theorem loadEf_textLen (a f : Byte) (p : List Byte) (s : State) : (s.loadEf a f p).textLen = s.textLen := rfl
@[simp] theorem loadEf_efPayload (a f : Byte) (p : List Byte) (s : State) :
    (s.loadEf a f p).efPayload = Memory.ofBytes p := rfl
@[simp] theorem loadEf_txBuf (a f : Byte) (p : List Byte) (s : State) : (s.loadEf a f p).txBuf = s.txBuf := rfl
@[simp] theorem loadEf_rxBuf (a f : Byte) (p : List Byte) (s : State) : (s.loadEf a f p).rxBuf = s.rxBuf := rfl
@[simp] theorem loadEf_dfPayload (a f : Byte) (p : List Byte) (s : State) :
    (s.loadEf a f p).dfPayload = s.dfPayload := rfl
@[simp] theorem loadEf_text (a f : Byte) (p : List Byte) (s : State) : (s.loadEf a f p).text = s.text := rfl
@[simp] theorem loadEf_teState (a f : Byte) (p : List Byte) (s : State) : (s.loadEf a f p).teState = s.teState := rfl
@[simp] theorem loadEf_retryCnt (a f : Byte) (p : List Byte) (s : State) :
    (s.loadEf a f p).retryCnt = s.retryCnt := rfl
@[simp] theorem loadEf_timer (a f : Byte) (p : List Byte) (s : State) : (s.loadEf a f p).timer = s.timer := rfl
@[simp] theorem loadEf_txPtr (a f : Byte) (p : List Byte) (s : State) : (s.loadEf a f p).txPtr = s.txPtr := rfl
@[simp] theorem loadEf_curOp (a f : Byte) (p : List Byte) (s : State) : (s.loadEf a f p).curOp = s.curOp := rfl
@[simp] theorem loadEf_lrcAcc (a f : Byte) (p : List Byte) (s : State) : (s.loadEf a f p).lrcAcc = s.lrcAcc := rfl
@[simp] theorem loadEf_crcReg (a f : Byte) (p : List Byte) (s : State) : (s.loadEf a f p).crcReg = s.crcReg := rfl
@[simp] theorem loadEf_tick (a f : Byte) (p : List Byte) (s : State) : (s.loadEf a f p).tick = s.tick := rfl
@[simp] theorem loadEf_txReady (a f : Byte) (p : List Byte) (s : State) : (s.loadEf a f p).txReady = s.txReady := rfl
@[simp] theorem loadEf_rxValid (a f : Byte) (p : List Byte) (s : State) : (s.loadEf a f p).rxValid = s.rxValid := rfl
@[simp] theorem loadEf_txStream (a f : Byte) (p : List Byte) (s : State) :
    (s.loadEf a f p).txStream = s.txStream := rfl
@[simp] theorem loadEf_rxStream (a f : Byte) (p : List Byte) (s : State) :
    (s.loadEf a f p).rxStream = s.rxStream := rfl
@[simp] theorem loadEf_inputs (a f : Byte) (p : List Byte) (s : State) : (s.loadEf a f p).inputs = s.inputs := rfl
@[simp] theorem loadEf_hostData (a f : Byte) (p : List Byte) (s : State) :
    (s.loadEf a f p).hostData = s.hostData := rfl
@[simp] theorem loadEf_draws (a f : Byte) (p : List Byte) (s : State) : (s.loadEf a f p).draws = s.draws := rfl

/-! ### `State.loadDf` -/

@[simp] theorem loadDf_params (a f : Byte) (p : List Byte) (c : Half) (s : State) :
    (s.loadDf a f p c).params = s.params := rfl
@[simp] theorem loadDf_busy (a f : Byte) (p : List Byte) (c : Half) (s : State) :
    (s.loadDf a f p c).busy = s.busy := rfl
@[simp] theorem loadDf_done (a f : Byte) (p : List Byte) (c : Half) (s : State) :
    (s.loadDf a f p c).done = s.done := rfl
@[simp] theorem loadDf_result (a f : Byte) (p : List Byte) (c : Half) (s : State) :
    (s.loadDf a f p c).result = s.result := rfl
@[simp] theorem loadDf_cause (a f : Byte) (p : List Byte) (c : Half) (s : State) :
    (s.loadDf a f p c).cause = s.cause := rfl
@[simp] theorem loadDf_exc (a f : Byte) (p : List Byte) (c : Half) (s : State) :
    (s.loadDf a f p c).exc = f.getLsbD 7 := rfl
@[simp] theorem loadDf_dfValid (a f : Byte) (p : List Byte) (c : Half) (s : State) :
    (s.loadDf a f p c).dfValid = true := rfl
@[simp] theorem loadDf_textValid (a f : Byte) (p : List Byte) (c : Half) (s : State) :
    (s.loadDf a f p c).textValid = s.textValid := rfl
@[simp] theorem loadDf_utf8Err (a f : Byte) (p : List Byte) (c : Half) (s : State) :
    (s.loadDf a f p c).utf8Err = s.utf8Err := rfl
@[simp] theorem loadDf_ovr (a f : Byte) (p : List Byte) (c : Half) (s : State) : (s.loadDf a f p c).ovr = s.ovr := rfl
@[simp] theorem loadDf_attempts (a f : Byte) (p : List Byte) (c : Half) (s : State) :
    (s.loadDf a f p c).attempts = s.attempts := rfl
@[simp] theorem loadDf_mode (a f : Byte) (p : List Byte) (c : Half) (s : State) :
    (s.loadDf a f p c).mode = s.mode := rfl
@[simp] theorem loadDf_timeout (a f : Byte) (p : List Byte) (c : Half) (s : State) :
    (s.loadDf a f p c).timeout = s.timeout := rfl
@[simp] theorem loadDf_retries (a f : Byte) (p : List Byte) (c : Half) (s : State) :
    (s.loadDf a f p c).retries = s.retries := rfl
@[simp] theorem loadDf_ownAddr (a f : Byte) (p : List Byte) (c : Half) (s : State) :
    (s.loadDf a f p c).ownAddr = s.ownAddr := rfl
@[simp] theorem loadDf_efAddr (a f : Byte) (p : List Byte) (c : Half) (s : State) :
    (s.loadDf a f p c).efAddr = s.efAddr := rfl
@[simp] theorem loadDf_efFc (a f : Byte) (p : List Byte) (c : Half) (s : State) :
    (s.loadDf a f p c).efFc = s.efFc := rfl
@[simp] theorem loadDf_efLen (a f : Byte) (p : List Byte) (c : Half) (s : State) :
    (s.loadDf a f p c).efLen = s.efLen := rfl
@[simp] theorem loadDf_dfAddr (a f : Byte) (p : List Byte) (c : Half) (s : State) :
    (s.loadDf a f p c).dfAddr = a := rfl
@[simp] theorem loadDf_dfFc (a f : Byte) (p : List Byte) (c : Half) (s : State) : (s.loadDf a f p c).dfFc = f := rfl
@[simp] theorem loadDf_dfLen (a f : Byte) (p : List Byte) (c : Half) (s : State) :
    (s.loadDf a f p c).dfLen = BitVec.ofNat 16 p.length := rfl
@[simp] theorem loadDf_chk (a f : Byte) (p : List Byte) (c : Half) (s : State) : (s.loadDf a f p c).chk = c := rfl
@[simp] theorem loadDf_txLen (a f : Byte) (p : List Byte) (c : Half) (s : State) :
    (s.loadDf a f p c).txLen = s.txLen := rfl
@[simp] theorem loadDf_rxLen (a f : Byte) (p : List Byte) (c : Half) (s : State) :
    (s.loadDf a f p c).rxLen = s.rxLen := rfl
@[simp] theorem loadDf_textLen (a f : Byte) (p : List Byte) (c : Half) (s : State) :
    (s.loadDf a f p c).textLen = s.textLen := rfl
@[simp] theorem loadDf_efPayload (a f : Byte) (p : List Byte) (c : Half) (s : State) :
    (s.loadDf a f p c).efPayload = s.efPayload := rfl
@[simp] theorem loadDf_txBuf (a f : Byte) (p : List Byte) (c : Half) (s : State) :
    (s.loadDf a f p c).txBuf = s.txBuf := rfl
@[simp] theorem loadDf_rxBuf (a f : Byte) (p : List Byte) (c : Half) (s : State) :
    (s.loadDf a f p c).rxBuf = s.rxBuf := rfl
@[simp] theorem loadDf_dfPayload (a f : Byte) (p : List Byte) (c : Half) (s : State) :
    (s.loadDf a f p c).dfPayload = Memory.ofBytes p := rfl
@[simp] theorem loadDf_text (a f : Byte) (p : List Byte) (c : Half) (s : State) :
    (s.loadDf a f p c).text = s.text := rfl
@[simp] theorem loadDf_teState (a f : Byte) (p : List Byte) (c : Half) (s : State) :
    (s.loadDf a f p c).teState = s.teState := rfl
@[simp] theorem loadDf_retryCnt (a f : Byte) (p : List Byte) (c : Half) (s : State) :
    (s.loadDf a f p c).retryCnt = s.retryCnt := rfl
@[simp] theorem loadDf_timer (a f : Byte) (p : List Byte) (c : Half) (s : State) :
    (s.loadDf a f p c).timer = s.timer := rfl
@[simp] theorem loadDf_txPtr (a f : Byte) (p : List Byte) (c : Half) (s : State) :
    (s.loadDf a f p c).txPtr = s.txPtr := rfl
@[simp] theorem loadDf_curOp (a f : Byte) (p : List Byte) (c : Half) (s : State) :
    (s.loadDf a f p c).curOp = s.curOp := rfl
@[simp] theorem loadDf_lrcAcc (a f : Byte) (p : List Byte) (c : Half) (s : State) :
    (s.loadDf a f p c).lrcAcc = s.lrcAcc := rfl
@[simp] theorem loadDf_crcReg (a f : Byte) (p : List Byte) (c : Half) (s : State) :
    (s.loadDf a f p c).crcReg = s.crcReg := rfl
@[simp] theorem loadDf_tick (a f : Byte) (p : List Byte) (c : Half) (s : State) :
    (s.loadDf a f p c).tick = s.tick := rfl
@[simp] theorem loadDf_txReady (a f : Byte) (p : List Byte) (c : Half) (s : State) :
    (s.loadDf a f p c).txReady = s.txReady := rfl
@[simp] theorem loadDf_rxValid (a f : Byte) (p : List Byte) (c : Half) (s : State) :
    (s.loadDf a f p c).rxValid = s.rxValid := rfl
@[simp] theorem loadDf_txStream (a f : Byte) (p : List Byte) (c : Half) (s : State) :
    (s.loadDf a f p c).txStream = s.txStream := rfl
@[simp] theorem loadDf_rxStream (a f : Byte) (p : List Byte) (c : Half) (s : State) :
    (s.loadDf a f p c).rxStream = s.rxStream := rfl
@[simp] theorem loadDf_inputs (a f : Byte) (p : List Byte) (c : Half) (s : State) :
    (s.loadDf a f p c).inputs = s.inputs := rfl
@[simp] theorem loadDf_hostData (a f : Byte) (p : List Byte) (c : Half) (s : State) :
    (s.loadDf a f p c).hostData = s.hostData := rfl
@[simp] theorem loadDf_draws (a f : Byte) (p : List Byte) (c : Half) (s : State) :
    (s.loadDf a f p c).draws = s.draws := rfl

/-! ### `State.loseDf` -/

@[simp] theorem loseDf_params (s : State) : (s.loseDf).params = s.params := rfl
@[simp] theorem loseDf_busy (s : State) : (s.loseDf).busy = s.busy := rfl
@[simp] theorem loseDf_done (s : State) : (s.loseDf).done = s.done := rfl
@[simp] theorem loseDf_result (s : State) : (s.loseDf).result = s.result := rfl
@[simp] theorem loseDf_cause (s : State) : (s.loseDf).cause = s.cause := rfl
@[simp] theorem loseDf_exc (s : State) : (s.loseDf).exc = false := rfl
@[simp] theorem loseDf_dfValid (s : State) : (s.loseDf).dfValid = false := rfl
@[simp] theorem loseDf_textValid (s : State) : (s.loseDf).textValid = s.textValid := rfl
@[simp] theorem loseDf_utf8Err (s : State) : (s.loseDf).utf8Err = s.utf8Err := rfl
@[simp] theorem loseDf_ovr (s : State) : (s.loseDf).ovr = s.ovr := rfl
@[simp] theorem loseDf_attempts (s : State) : (s.loseDf).attempts = s.attempts := rfl
@[simp] theorem loseDf_mode (s : State) : (s.loseDf).mode = s.mode := rfl
@[simp] theorem loseDf_timeout (s : State) : (s.loseDf).timeout = s.timeout := rfl
@[simp] theorem loseDf_retries (s : State) : (s.loseDf).retries = s.retries := rfl
@[simp] theorem loseDf_ownAddr (s : State) : (s.loseDf).ownAddr = s.ownAddr := rfl
@[simp] theorem loseDf_efAddr (s : State) : (s.loseDf).efAddr = s.efAddr := rfl
@[simp] theorem loseDf_efFc (s : State) : (s.loseDf).efFc = s.efFc := rfl
@[simp] theorem loseDf_efLen (s : State) : (s.loseDf).efLen = s.efLen := rfl
@[simp] theorem loseDf_chk (s : State) : (s.loseDf).chk = s.chk := rfl
@[simp] theorem loseDf_txLen (s : State) : (s.loseDf).txLen = s.txLen := rfl
@[simp] theorem loseDf_rxLen (s : State) : (s.loseDf).rxLen = s.rxLen := rfl
@[simp] theorem loseDf_textLen (s : State) : (s.loseDf).textLen = s.textLen := rfl
@[simp] theorem loseDf_efPayload (s : State) : (s.loseDf).efPayload = s.efPayload := rfl
@[simp] theorem loseDf_txBuf (s : State) : (s.loseDf).txBuf = s.txBuf := rfl
@[simp] theorem loseDf_rxBuf (s : State) : (s.loseDf).rxBuf = s.rxBuf := rfl
@[simp] theorem loseDf_dfPayload (s : State) : (s.loseDf).dfPayload = [] := rfl
@[simp] theorem loseDf_text (s : State) : (s.loseDf).text = s.text := rfl
@[simp] theorem loseDf_teState (s : State) : (s.loseDf).teState = s.teState := rfl
@[simp] theorem loseDf_retryCnt (s : State) : (s.loseDf).retryCnt = s.retryCnt := rfl
@[simp] theorem loseDf_timer (s : State) : (s.loseDf).timer = s.timer := rfl
@[simp] theorem loseDf_txPtr (s : State) : (s.loseDf).txPtr = s.txPtr := rfl
@[simp] theorem loseDf_curOp (s : State) : (s.loseDf).curOp = s.curOp := rfl
@[simp] theorem loseDf_lrcAcc (s : State) : (s.loseDf).lrcAcc = s.lrcAcc := rfl
@[simp] theorem loseDf_crcReg (s : State) : (s.loseDf).crcReg = s.crcReg := rfl
@[simp] theorem loseDf_tick (s : State) : (s.loseDf).tick = s.tick := rfl
@[simp] theorem loseDf_txReady (s : State) : (s.loseDf).txReady = s.txReady := rfl
@[simp] theorem loseDf_rxValid (s : State) : (s.loseDf).rxValid = s.rxValid := rfl
@[simp] theorem loseDf_txStream (s : State) : (s.loseDf).txStream = s.txStream := rfl
@[simp] theorem loseDf_rxStream (s : State) : (s.loseDf).rxStream = s.rxStream := rfl
@[simp] theorem loseDf_inputs (s : State) : (s.loseDf).inputs = s.inputs := rfl
@[simp] theorem loseDf_hostData (s : State) : (s.loseDf).hostData = s.hostData := rfl
@[simp] theorem loseDf_draws (s : State) : (s.loseDf).draws = s.draws + 3 := rfl

/-! ### `State.loadText` -/

@[simp] theorem loadText_params (q : List Byte) (s : State) : (s.loadText q).params = s.params := rfl
@[simp] theorem loadText_busy (q : List Byte) (s : State) : (s.loadText q).busy = s.busy := rfl
@[simp] theorem loadText_done (q : List Byte) (s : State) : (s.loadText q).done = s.done := rfl
@[simp] theorem loadText_result (q : List Byte) (s : State) : (s.loadText q).result = s.result := rfl
@[simp] theorem loadText_cause (q : List Byte) (s : State) : (s.loadText q).cause = s.cause := rfl
@[simp] theorem loadText_exc (q : List Byte) (s : State) : (s.loadText q).exc = s.exc := rfl
@[simp] theorem loadText_dfValid (q : List Byte) (s : State) : (s.loadText q).dfValid = s.dfValid := rfl
@[simp] theorem loadText_textValid (q : List Byte) (s : State) : (s.loadText q).textValid = s.textValid := rfl
@[simp] theorem loadText_utf8Err (q : List Byte) (s : State) : (s.loadText q).utf8Err = s.utf8Err := rfl
@[simp] theorem loadText_ovr (q : List Byte) (s : State) : (s.loadText q).ovr = s.ovr := rfl
@[simp] theorem loadText_attempts (q : List Byte) (s : State) : (s.loadText q).attempts = s.attempts := rfl
@[simp] theorem loadText_mode (q : List Byte) (s : State) : (s.loadText q).mode = s.mode := rfl
@[simp] theorem loadText_timeout (q : List Byte) (s : State) : (s.loadText q).timeout = s.timeout := rfl
@[simp] theorem loadText_retries (q : List Byte) (s : State) : (s.loadText q).retries = s.retries := rfl
@[simp] theorem loadText_ownAddr (q : List Byte) (s : State) : (s.loadText q).ownAddr = s.ownAddr := rfl
@[simp] theorem loadText_efAddr (q : List Byte) (s : State) : (s.loadText q).efAddr = s.efAddr := rfl
@[simp] theorem loadText_efFc (q : List Byte) (s : State) : (s.loadText q).efFc = s.efFc := rfl
@[simp] theorem loadText_efLen (q : List Byte) (s : State) : (s.loadText q).efLen = s.efLen := rfl
@[simp] theorem loadText_dfAddr (q : List Byte) (s : State) : (s.loadText q).dfAddr = s.dfAddr := rfl
@[simp] theorem loadText_dfFc (q : List Byte) (s : State) : (s.loadText q).dfFc = s.dfFc := rfl
@[simp] theorem loadText_dfLen (q : List Byte) (s : State) : (s.loadText q).dfLen = s.dfLen := rfl
@[simp] theorem loadText_chk (q : List Byte) (s : State) : (s.loadText q).chk = s.chk := rfl
@[simp] theorem loadText_txLen (q : List Byte) (s : State) : (s.loadText q).txLen = s.txLen := rfl
@[simp] theorem loadText_rxLen (q : List Byte) (s : State) : (s.loadText q).rxLen = s.rxLen := rfl
@[simp] theorem loadText_textLen (q : List Byte) (s : State) :
    (s.loadText q).textLen = BitVec.ofNat 16 q.length := rfl
@[simp] theorem loadText_efPayload (q : List Byte) (s : State) : (s.loadText q).efPayload = s.efPayload := rfl
@[simp] theorem loadText_txBuf (q : List Byte) (s : State) : (s.loadText q).txBuf = s.txBuf := rfl
@[simp] theorem loadText_rxBuf (q : List Byte) (s : State) : (s.loadText q).rxBuf = s.rxBuf := rfl
@[simp] theorem loadText_dfPayload (q : List Byte) (s : State) : (s.loadText q).dfPayload = s.dfPayload := rfl
@[simp] theorem loadText_text (q : List Byte) (s : State) : (s.loadText q).text = Memory.ofBytes q := rfl
@[simp] theorem loadText_teState (q : List Byte) (s : State) : (s.loadText q).teState = s.teState := rfl
@[simp] theorem loadText_retryCnt (q : List Byte) (s : State) : (s.loadText q).retryCnt = s.retryCnt := rfl
@[simp] theorem loadText_timer (q : List Byte) (s : State) : (s.loadText q).timer = s.timer := rfl
@[simp] theorem loadText_txPtr (q : List Byte) (s : State) : (s.loadText q).txPtr = s.txPtr := rfl
@[simp] theorem loadText_curOp (q : List Byte) (s : State) : (s.loadText q).curOp = s.curOp := rfl
@[simp] theorem loadText_lrcAcc (q : List Byte) (s : State) : (s.loadText q).lrcAcc = s.lrcAcc := rfl
@[simp] theorem loadText_crcReg (q : List Byte) (s : State) : (s.loadText q).crcReg = s.crcReg := rfl
@[simp] theorem loadText_tick (q : List Byte) (s : State) : (s.loadText q).tick = s.tick := rfl
@[simp] theorem loadText_txReady (q : List Byte) (s : State) : (s.loadText q).txReady = s.txReady := rfl
@[simp] theorem loadText_rxValid (q : List Byte) (s : State) : (s.loadText q).rxValid = s.rxValid := rfl
@[simp] theorem loadText_txStream (q : List Byte) (s : State) : (s.loadText q).txStream = s.txStream := rfl
@[simp] theorem loadText_rxStream (q : List Byte) (s : State) : (s.loadText q).rxStream = s.rxStream := rfl
@[simp] theorem loadText_inputs (q : List Byte) (s : State) : (s.loadText q).inputs = s.inputs := rfl
@[simp] theorem loadText_hostData (q : List Byte) (s : State) : (s.loadText q).hostData = s.hostData := rfl
@[simp] theorem loadText_draws (q : List Byte) (s : State) : (s.loadText q).draws = s.draws := rfl

/-! ### `State.beginHandle` -/

@[simp] theorem beginHandle_params (s : State) : (s.beginHandle).params = s.params := rfl
@[simp] theorem beginHandle_busy (s : State) : (s.beginHandle).busy = s.busy := rfl
@[simp] theorem beginHandle_done (s : State) : (s.beginHandle).done = s.done := rfl
@[simp] theorem beginHandle_result (s : State) : (s.beginHandle).result = s.result := rfl
@[simp] theorem beginHandle_cause (s : State) : (s.beginHandle).cause = s.cause := rfl
@[simp] theorem beginHandle_exc (s : State) : (s.beginHandle).exc = s.exc := rfl
@[simp] theorem beginHandle_dfValid (s : State) : (s.beginHandle).dfValid = s.dfValid := rfl
@[simp] theorem beginHandle_textValid (s : State) : (s.beginHandle).textValid = s.textValid := rfl
@[simp] theorem beginHandle_utf8Err (s : State) : (s.beginHandle).utf8Err = s.utf8Err := rfl
@[simp] theorem beginHandle_ovr (s : State) : (s.beginHandle).ovr = s.ovr := rfl
@[simp] theorem beginHandle_attempts (s : State) : (s.beginHandle).attempts = s.attempts := rfl
@[simp] theorem beginHandle_mode (s : State) : (s.beginHandle).mode = s.mode := rfl
@[simp] theorem beginHandle_timeout (s : State) : (s.beginHandle).timeout = s.timeout := rfl
@[simp] theorem beginHandle_retries (s : State) : (s.beginHandle).retries = s.retries := rfl
@[simp] theorem beginHandle_ownAddr (s : State) : (s.beginHandle).ownAddr = s.ownAddr := rfl
@[simp] theorem beginHandle_efAddr (s : State) : (s.beginHandle).efAddr = s.efAddr := rfl
@[simp] theorem beginHandle_efFc (s : State) : (s.beginHandle).efFc = s.efFc := rfl
@[simp] theorem beginHandle_efLen (s : State) : (s.beginHandle).efLen = s.efLen := rfl
@[simp] theorem beginHandle_dfAddr (s : State) : (s.beginHandle).dfAddr = s.dfAddr := rfl
@[simp] theorem beginHandle_dfFc (s : State) : (s.beginHandle).dfFc = s.dfFc := rfl
@[simp] theorem beginHandle_dfLen (s : State) : (s.beginHandle).dfLen = s.dfLen := rfl
@[simp] theorem beginHandle_chk (s : State) : (s.beginHandle).chk = s.chk := rfl
@[simp] theorem beginHandle_txLen (s : State) : (s.beginHandle).txLen = 0 := rfl
@[simp] theorem beginHandle_rxLen (s : State) : (s.beginHandle).rxLen = s.rxLen := rfl
@[simp] theorem beginHandle_textLen (s : State) : (s.beginHandle).textLen = s.textLen := rfl
@[simp] theorem beginHandle_efPayload (s : State) :
    (s.beginHandle).efPayload = s.efPayload.keepBelow s.efLen.toNat := rfl
@[simp] theorem beginHandle_txBuf (s : State) : (s.beginHandle).txBuf = [] := rfl
@[simp] theorem beginHandle_rxBuf (s : State) : (s.beginHandle).rxBuf = s.rxBuf := rfl
@[simp] theorem beginHandle_dfPayload (s : State) : (s.beginHandle).dfPayload = s.dfPayload := rfl
@[simp] theorem beginHandle_text (s : State) : (s.beginHandle).text = s.text := rfl
@[simp] theorem beginHandle_teState (s : State) : (s.beginHandle).teState = s.teState := rfl
@[simp] theorem beginHandle_retryCnt (s : State) : (s.beginHandle).retryCnt = s.retryCnt := rfl
@[simp] theorem beginHandle_timer (s : State) : (s.beginHandle).timer = s.timer := rfl
@[simp] theorem beginHandle_txPtr (s : State) : (s.beginHandle).txPtr = s.txPtr := rfl
@[simp] theorem beginHandle_curOp (s : State) : (s.beginHandle).curOp = s.curOp := rfl
@[simp] theorem beginHandle_lrcAcc (s : State) : (s.beginHandle).lrcAcc = s.lrcAcc := rfl
@[simp] theorem beginHandle_crcReg (s : State) : (s.beginHandle).crcReg = s.crcReg := rfl
@[simp] theorem beginHandle_tick (s : State) : (s.beginHandle).tick = s.tick := rfl
@[simp] theorem beginHandle_txReady (s : State) : (s.beginHandle).txReady = s.txReady := rfl
@[simp] theorem beginHandle_rxValid (s : State) : (s.beginHandle).rxValid = s.rxValid := rfl
@[simp] theorem beginHandle_txStream (s : State) : (s.beginHandle).txStream = s.txStream := rfl
@[simp] theorem beginHandle_rxStream (s : State) : (s.beginHandle).rxStream = s.rxStream := rfl
@[simp] theorem beginHandle_inputs (s : State) : (s.beginHandle).inputs = s.inputs := rfl
@[simp] theorem beginHandle_hostData (s : State) : (s.beginHandle).hostData = s.hostData := rfl
@[simp] theorem beginHandle_draws (s : State) : (s.beginHandle).draws = s.draws := rfl

/-! ### `State.setTextFlags` -/

@[simp] theorem setTextFlags_params (s : State) : (s.setTextFlags).params = s.params := rfl
@[simp] theorem setTextFlags_busy (s : State) : (s.setTextFlags).busy = s.busy := rfl
@[simp] theorem setTextFlags_done (s : State) : (s.setTextFlags).done = s.done := rfl
@[simp] theorem setTextFlags_result (s : State) : (s.setTextFlags).result = s.result := rfl
@[simp] theorem setTextFlags_cause (s : State) : (s.setTextFlags).cause = s.cause := rfl
@[simp] theorem setTextFlags_exc (s : State) : (s.setTextFlags).exc = s.exc := rfl
@[simp] theorem setTextFlags_dfValid (s : State) : (s.setTextFlags).dfValid = s.dfValid := rfl
@[simp] theorem setTextFlags_textValid (s : State) : (s.setTextFlags).textValid = utf8Ok s.params s.dfBytes := rfl
@[simp] theorem setTextFlags_utf8Err (s : State) : (s.setTextFlags).utf8Err = !utf8Ok s.params s.dfBytes := rfl
@[simp] theorem setTextFlags_ovr (s : State) : (s.setTextFlags).ovr = s.ovr := rfl
@[simp] theorem setTextFlags_attempts (s : State) : (s.setTextFlags).attempts = s.attempts := rfl
@[simp] theorem setTextFlags_mode (s : State) : (s.setTextFlags).mode = s.mode := rfl
@[simp] theorem setTextFlags_timeout (s : State) : (s.setTextFlags).timeout = s.timeout := rfl
@[simp] theorem setTextFlags_retries (s : State) : (s.setTextFlags).retries = s.retries := rfl
@[simp] theorem setTextFlags_ownAddr (s : State) : (s.setTextFlags).ownAddr = s.ownAddr := rfl
@[simp] theorem setTextFlags_efAddr (s : State) : (s.setTextFlags).efAddr = s.efAddr := rfl
@[simp] theorem setTextFlags_efFc (s : State) : (s.setTextFlags).efFc = s.efFc := rfl
@[simp] theorem setTextFlags_efLen (s : State) : (s.setTextFlags).efLen = s.efLen := rfl
@[simp] theorem setTextFlags_dfAddr (s : State) : (s.setTextFlags).dfAddr = s.dfAddr := rfl
@[simp] theorem setTextFlags_dfFc (s : State) : (s.setTextFlags).dfFc = s.dfFc := rfl
@[simp] theorem setTextFlags_dfLen (s : State) : (s.setTextFlags).dfLen = s.dfLen := rfl
@[simp] theorem setTextFlags_chk (s : State) : (s.setTextFlags).chk = s.chk := rfl
@[simp] theorem setTextFlags_txLen (s : State) : (s.setTextFlags).txLen = s.txLen := rfl
@[simp] theorem setTextFlags_rxLen (s : State) : (s.setTextFlags).rxLen = s.rxLen := rfl
@[simp] theorem setTextFlags_textLen (s : State) : (s.setTextFlags).textLen = s.textLen := rfl
@[simp] theorem setTextFlags_efPayload (s : State) : (s.setTextFlags).efPayload = s.efPayload := rfl
@[simp] theorem setTextFlags_txBuf (s : State) : (s.setTextFlags).txBuf = s.txBuf := rfl
@[simp] theorem setTextFlags_rxBuf (s : State) : (s.setTextFlags).rxBuf = s.rxBuf := rfl
@[simp] theorem setTextFlags_dfPayload (s : State) : (s.setTextFlags).dfPayload = s.dfPayload := rfl
@[simp] theorem setTextFlags_text (s : State) : (s.setTextFlags).text = s.text := rfl
@[simp] theorem setTextFlags_teState (s : State) : (s.setTextFlags).teState = s.teState := rfl
@[simp] theorem setTextFlags_retryCnt (s : State) : (s.setTextFlags).retryCnt = s.retryCnt := rfl
@[simp] theorem setTextFlags_timer (s : State) : (s.setTextFlags).timer = s.timer := rfl
@[simp] theorem setTextFlags_txPtr (s : State) : (s.setTextFlags).txPtr = s.txPtr := rfl
@[simp] theorem setTextFlags_curOp (s : State) : (s.setTextFlags).curOp = s.curOp := rfl
@[simp] theorem setTextFlags_lrcAcc (s : State) : (s.setTextFlags).lrcAcc = s.lrcAcc := rfl
@[simp] theorem setTextFlags_crcReg (s : State) : (s.setTextFlags).crcReg = s.crcReg := rfl
@[simp] theorem setTextFlags_tick (s : State) : (s.setTextFlags).tick = s.tick := rfl
@[simp] theorem setTextFlags_txReady (s : State) : (s.setTextFlags).txReady = s.txReady := rfl
@[simp] theorem setTextFlags_rxValid (s : State) : (s.setTextFlags).rxValid = s.rxValid := rfl
@[simp] theorem setTextFlags_txStream (s : State) : (s.setTextFlags).txStream = s.txStream := rfl
@[simp] theorem setTextFlags_rxStream (s : State) : (s.setTextFlags).rxStream = s.rxStream := rfl
@[simp] theorem setTextFlags_inputs (s : State) : (s.setTextFlags).inputs = s.inputs := rfl
@[simp] theorem setTextFlags_hostData (s : State) : (s.setTextFlags).hostData = s.hostData := rfl
@[simp] theorem setTextFlags_draws (s : State) : (s.setTextFlags).draws = s.draws := rfl

/-! ### `State.runChecksum` -/

@[simp] theorem runChecksum_params (m : Encoding) (a f : Byte) (p : List Byte) (s : State) :
    (s.runChecksum m a f p).params = s.params := by cases m <;> rfl
@[simp] theorem runChecksum_busy (m : Encoding) (a f : Byte) (p : List Byte) (s : State) :
    (s.runChecksum m a f p).busy = s.busy := by cases m <;> rfl
@[simp] theorem runChecksum_done (m : Encoding) (a f : Byte) (p : List Byte) (s : State) :
    (s.runChecksum m a f p).done = s.done := by cases m <;> rfl
@[simp] theorem runChecksum_result (m : Encoding) (a f : Byte) (p : List Byte) (s : State) :
    (s.runChecksum m a f p).result = s.result := by cases m <;> rfl
@[simp] theorem runChecksum_cause (m : Encoding) (a f : Byte) (p : List Byte) (s : State) :
    (s.runChecksum m a f p).cause = s.cause := by cases m <;> rfl
@[simp] theorem runChecksum_exc (m : Encoding) (a f : Byte) (p : List Byte) (s : State) :
    (s.runChecksum m a f p).exc = s.exc := by cases m <;> rfl
@[simp] theorem runChecksum_dfValid (m : Encoding) (a f : Byte) (p : List Byte) (s : State) :
    (s.runChecksum m a f p).dfValid = s.dfValid := by cases m <;> rfl
@[simp] theorem runChecksum_textValid (m : Encoding) (a f : Byte) (p : List Byte) (s : State) :
    (s.runChecksum m a f p).textValid = s.textValid := by cases m <;> rfl
@[simp] theorem runChecksum_utf8Err (m : Encoding) (a f : Byte) (p : List Byte) (s : State) :
    (s.runChecksum m a f p).utf8Err = s.utf8Err := by cases m <;> rfl
@[simp] theorem runChecksum_ovr (m : Encoding) (a f : Byte) (p : List Byte) (s : State) :
    (s.runChecksum m a f p).ovr = s.ovr := by cases m <;> rfl
@[simp] theorem runChecksum_attempts (m : Encoding) (a f : Byte) (p : List Byte) (s : State) :
    (s.runChecksum m a f p).attempts = s.attempts := by cases m <;> rfl
@[simp] theorem runChecksum_mode (m : Encoding) (a f : Byte) (p : List Byte) (s : State) :
    (s.runChecksum m a f p).mode = s.mode := by cases m <;> rfl
@[simp] theorem runChecksum_timeout (m : Encoding) (a f : Byte) (p : List Byte) (s : State) :
    (s.runChecksum m a f p).timeout = s.timeout := by cases m <;> rfl
@[simp] theorem runChecksum_retries (m : Encoding) (a f : Byte) (p : List Byte) (s : State) :
    (s.runChecksum m a f p).retries = s.retries := by cases m <;> rfl
@[simp] theorem runChecksum_ownAddr (m : Encoding) (a f : Byte) (p : List Byte) (s : State) :
    (s.runChecksum m a f p).ownAddr = s.ownAddr := by cases m <;> rfl
@[simp] theorem runChecksum_efAddr (m : Encoding) (a f : Byte) (p : List Byte) (s : State) :
    (s.runChecksum m a f p).efAddr = s.efAddr := by cases m <;> rfl
@[simp] theorem runChecksum_efFc (m : Encoding) (a f : Byte) (p : List Byte) (s : State) :
    (s.runChecksum m a f p).efFc = s.efFc := by cases m <;> rfl
@[simp] theorem runChecksum_efLen (m : Encoding) (a f : Byte) (p : List Byte) (s : State) :
    (s.runChecksum m a f p).efLen = s.efLen := by cases m <;> rfl
@[simp] theorem runChecksum_dfAddr (m : Encoding) (a f : Byte) (p : List Byte) (s : State) :
    (s.runChecksum m a f p).dfAddr = s.dfAddr := by cases m <;> rfl
@[simp] theorem runChecksum_dfFc (m : Encoding) (a f : Byte) (p : List Byte) (s : State) :
    (s.runChecksum m a f p).dfFc = s.dfFc := by cases m <;> rfl
@[simp] theorem runChecksum_dfLen (m : Encoding) (a f : Byte) (p : List Byte) (s : State) :
    (s.runChecksum m a f p).dfLen = s.dfLen := by cases m <;> rfl
@[simp] theorem runChecksum_chk (m : Encoding) (a f : Byte) (p : List Byte) (s : State) :
    (s.runChecksum m a f p).chk = s.chk := by cases m <;> rfl
@[simp] theorem runChecksum_txLen (m : Encoding) (a f : Byte) (p : List Byte) (s : State) :
    (s.runChecksum m a f p).txLen = s.txLen := by cases m <;> rfl
@[simp] theorem runChecksum_rxLen (m : Encoding) (a f : Byte) (p : List Byte) (s : State) :
    (s.runChecksum m a f p).rxLen = s.rxLen := by cases m <;> rfl
@[simp] theorem runChecksum_textLen (m : Encoding) (a f : Byte) (p : List Byte) (s : State) :
    (s.runChecksum m a f p).textLen = s.textLen := by cases m <;> rfl
@[simp] theorem runChecksum_efPayload (m : Encoding) (a f : Byte) (p : List Byte) (s : State) :
    (s.runChecksum m a f p).efPayload = s.efPayload := by cases m <;> rfl
@[simp] theorem runChecksum_txBuf (m : Encoding) (a f : Byte) (p : List Byte) (s : State) :
    (s.runChecksum m a f p).txBuf = s.txBuf := by cases m <;> rfl
@[simp] theorem runChecksum_rxBuf (m : Encoding) (a f : Byte) (p : List Byte) (s : State) :
    (s.runChecksum m a f p).rxBuf = s.rxBuf := by cases m <;> rfl
@[simp] theorem runChecksum_dfPayload (m : Encoding) (a f : Byte) (p : List Byte) (s : State) :
    (s.runChecksum m a f p).dfPayload = s.dfPayload := by cases m <;> rfl
@[simp] theorem runChecksum_text (m : Encoding) (a f : Byte) (p : List Byte) (s : State) :
    (s.runChecksum m a f p).text = s.text := by cases m <;> rfl
@[simp] theorem runChecksum_teState (m : Encoding) (a f : Byte) (p : List Byte) (s : State) :
    (s.runChecksum m a f p).teState = s.teState := by cases m <;> rfl
@[simp] theorem runChecksum_retryCnt (m : Encoding) (a f : Byte) (p : List Byte) (s : State) :
    (s.runChecksum m a f p).retryCnt = s.retryCnt := by cases m <;> rfl
@[simp] theorem runChecksum_timer (m : Encoding) (a f : Byte) (p : List Byte) (s : State) :
    (s.runChecksum m a f p).timer = s.timer := by cases m <;> rfl
@[simp] theorem runChecksum_txPtr (m : Encoding) (a f : Byte) (p : List Byte) (s : State) :
    (s.runChecksum m a f p).txPtr = s.txPtr := by cases m <;> rfl
@[simp] theorem runChecksum_curOp (m : Encoding) (a f : Byte) (p : List Byte) (s : State) :
    (s.runChecksum m a f p).curOp = s.curOp := by cases m <;> rfl
@[simp] theorem runChecksum_tick (m : Encoding) (a f : Byte) (p : List Byte) (s : State) :
    (s.runChecksum m a f p).tick = s.tick := by cases m <;> rfl
@[simp] theorem runChecksum_txReady (m : Encoding) (a f : Byte) (p : List Byte) (s : State) :
    (s.runChecksum m a f p).txReady = s.txReady := by cases m <;> rfl
@[simp] theorem runChecksum_rxValid (m : Encoding) (a f : Byte) (p : List Byte) (s : State) :
    (s.runChecksum m a f p).rxValid = s.rxValid := by cases m <;> rfl
@[simp] theorem runChecksum_txStream (m : Encoding) (a f : Byte) (p : List Byte) (s : State) :
    (s.runChecksum m a f p).txStream = s.txStream := by cases m <;> rfl
@[simp] theorem runChecksum_rxStream (m : Encoding) (a f : Byte) (p : List Byte) (s : State) :
    (s.runChecksum m a f p).rxStream = s.rxStream := by cases m <;> rfl
@[simp] theorem runChecksum_inputs (m : Encoding) (a f : Byte) (p : List Byte) (s : State) :
    (s.runChecksum m a f p).inputs = s.inputs := by cases m <;> rfl
@[simp] theorem runChecksum_hostData (m : Encoding) (a f : Byte) (p : List Byte) (s : State) :
    (s.runChecksum m a f p).hostData = s.hostData := by cases m <;> rfl
@[simp] theorem runChecksum_draws (m : Encoding) (a f : Byte) (p : List Byte) (s : State) :
    (s.runChecksum m a f p).draws = s.draws := by cases m <;> rfl

/-! ### `State.loadChk` -/

@[simp] theorem loadChk_params (m : Encoding) (a f : Byte) (p : List Byte) (s : State) :
    (s.loadChk m a f p).params = s.params := by cases m <;> rfl
@[simp] theorem loadChk_busy (m : Encoding) (a f : Byte) (p : List Byte) (s : State) :
    (s.loadChk m a f p).busy = s.busy := by cases m <;> rfl
@[simp] theorem loadChk_done (m : Encoding) (a f : Byte) (p : List Byte) (s : State) :
    (s.loadChk m a f p).done = s.done := by cases m <;> rfl
@[simp] theorem loadChk_result (m : Encoding) (a f : Byte) (p : List Byte) (s : State) :
    (s.loadChk m a f p).result = s.result := by cases m <;> rfl
@[simp] theorem loadChk_cause (m : Encoding) (a f : Byte) (p : List Byte) (s : State) :
    (s.loadChk m a f p).cause = s.cause := by cases m <;> rfl
@[simp] theorem loadChk_exc (m : Encoding) (a f : Byte) (p : List Byte) (s : State) :
    (s.loadChk m a f p).exc = s.exc := by cases m <;> rfl
@[simp] theorem loadChk_dfValid (m : Encoding) (a f : Byte) (p : List Byte) (s : State) :
    (s.loadChk m a f p).dfValid = s.dfValid := by cases m <;> rfl
@[simp] theorem loadChk_textValid (m : Encoding) (a f : Byte) (p : List Byte) (s : State) :
    (s.loadChk m a f p).textValid = s.textValid := by cases m <;> rfl
@[simp] theorem loadChk_utf8Err (m : Encoding) (a f : Byte) (p : List Byte) (s : State) :
    (s.loadChk m a f p).utf8Err = s.utf8Err := by cases m <;> rfl
@[simp] theorem loadChk_ovr (m : Encoding) (a f : Byte) (p : List Byte) (s : State) :
    (s.loadChk m a f p).ovr = s.ovr := by cases m <;> rfl
@[simp] theorem loadChk_attempts (m : Encoding) (a f : Byte) (p : List Byte) (s : State) :
    (s.loadChk m a f p).attempts = s.attempts := by cases m <;> rfl
@[simp] theorem loadChk_mode (m : Encoding) (a f : Byte) (p : List Byte) (s : State) :
    (s.loadChk m a f p).mode = s.mode := by cases m <;> rfl
@[simp] theorem loadChk_timeout (m : Encoding) (a f : Byte) (p : List Byte) (s : State) :
    (s.loadChk m a f p).timeout = s.timeout := by cases m <;> rfl
@[simp] theorem loadChk_retries (m : Encoding) (a f : Byte) (p : List Byte) (s : State) :
    (s.loadChk m a f p).retries = s.retries := by cases m <;> rfl
@[simp] theorem loadChk_ownAddr (m : Encoding) (a f : Byte) (p : List Byte) (s : State) :
    (s.loadChk m a f p).ownAddr = s.ownAddr := by cases m <;> rfl
@[simp] theorem loadChk_efAddr (m : Encoding) (a f : Byte) (p : List Byte) (s : State) :
    (s.loadChk m a f p).efAddr = s.efAddr := by cases m <;> rfl
@[simp] theorem loadChk_efFc (m : Encoding) (a f : Byte) (p : List Byte) (s : State) :
    (s.loadChk m a f p).efFc = s.efFc := by cases m <;> rfl
@[simp] theorem loadChk_efLen (m : Encoding) (a f : Byte) (p : List Byte) (s : State) :
    (s.loadChk m a f p).efLen = s.efLen := by cases m <;> rfl
@[simp] theorem loadChk_dfAddr (m : Encoding) (a f : Byte) (p : List Byte) (s : State) :
    (s.loadChk m a f p).dfAddr = s.dfAddr := by cases m <;> rfl
@[simp] theorem loadChk_dfFc (m : Encoding) (a f : Byte) (p : List Byte) (s : State) :
    (s.loadChk m a f p).dfFc = s.dfFc := by cases m <;> rfl
@[simp] theorem loadChk_dfLen (m : Encoding) (a f : Byte) (p : List Byte) (s : State) :
    (s.loadChk m a f p).dfLen = s.dfLen := by cases m <;> rfl
@[simp] theorem loadChk_chk (m : Encoding) (a f : Byte) (p : List Byte) (s : State) :
    (s.loadChk m a f p).chk = checksum m a f p := by cases m <;> rfl
@[simp] theorem loadChk_txLen (m : Encoding) (a f : Byte) (p : List Byte) (s : State) :
    (s.loadChk m a f p).txLen = s.txLen := by cases m <;> rfl
@[simp] theorem loadChk_rxLen (m : Encoding) (a f : Byte) (p : List Byte) (s : State) :
    (s.loadChk m a f p).rxLen = s.rxLen := by cases m <;> rfl
@[simp] theorem loadChk_textLen (m : Encoding) (a f : Byte) (p : List Byte) (s : State) :
    (s.loadChk m a f p).textLen = s.textLen := by cases m <;> rfl
@[simp] theorem loadChk_efPayload (m : Encoding) (a f : Byte) (p : List Byte) (s : State) :
    (s.loadChk m a f p).efPayload = s.efPayload := by cases m <;> rfl
@[simp] theorem loadChk_txBuf (m : Encoding) (a f : Byte) (p : List Byte) (s : State) :
    (s.loadChk m a f p).txBuf = s.txBuf := by cases m <;> rfl
@[simp] theorem loadChk_rxBuf (m : Encoding) (a f : Byte) (p : List Byte) (s : State) :
    (s.loadChk m a f p).rxBuf = s.rxBuf := by cases m <;> rfl
@[simp] theorem loadChk_dfPayload (m : Encoding) (a f : Byte) (p : List Byte) (s : State) :
    (s.loadChk m a f p).dfPayload = s.dfPayload := by cases m <;> rfl
@[simp] theorem loadChk_text (m : Encoding) (a f : Byte) (p : List Byte) (s : State) :
    (s.loadChk m a f p).text = s.text := by cases m <;> rfl
@[simp] theorem loadChk_teState (m : Encoding) (a f : Byte) (p : List Byte) (s : State) :
    (s.loadChk m a f p).teState = s.teState := by cases m <;> rfl
@[simp] theorem loadChk_retryCnt (m : Encoding) (a f : Byte) (p : List Byte) (s : State) :
    (s.loadChk m a f p).retryCnt = s.retryCnt := by cases m <;> rfl
@[simp] theorem loadChk_timer (m : Encoding) (a f : Byte) (p : List Byte) (s : State) :
    (s.loadChk m a f p).timer = s.timer := by cases m <;> rfl
@[simp] theorem loadChk_txPtr (m : Encoding) (a f : Byte) (p : List Byte) (s : State) :
    (s.loadChk m a f p).txPtr = s.txPtr := by cases m <;> rfl
@[simp] theorem loadChk_curOp (m : Encoding) (a f : Byte) (p : List Byte) (s : State) :
    (s.loadChk m a f p).curOp = s.curOp := by cases m <;> rfl
@[simp] theorem loadChk_tick (m : Encoding) (a f : Byte) (p : List Byte) (s : State) :
    (s.loadChk m a f p).tick = s.tick := by cases m <;> rfl
@[simp] theorem loadChk_txReady (m : Encoding) (a f : Byte) (p : List Byte) (s : State) :
    (s.loadChk m a f p).txReady = s.txReady := by cases m <;> rfl
@[simp] theorem loadChk_rxValid (m : Encoding) (a f : Byte) (p : List Byte) (s : State) :
    (s.loadChk m a f p).rxValid = s.rxValid := by cases m <;> rfl
@[simp] theorem loadChk_txStream (m : Encoding) (a f : Byte) (p : List Byte) (s : State) :
    (s.loadChk m a f p).txStream = s.txStream := by cases m <;> rfl
@[simp] theorem loadChk_rxStream (m : Encoding) (a f : Byte) (p : List Byte) (s : State) :
    (s.loadChk m a f p).rxStream = s.rxStream := by cases m <;> rfl
@[simp] theorem loadChk_inputs (m : Encoding) (a f : Byte) (p : List Byte) (s : State) :
    (s.loadChk m a f p).inputs = s.inputs := by cases m <;> rfl
@[simp] theorem loadChk_hostData (m : Encoding) (a f : Byte) (p : List Byte) (s : State) :
    (s.loadChk m a f p).hostData = s.hostData := by cases m <;> rfl
@[simp] theorem loadChk_draws (m : Encoding) (a f : Byte) (p : List Byte) (s : State) :
    (s.loadChk m a f p).draws = s.draws := by cases m <;> rfl

/-! ### `State.buildFrame` -/

@[simp] theorem buildFrame_params (m : Encoding) (a f : Byte) (p : List Byte) (s : State) :
    (s.buildFrame m a f p).params = s.params := by cases m <;> rfl
@[simp] theorem buildFrame_busy (m : Encoding) (a f : Byte) (p : List Byte) (s : State) :
    (s.buildFrame m a f p).busy = s.busy := by cases m <;> rfl
@[simp] theorem buildFrame_done (m : Encoding) (a f : Byte) (p : List Byte) (s : State) :
    (s.buildFrame m a f p).done = s.done := by cases m <;> rfl
@[simp] theorem buildFrame_result (m : Encoding) (a f : Byte) (p : List Byte) (s : State) :
    (s.buildFrame m a f p).result = s.result := by cases m <;> rfl
@[simp] theorem buildFrame_cause (m : Encoding) (a f : Byte) (p : List Byte) (s : State) :
    (s.buildFrame m a f p).cause = s.cause := by cases m <;> rfl
@[simp] theorem buildFrame_exc (m : Encoding) (a f : Byte) (p : List Byte) (s : State) :
    (s.buildFrame m a f p).exc = s.exc := by cases m <;> rfl
@[simp] theorem buildFrame_dfValid (m : Encoding) (a f : Byte) (p : List Byte) (s : State) :
    (s.buildFrame m a f p).dfValid = s.dfValid := by cases m <;> rfl
@[simp] theorem buildFrame_textValid (m : Encoding) (a f : Byte) (p : List Byte) (s : State) :
    (s.buildFrame m a f p).textValid = s.textValid := by cases m <;> rfl
@[simp] theorem buildFrame_utf8Err (m : Encoding) (a f : Byte) (p : List Byte) (s : State) :
    (s.buildFrame m a f p).utf8Err = s.utf8Err := by cases m <;> rfl
@[simp] theorem buildFrame_ovr (m : Encoding) (a f : Byte) (p : List Byte) (s : State) :
    (s.buildFrame m a f p).ovr = s.ovr := by cases m <;> rfl
@[simp] theorem buildFrame_attempts (m : Encoding) (a f : Byte) (p : List Byte) (s : State) :
    (s.buildFrame m a f p).attempts = s.attempts := by cases m <;> rfl
@[simp] theorem buildFrame_mode (m : Encoding) (a f : Byte) (p : List Byte) (s : State) :
    (s.buildFrame m a f p).mode = s.mode := by cases m <;> rfl
@[simp] theorem buildFrame_timeout (m : Encoding) (a f : Byte) (p : List Byte) (s : State) :
    (s.buildFrame m a f p).timeout = s.timeout := by cases m <;> rfl
@[simp] theorem buildFrame_retries (m : Encoding) (a f : Byte) (p : List Byte) (s : State) :
    (s.buildFrame m a f p).retries = s.retries := by cases m <;> rfl
@[simp] theorem buildFrame_ownAddr (m : Encoding) (a f : Byte) (p : List Byte) (s : State) :
    (s.buildFrame m a f p).ownAddr = s.ownAddr := by cases m <;> rfl
@[simp] theorem buildFrame_efAddr (m : Encoding) (a f : Byte) (p : List Byte) (s : State) :
    (s.buildFrame m a f p).efAddr = s.efAddr := by cases m <;> rfl
@[simp] theorem buildFrame_efFc (m : Encoding) (a f : Byte) (p : List Byte) (s : State) :
    (s.buildFrame m a f p).efFc = s.efFc := by cases m <;> rfl
@[simp] theorem buildFrame_efLen (m : Encoding) (a f : Byte) (p : List Byte) (s : State) :
    (s.buildFrame m a f p).efLen = s.efLen := by cases m <;> rfl
@[simp] theorem buildFrame_dfAddr (m : Encoding) (a f : Byte) (p : List Byte) (s : State) :
    (s.buildFrame m a f p).dfAddr = s.dfAddr := by cases m <;> rfl
@[simp] theorem buildFrame_dfFc (m : Encoding) (a f : Byte) (p : List Byte) (s : State) :
    (s.buildFrame m a f p).dfFc = s.dfFc := by cases m <;> rfl
@[simp] theorem buildFrame_dfLen (m : Encoding) (a f : Byte) (p : List Byte) (s : State) :
    (s.buildFrame m a f p).dfLen = s.dfLen := by cases m <;> rfl
@[simp] theorem buildFrame_chk (m : Encoding) (a f : Byte) (p : List Byte) (s : State) :
    (s.buildFrame m a f p).chk = checksum m a f p := by cases m <;> rfl
@[simp] theorem buildFrame_txLen (m : Encoding) (a f : Byte) (p : List Byte) (s : State) :
    (s.buildFrame m a f p).txLen = BitVec.ofNat 16 (encodeFrame m s.params.hexUpper a f p).length := by cases m <;> rfl
@[simp] theorem buildFrame_rxLen (m : Encoding) (a f : Byte) (p : List Byte) (s : State) :
    (s.buildFrame m a f p).rxLen = s.rxLen := by cases m <;> rfl
@[simp] theorem buildFrame_textLen (m : Encoding) (a f : Byte) (p : List Byte) (s : State) :
    (s.buildFrame m a f p).textLen = s.textLen := by cases m <;> rfl
@[simp] theorem buildFrame_efPayload (m : Encoding) (a f : Byte) (p : List Byte) (s : State) :
    (s.buildFrame m a f p).efPayload = s.efPayload := by cases m <;> rfl
@[simp] theorem buildFrame_txBuf (m : Encoding) (a f : Byte) (p : List Byte) (s : State) :
    (s.buildFrame m a f p).txBuf = Memory.ofBytes (encodeFrame m s.params.hexUpper a f p) := by cases m <;> rfl
@[simp] theorem buildFrame_rxBuf (m : Encoding) (a f : Byte) (p : List Byte) (s : State) :
    (s.buildFrame m a f p).rxBuf = s.rxBuf := by cases m <;> rfl
@[simp] theorem buildFrame_dfPayload (m : Encoding) (a f : Byte) (p : List Byte) (s : State) :
    (s.buildFrame m a f p).dfPayload = s.dfPayload := by cases m <;> rfl
@[simp] theorem buildFrame_text (m : Encoding) (a f : Byte) (p : List Byte) (s : State) :
    (s.buildFrame m a f p).text = s.text := by cases m <;> rfl
@[simp] theorem buildFrame_teState (m : Encoding) (a f : Byte) (p : List Byte) (s : State) :
    (s.buildFrame m a f p).teState = s.teState := by cases m <;> rfl
@[simp] theorem buildFrame_retryCnt (m : Encoding) (a f : Byte) (p : List Byte) (s : State) :
    (s.buildFrame m a f p).retryCnt = s.retryCnt := by cases m <;> rfl
@[simp] theorem buildFrame_timer (m : Encoding) (a f : Byte) (p : List Byte) (s : State) :
    (s.buildFrame m a f p).timer = s.timer := by cases m <;> rfl
@[simp] theorem buildFrame_txPtr (m : Encoding) (a f : Byte) (p : List Byte) (s : State) :
    (s.buildFrame m a f p).txPtr = s.txPtr := by cases m <;> rfl
@[simp] theorem buildFrame_curOp (m : Encoding) (a f : Byte) (p : List Byte) (s : State) :
    (s.buildFrame m a f p).curOp = s.curOp := by cases m <;> rfl
@[simp] theorem buildFrame_tick (m : Encoding) (a f : Byte) (p : List Byte) (s : State) :
    (s.buildFrame m a f p).tick = s.tick := by cases m <;> rfl
@[simp] theorem buildFrame_txReady (m : Encoding) (a f : Byte) (p : List Byte) (s : State) :
    (s.buildFrame m a f p).txReady = s.txReady := by cases m <;> rfl
@[simp] theorem buildFrame_rxValid (m : Encoding) (a f : Byte) (p : List Byte) (s : State) :
    (s.buildFrame m a f p).rxValid = s.rxValid := by cases m <;> rfl
@[simp] theorem buildFrame_txStream (m : Encoding) (a f : Byte) (p : List Byte) (s : State) :
    (s.buildFrame m a f p).txStream = s.txStream := by cases m <;> rfl
@[simp] theorem buildFrame_rxStream (m : Encoding) (a f : Byte) (p : List Byte) (s : State) :
    (s.buildFrame m a f p).rxStream = s.rxStream := by cases m <;> rfl
@[simp] theorem buildFrame_inputs (m : Encoding) (a f : Byte) (p : List Byte) (s : State) :
    (s.buildFrame m a f p).inputs = s.inputs := by cases m <;> rfl
@[simp] theorem buildFrame_hostData (m : Encoding) (a f : Byte) (p : List Byte) (s : State) :
    (s.buildFrame m a f p).hostData = s.hostData := by cases m <;> rfl
@[simp] theorem buildFrame_draws (m : Encoding) (a f : Byte) (p : List Byte) (s : State) :
    (s.buildFrame m a f p).draws = s.draws := by cases m <;> rfl

/-! ### `State.takeEvent` -/

@[simp] theorem takeEvent_params (s : State) : (s.takeEvent).params = s.params := rfl
@[simp] theorem takeEvent_busy (s : State) : (s.takeEvent).busy = s.busy := rfl
@[simp] theorem takeEvent_done (s : State) : (s.takeEvent).done = s.done := rfl
@[simp] theorem takeEvent_result (s : State) : (s.takeEvent).result = s.result := rfl
@[simp] theorem takeEvent_cause (s : State) : (s.takeEvent).cause = s.cause := rfl
@[simp] theorem takeEvent_exc (s : State) : (s.takeEvent).exc = s.exc := rfl
@[simp] theorem takeEvent_dfValid (s : State) : (s.takeEvent).dfValid = s.dfValid := rfl
@[simp] theorem takeEvent_textValid (s : State) : (s.takeEvent).textValid = s.textValid := rfl
@[simp] theorem takeEvent_utf8Err (s : State) : (s.takeEvent).utf8Err = s.utf8Err := rfl
@[simp] theorem takeEvent_ovr (s : State) : (s.takeEvent).ovr = s.ovr := rfl
@[simp] theorem takeEvent_attempts (s : State) : (s.takeEvent).attempts = s.attempts := rfl
@[simp] theorem takeEvent_mode (s : State) : (s.takeEvent).mode = s.mode := rfl
@[simp] theorem takeEvent_timeout (s : State) : (s.takeEvent).timeout = s.timeout := rfl
@[simp] theorem takeEvent_retries (s : State) : (s.takeEvent).retries = s.retries := rfl
@[simp] theorem takeEvent_ownAddr (s : State) : (s.takeEvent).ownAddr = s.ownAddr := rfl
@[simp] theorem takeEvent_efAddr (s : State) : (s.takeEvent).efAddr = s.efAddr := rfl
@[simp] theorem takeEvent_efFc (s : State) : (s.takeEvent).efFc = s.efFc := rfl
@[simp] theorem takeEvent_efLen (s : State) : (s.takeEvent).efLen = s.efLen := rfl
@[simp] theorem takeEvent_dfAddr (s : State) : (s.takeEvent).dfAddr = s.dfAddr := rfl
@[simp] theorem takeEvent_dfFc (s : State) : (s.takeEvent).dfFc = s.dfFc := rfl
@[simp] theorem takeEvent_dfLen (s : State) : (s.takeEvent).dfLen = s.dfLen := rfl
@[simp] theorem takeEvent_chk (s : State) : (s.takeEvent).chk = s.chk := rfl
@[simp] theorem takeEvent_txLen (s : State) : (s.takeEvent).txLen = s.txLen := rfl
@[simp] theorem takeEvent_rxLen (s : State) : (s.takeEvent).rxLen = s.rxLen := rfl
@[simp] theorem takeEvent_textLen (s : State) : (s.takeEvent).textLen = s.textLen := rfl
@[simp] theorem takeEvent_efPayload (s : State) : (s.takeEvent).efPayload = s.efPayload := rfl
@[simp] theorem takeEvent_txBuf (s : State) : (s.takeEvent).txBuf = s.txBuf := rfl
@[simp] theorem takeEvent_rxBuf (s : State) : (s.takeEvent).rxBuf = s.rxBuf := rfl
@[simp] theorem takeEvent_dfPayload (s : State) : (s.takeEvent).dfPayload = s.dfPayload := rfl
@[simp] theorem takeEvent_text (s : State) : (s.takeEvent).text = s.text := rfl
@[simp] theorem takeEvent_teState (s : State) : (s.takeEvent).teState = s.teState := rfl
@[simp] theorem takeEvent_retryCnt (s : State) : (s.takeEvent).retryCnt = s.retryCnt := rfl
@[simp] theorem takeEvent_timer (s : State) : (s.takeEvent).timer = s.timer := rfl
@[simp] theorem takeEvent_txPtr (s : State) : (s.takeEvent).txPtr = s.txPtr := rfl
@[simp] theorem takeEvent_curOp (s : State) : (s.takeEvent).curOp = s.curOp := rfl
@[simp] theorem takeEvent_lrcAcc (s : State) : (s.takeEvent).lrcAcc = s.lrcAcc := rfl
@[simp] theorem takeEvent_crcReg (s : State) : (s.takeEvent).crcReg = s.crcReg := rfl
@[simp] theorem takeEvent_tick (s : State) : (s.takeEvent).tick = s.tick := rfl
@[simp] theorem takeEvent_txReady (s : State) : (s.takeEvent).txReady = s.txReady := rfl
@[simp] theorem takeEvent_rxValid (s : State) : (s.takeEvent).rxValid = s.rxValid := rfl
@[simp] theorem takeEvent_txStream (s : State) : (s.takeEvent).txStream = s.txStream := rfl
@[simp] theorem takeEvent_rxStream (s : State) : (s.takeEvent).rxStream = s.rxStream := rfl
@[simp] theorem takeEvent_inputs (s : State) : (s.takeEvent).inputs = s.inputs.tail := rfl
@[simp] theorem takeEvent_hostData (s : State) : (s.takeEvent).hostData = s.hostData := rfl
@[simp] theorem takeEvent_draws (s : State) : (s.takeEvent).draws = s.draws := rfl

/-! ### `State.withPorts` -/

@[simp] theorem withPorts_params (t r v : Bool) (s : State) : (s.withPorts t r v).params = s.params := rfl
@[simp] theorem withPorts_busy (t r v : Bool) (s : State) : (s.withPorts t r v).busy = s.busy := rfl
@[simp] theorem withPorts_done (t r v : Bool) (s : State) : (s.withPorts t r v).done = s.done := rfl
@[simp] theorem withPorts_result (t r v : Bool) (s : State) : (s.withPorts t r v).result = s.result := rfl
@[simp] theorem withPorts_cause (t r v : Bool) (s : State) : (s.withPorts t r v).cause = s.cause := rfl
@[simp] theorem withPorts_exc (t r v : Bool) (s : State) : (s.withPorts t r v).exc = s.exc := rfl
@[simp] theorem withPorts_dfValid (t r v : Bool) (s : State) : (s.withPorts t r v).dfValid = s.dfValid := rfl
@[simp] theorem withPorts_textValid (t r v : Bool) (s : State) : (s.withPorts t r v).textValid = s.textValid := rfl
@[simp] theorem withPorts_utf8Err (t r v : Bool) (s : State) : (s.withPorts t r v).utf8Err = s.utf8Err := rfl
@[simp] theorem withPorts_ovr (t r v : Bool) (s : State) : (s.withPorts t r v).ovr = s.ovr := rfl
@[simp] theorem withPorts_attempts (t r v : Bool) (s : State) : (s.withPorts t r v).attempts = s.attempts := rfl
@[simp] theorem withPorts_mode (t r v : Bool) (s : State) : (s.withPorts t r v).mode = s.mode := rfl
@[simp] theorem withPorts_timeout (t r v : Bool) (s : State) : (s.withPorts t r v).timeout = s.timeout := rfl
@[simp] theorem withPorts_retries (t r v : Bool) (s : State) : (s.withPorts t r v).retries = s.retries := rfl
@[simp] theorem withPorts_ownAddr (t r v : Bool) (s : State) : (s.withPorts t r v).ownAddr = s.ownAddr := rfl
@[simp] theorem withPorts_efAddr (t r v : Bool) (s : State) : (s.withPorts t r v).efAddr = s.efAddr := rfl
@[simp] theorem withPorts_efFc (t r v : Bool) (s : State) : (s.withPorts t r v).efFc = s.efFc := rfl
@[simp] theorem withPorts_efLen (t r v : Bool) (s : State) : (s.withPorts t r v).efLen = s.efLen := rfl
@[simp] theorem withPorts_dfAddr (t r v : Bool) (s : State) : (s.withPorts t r v).dfAddr = s.dfAddr := rfl
@[simp] theorem withPorts_dfFc (t r v : Bool) (s : State) : (s.withPorts t r v).dfFc = s.dfFc := rfl
@[simp] theorem withPorts_dfLen (t r v : Bool) (s : State) : (s.withPorts t r v).dfLen = s.dfLen := rfl
@[simp] theorem withPorts_chk (t r v : Bool) (s : State) : (s.withPorts t r v).chk = s.chk := rfl
@[simp] theorem withPorts_txLen (t r v : Bool) (s : State) : (s.withPorts t r v).txLen = s.txLen := rfl
@[simp] theorem withPorts_rxLen (t r v : Bool) (s : State) : (s.withPorts t r v).rxLen = s.rxLen := rfl
@[simp] theorem withPorts_textLen (t r v : Bool) (s : State) : (s.withPorts t r v).textLen = s.textLen := rfl
@[simp] theorem withPorts_efPayload (t r v : Bool) (s : State) : (s.withPorts t r v).efPayload = s.efPayload := rfl
@[simp] theorem withPorts_txBuf (t r v : Bool) (s : State) : (s.withPorts t r v).txBuf = s.txBuf := rfl
@[simp] theorem withPorts_rxBuf (t r v : Bool) (s : State) : (s.withPorts t r v).rxBuf = s.rxBuf := rfl
@[simp] theorem withPorts_dfPayload (t r v : Bool) (s : State) : (s.withPorts t r v).dfPayload = s.dfPayload := rfl
@[simp] theorem withPorts_text (t r v : Bool) (s : State) : (s.withPorts t r v).text = s.text := rfl
@[simp] theorem withPorts_teState (t r v : Bool) (s : State) : (s.withPorts t r v).teState = s.teState := rfl
@[simp] theorem withPorts_retryCnt (t r v : Bool) (s : State) : (s.withPorts t r v).retryCnt = s.retryCnt := rfl
@[simp] theorem withPorts_timer (t r v : Bool) (s : State) : (s.withPorts t r v).timer = s.timer := rfl
@[simp] theorem withPorts_txPtr (t r v : Bool) (s : State) : (s.withPorts t r v).txPtr = s.txPtr := rfl
@[simp] theorem withPorts_curOp (t r v : Bool) (s : State) : (s.withPorts t r v).curOp = s.curOp := rfl
@[simp] theorem withPorts_lrcAcc (t r v : Bool) (s : State) : (s.withPorts t r v).lrcAcc = s.lrcAcc := rfl
@[simp] theorem withPorts_crcReg (t r v : Bool) (s : State) : (s.withPorts t r v).crcReg = s.crcReg := rfl
@[simp] theorem withPorts_tick (t r v : Bool) (s : State) : (s.withPorts t r v).tick = t := rfl
@[simp] theorem withPorts_txReady (t r v : Bool) (s : State) : (s.withPorts t r v).txReady = r := rfl
@[simp] theorem withPorts_rxValid (t r v : Bool) (s : State) : (s.withPorts t r v).rxValid = v := rfl
@[simp] theorem withPorts_txStream (t r v : Bool) (s : State) : (s.withPorts t r v).txStream = s.txStream := rfl
@[simp] theorem withPorts_rxStream (t r v : Bool) (s : State) : (s.withPorts t r v).rxStream = s.rxStream := rfl
@[simp] theorem withPorts_inputs (t r v : Bool) (s : State) : (s.withPorts t r v).inputs = s.inputs := rfl
@[simp] theorem withPorts_hostData (t r v : Bool) (s : State) : (s.withPorts t r v).hostData = s.hostData := rfl
@[simp] theorem withPorts_draws (t r v : Bool) (s : State) : (s.withPorts t r v).draws = s.draws := rfl

/-! ### `State.noteDecode` -/

@[simp] theorem noteDecode_params (m : Encoding) (b : List Byte) (s : State) :
    (s.noteDecode m b).params = s.params := by
  unfold State.noteDecode; split <;> simp
@[simp] theorem noteDecode_busy (m : Encoding) (b : List Byte) (s : State) :
    (s.noteDecode m b).busy = s.busy := by
  unfold State.noteDecode; split <;> simp
@[simp] theorem noteDecode_done (m : Encoding) (b : List Byte) (s : State) :
    (s.noteDecode m b).done = s.done := by
  unfold State.noteDecode; split <;> simp
@[simp] theorem noteDecode_result (m : Encoding) (b : List Byte) (s : State) :
    (s.noteDecode m b).result = s.result := by
  unfold State.noteDecode; split <;> simp
@[simp] theorem noteDecode_cause (m : Encoding) (b : List Byte) (s : State) :
    (s.noteDecode m b).cause = s.cause := by
  unfold State.noteDecode; split <;> simp
@[simp] theorem noteDecode_exc (m : Encoding) (b : List Byte) (s : State) :
    (s.noteDecode m b).exc = s.exc := by
  unfold State.noteDecode; split <;> simp
@[simp] theorem noteDecode_dfValid (m : Encoding) (b : List Byte) (s : State) :
    (s.noteDecode m b).dfValid = s.dfValid := by
  unfold State.noteDecode; split <;> simp
@[simp] theorem noteDecode_textValid (m : Encoding) (b : List Byte) (s : State) :
    (s.noteDecode m b).textValid = s.textValid := by
  unfold State.noteDecode; split <;> simp
@[simp] theorem noteDecode_utf8Err (m : Encoding) (b : List Byte) (s : State) :
    (s.noteDecode m b).utf8Err = s.utf8Err := by
  unfold State.noteDecode; split <;> simp
@[simp] theorem noteDecode_ovr (m : Encoding) (b : List Byte) (s : State) :
    (s.noteDecode m b).ovr = s.ovr := by
  unfold State.noteDecode; split <;> simp
@[simp] theorem noteDecode_attempts (m : Encoding) (b : List Byte) (s : State) :
    (s.noteDecode m b).attempts = s.attempts := by
  unfold State.noteDecode; split <;> simp
@[simp] theorem noteDecode_mode (m : Encoding) (b : List Byte) (s : State) :
    (s.noteDecode m b).mode = s.mode := by
  unfold State.noteDecode; split <;> simp
@[simp] theorem noteDecode_timeout (m : Encoding) (b : List Byte) (s : State) :
    (s.noteDecode m b).timeout = s.timeout := by
  unfold State.noteDecode; split <;> simp
@[simp] theorem noteDecode_retries (m : Encoding) (b : List Byte) (s : State) :
    (s.noteDecode m b).retries = s.retries := by
  unfold State.noteDecode; split <;> simp
@[simp] theorem noteDecode_ownAddr (m : Encoding) (b : List Byte) (s : State) :
    (s.noteDecode m b).ownAddr = s.ownAddr := by
  unfold State.noteDecode; split <;> simp
@[simp] theorem noteDecode_efAddr (m : Encoding) (b : List Byte) (s : State) :
    (s.noteDecode m b).efAddr = s.efAddr := by
  unfold State.noteDecode; split <;> simp
@[simp] theorem noteDecode_efFc (m : Encoding) (b : List Byte) (s : State) :
    (s.noteDecode m b).efFc = s.efFc := by
  unfold State.noteDecode; split <;> simp
@[simp] theorem noteDecode_efLen (m : Encoding) (b : List Byte) (s : State) :
    (s.noteDecode m b).efLen = s.efLen := by
  unfold State.noteDecode; split <;> simp
@[simp] theorem noteDecode_dfAddr (m : Encoding) (b : List Byte) (s : State) :
    (s.noteDecode m b).dfAddr = s.dfAddr := by
  unfold State.noteDecode; split <;> simp
@[simp] theorem noteDecode_dfFc (m : Encoding) (b : List Byte) (s : State) :
    (s.noteDecode m b).dfFc = s.dfFc := by
  unfold State.noteDecode; split <;> simp
@[simp] theorem noteDecode_dfLen (m : Encoding) (b : List Byte) (s : State) :
    (s.noteDecode m b).dfLen = s.dfLen := by
  unfold State.noteDecode; split <;> simp
@[simp] theorem noteDecode_chk (m : Encoding) (b : List Byte) (s : State) :
    (s.noteDecode m b).chk = s.chk := by
  unfold State.noteDecode; split <;> simp
@[simp] theorem noteDecode_txLen (m : Encoding) (b : List Byte) (s : State) :
    (s.noteDecode m b).txLen = s.txLen := by
  unfold State.noteDecode; split <;> simp
@[simp] theorem noteDecode_rxLen (m : Encoding) (b : List Byte) (s : State) :
    (s.noteDecode m b).rxLen = s.rxLen := by
  unfold State.noteDecode; split <;> simp
@[simp] theorem noteDecode_textLen (m : Encoding) (b : List Byte) (s : State) :
    (s.noteDecode m b).textLen = s.textLen := by
  unfold State.noteDecode; split <;> simp
@[simp] theorem noteDecode_efPayload (m : Encoding) (b : List Byte) (s : State) :
    (s.noteDecode m b).efPayload = s.efPayload := by
  unfold State.noteDecode; split <;> simp
@[simp] theorem noteDecode_txBuf (m : Encoding) (b : List Byte) (s : State) :
    (s.noteDecode m b).txBuf = s.txBuf := by
  unfold State.noteDecode; split <;> simp
@[simp] theorem noteDecode_rxBuf (m : Encoding) (b : List Byte) (s : State) :
    (s.noteDecode m b).rxBuf = s.rxBuf := by
  unfold State.noteDecode; split <;> simp
@[simp] theorem noteDecode_dfPayload (m : Encoding) (b : List Byte) (s : State) :
    (s.noteDecode m b).dfPayload = s.dfPayload := by
  unfold State.noteDecode; split <;> simp
@[simp] theorem noteDecode_text (m : Encoding) (b : List Byte) (s : State) :
    (s.noteDecode m b).text = s.text := by
  unfold State.noteDecode; split <;> simp
@[simp] theorem noteDecode_teState (m : Encoding) (b : List Byte) (s : State) :
    (s.noteDecode m b).teState = s.teState := by
  unfold State.noteDecode; split <;> simp
@[simp] theorem noteDecode_retryCnt (m : Encoding) (b : List Byte) (s : State) :
    (s.noteDecode m b).retryCnt = s.retryCnt := by
  unfold State.noteDecode; split <;> simp
@[simp] theorem noteDecode_timer (m : Encoding) (b : List Byte) (s : State) :
    (s.noteDecode m b).timer = s.timer := by
  unfold State.noteDecode; split <;> simp
@[simp] theorem noteDecode_txPtr (m : Encoding) (b : List Byte) (s : State) :
    (s.noteDecode m b).txPtr = s.txPtr := by
  unfold State.noteDecode; split <;> simp
@[simp] theorem noteDecode_curOp (m : Encoding) (b : List Byte) (s : State) :
    (s.noteDecode m b).curOp = s.curOp := by
  unfold State.noteDecode; split <;> simp
@[simp] theorem noteDecode_tick (m : Encoding) (b : List Byte) (s : State) :
    (s.noteDecode m b).tick = s.tick := by
  unfold State.noteDecode; split <;> simp
@[simp] theorem noteDecode_txReady (m : Encoding) (b : List Byte) (s : State) :
    (s.noteDecode m b).txReady = s.txReady := by
  unfold State.noteDecode; split <;> simp
@[simp] theorem noteDecode_rxValid (m : Encoding) (b : List Byte) (s : State) :
    (s.noteDecode m b).rxValid = s.rxValid := by
  unfold State.noteDecode; split <;> simp
@[simp] theorem noteDecode_txStream (m : Encoding) (b : List Byte) (s : State) :
    (s.noteDecode m b).txStream = s.txStream := by
  unfold State.noteDecode; split <;> simp
@[simp] theorem noteDecode_rxStream (m : Encoding) (b : List Byte) (s : State) :
    (s.noteDecode m b).rxStream = s.rxStream := by
  unfold State.noteDecode; split <;> simp
@[simp] theorem noteDecode_inputs (m : Encoding) (b : List Byte) (s : State) :
    (s.noteDecode m b).inputs = s.inputs := by
  unfold State.noteDecode; split <;> simp
@[simp] theorem noteDecode_hostData (m : Encoding) (b : List Byte) (s : State) :
    (s.noteDecode m b).hostData = s.hostData := by
  unfold State.noteDecode; split <;> simp
@[simp] theorem noteDecode_draws (m : Encoding) (b : List Byte) (s : State) :
    (s.noteDecode m b).draws = s.draws := by
  unfold State.noteDecode; split <;> simp

/-! ### `State.writeBack` -/

@[simp] theorem writeBack_params (v : Verdict) (s : State) : (s.writeBack v).params = s.params := by
  cases v <;> rfl
@[simp] theorem writeBack_busy (v : Verdict) (s : State) : (s.writeBack v).busy = s.busy := by
  cases v <;> rfl
@[simp] theorem writeBack_done (v : Verdict) (s : State) : (s.writeBack v).done = s.done := by
  cases v <;> rfl
@[simp] theorem writeBack_result (v : Verdict) (s : State) : (s.writeBack v).result = s.result := by
  cases v <;> rfl
@[simp] theorem writeBack_cause (v : Verdict) (s : State) : (s.writeBack v).cause = s.cause := by
  cases v <;> rfl
@[simp] theorem writeBack_textValid (v : Verdict) (s : State) :
    (s.writeBack v).textValid = s.textValid := by
  cases v <;> rfl
@[simp] theorem writeBack_utf8Err (v : Verdict) (s : State) :
    (s.writeBack v).utf8Err = s.utf8Err := by
  cases v <;> rfl
@[simp] theorem writeBack_ovr (v : Verdict) (s : State) : (s.writeBack v).ovr = s.ovr := by
  cases v <;> rfl
@[simp] theorem writeBack_attempts (v : Verdict) (s : State) :
    (s.writeBack v).attempts = s.attempts := by
  cases v <;> rfl
@[simp] theorem writeBack_mode (v : Verdict) (s : State) : (s.writeBack v).mode = s.mode := by
  cases v <;> rfl
@[simp] theorem writeBack_timeout (v : Verdict) (s : State) :
    (s.writeBack v).timeout = s.timeout := by
  cases v <;> rfl
@[simp] theorem writeBack_retries (v : Verdict) (s : State) :
    (s.writeBack v).retries = s.retries := by
  cases v <;> rfl
@[simp] theorem writeBack_ownAddr (v : Verdict) (s : State) :
    (s.writeBack v).ownAddr = s.ownAddr := by
  cases v <;> rfl
@[simp] theorem writeBack_efAddr (v : Verdict) (s : State) : (s.writeBack v).efAddr = s.efAddr := by
  cases v <;> rfl
@[simp] theorem writeBack_efFc (v : Verdict) (s : State) : (s.writeBack v).efFc = s.efFc := by
  cases v <;> rfl
@[simp] theorem writeBack_efLen (v : Verdict) (s : State) : (s.writeBack v).efLen = s.efLen := by
  cases v <;> rfl
@[simp] theorem writeBack_txLen (v : Verdict) (s : State) : (s.writeBack v).txLen = s.txLen := by
  cases v <;> rfl
@[simp] theorem writeBack_rxLen (v : Verdict) (s : State) : (s.writeBack v).rxLen = s.rxLen := by
  cases v <;> rfl
@[simp] theorem writeBack_textLen (v : Verdict) (s : State) :
    (s.writeBack v).textLen = s.textLen := by
  cases v <;> rfl
@[simp] theorem writeBack_efPayload (v : Verdict) (s : State) :
    (s.writeBack v).efPayload = s.efPayload := by
  cases v <;> rfl
@[simp] theorem writeBack_txBuf (v : Verdict) (s : State) : (s.writeBack v).txBuf = s.txBuf := by
  cases v <;> rfl
@[simp] theorem writeBack_rxBuf (v : Verdict) (s : State) : (s.writeBack v).rxBuf = s.rxBuf := by
  cases v <;> rfl
@[simp] theorem writeBack_text (v : Verdict) (s : State) : (s.writeBack v).text = s.text := by
  cases v <;> rfl
@[simp] theorem writeBack_teState (v : Verdict) (s : State) :
    (s.writeBack v).teState = s.teState := by
  cases v <;> rfl
@[simp] theorem writeBack_retryCnt (v : Verdict) (s : State) :
    (s.writeBack v).retryCnt = s.retryCnt := by
  cases v <;> rfl
@[simp] theorem writeBack_timer (v : Verdict) (s : State) : (s.writeBack v).timer = s.timer := by
  cases v <;> rfl
@[simp] theorem writeBack_txPtr (v : Verdict) (s : State) : (s.writeBack v).txPtr = s.txPtr := by
  cases v <;> rfl
@[simp] theorem writeBack_curOp (v : Verdict) (s : State) : (s.writeBack v).curOp = s.curOp := by
  cases v <;> rfl
@[simp] theorem writeBack_lrcAcc (v : Verdict) (s : State) : (s.writeBack v).lrcAcc = s.lrcAcc := by
  cases v <;> rfl
@[simp] theorem writeBack_crcReg (v : Verdict) (s : State) : (s.writeBack v).crcReg = s.crcReg := by
  cases v <;> rfl
@[simp] theorem writeBack_tick (v : Verdict) (s : State) : (s.writeBack v).tick = s.tick := by
  cases v <;> rfl
@[simp] theorem writeBack_txReady (v : Verdict) (s : State) :
    (s.writeBack v).txReady = s.txReady := by
  cases v <;> rfl
@[simp] theorem writeBack_rxValid (v : Verdict) (s : State) :
    (s.writeBack v).rxValid = s.rxValid := by
  cases v <;> rfl
@[simp] theorem writeBack_txStream (v : Verdict) (s : State) :
    (s.writeBack v).txStream = s.txStream := by
  cases v <;> rfl
@[simp] theorem writeBack_rxStream (v : Verdict) (s : State) :
    (s.writeBack v).rxStream = s.rxStream := by
  cases v <;> rfl
@[simp] theorem writeBack_inputs (v : Verdict) (s : State) : (s.writeBack v).inputs = s.inputs := by
  cases v <;> rfl
@[simp] theorem writeBack_hostData (v : Verdict) (s : State) :
    (s.writeBack v).hostData = s.hostData := by
  cases v <;> rfl

/-! ### `State.receive` -/

@[simp] theorem receive_params (m : Encoding) (b : List Byte) (s : State) :
    (s.receive m b).params = s.params := by
  simp [State.receive]
@[simp] theorem receive_busy (m : Encoding) (b : List Byte) (s : State) :
    (s.receive m b).busy = s.busy := by
  simp [State.receive]
@[simp] theorem receive_done (m : Encoding) (b : List Byte) (s : State) :
    (s.receive m b).done = s.done := by
  simp [State.receive]
@[simp] theorem receive_result (m : Encoding) (b : List Byte) (s : State) :
    (s.receive m b).result = s.result := by
  simp [State.receive]
@[simp] theorem receive_cause (m : Encoding) (b : List Byte) (s : State) :
    (s.receive m b).cause = s.cause := by
  simp [State.receive]
@[simp] theorem receive_textValid (m : Encoding) (b : List Byte) (s : State) :
    (s.receive m b).textValid = s.textValid := by
  simp [State.receive]
@[simp] theorem receive_utf8Err (m : Encoding) (b : List Byte) (s : State) :
    (s.receive m b).utf8Err = s.utf8Err := by
  simp [State.receive]
@[simp] theorem receive_ovr (m : Encoding) (b : List Byte) (s : State) :
    (s.receive m b).ovr = s.ovr := by
  simp [State.receive]
@[simp] theorem receive_attempts (m : Encoding) (b : List Byte) (s : State) :
    (s.receive m b).attempts = s.attempts := by
  simp [State.receive]
@[simp] theorem receive_mode (m : Encoding) (b : List Byte) (s : State) :
    (s.receive m b).mode = s.mode := by
  simp [State.receive]
@[simp] theorem receive_timeout (m : Encoding) (b : List Byte) (s : State) :
    (s.receive m b).timeout = s.timeout := by
  simp [State.receive]
@[simp] theorem receive_retries (m : Encoding) (b : List Byte) (s : State) :
    (s.receive m b).retries = s.retries := by
  simp [State.receive]
@[simp] theorem receive_ownAddr (m : Encoding) (b : List Byte) (s : State) :
    (s.receive m b).ownAddr = s.ownAddr := by
  simp [State.receive]
@[simp] theorem receive_efAddr (m : Encoding) (b : List Byte) (s : State) :
    (s.receive m b).efAddr = s.efAddr := by
  simp [State.receive]
@[simp] theorem receive_efFc (m : Encoding) (b : List Byte) (s : State) :
    (s.receive m b).efFc = s.efFc := by
  simp [State.receive]
@[simp] theorem receive_efLen (m : Encoding) (b : List Byte) (s : State) :
    (s.receive m b).efLen = s.efLen := by
  simp [State.receive]
@[simp] theorem receive_txLen (m : Encoding) (b : List Byte) (s : State) :
    (s.receive m b).txLen = s.txLen := by
  simp [State.receive]
@[simp] theorem receive_rxLen (m : Encoding) (b : List Byte) (s : State) :
    (s.receive m b).rxLen = s.rxLen := by
  simp [State.receive]
@[simp] theorem receive_textLen (m : Encoding) (b : List Byte) (s : State) :
    (s.receive m b).textLen = s.textLen := by
  simp [State.receive]
@[simp] theorem receive_efPayload (m : Encoding) (b : List Byte) (s : State) :
    (s.receive m b).efPayload = s.efPayload := by
  simp [State.receive]
@[simp] theorem receive_txBuf (m : Encoding) (b : List Byte) (s : State) :
    (s.receive m b).txBuf = s.txBuf := by
  simp [State.receive]
@[simp] theorem receive_rxBuf (m : Encoding) (b : List Byte) (s : State) :
    (s.receive m b).rxBuf = s.rxBuf := by
  simp [State.receive]
@[simp] theorem receive_text (m : Encoding) (b : List Byte) (s : State) :
    (s.receive m b).text = s.text := by
  simp [State.receive]
@[simp] theorem receive_teState (m : Encoding) (b : List Byte) (s : State) :
    (s.receive m b).teState = s.teState := by
  simp [State.receive]
@[simp] theorem receive_retryCnt (m : Encoding) (b : List Byte) (s : State) :
    (s.receive m b).retryCnt = s.retryCnt := by
  simp [State.receive]
@[simp] theorem receive_timer (m : Encoding) (b : List Byte) (s : State) :
    (s.receive m b).timer = s.timer := by
  simp [State.receive]
@[simp] theorem receive_txPtr (m : Encoding) (b : List Byte) (s : State) :
    (s.receive m b).txPtr = s.txPtr := by
  simp [State.receive]
@[simp] theorem receive_curOp (m : Encoding) (b : List Byte) (s : State) :
    (s.receive m b).curOp = s.curOp := by
  simp [State.receive]
@[simp] theorem receive_tick (m : Encoding) (b : List Byte) (s : State) :
    (s.receive m b).tick = s.tick := by
  simp [State.receive]
@[simp] theorem receive_txReady (m : Encoding) (b : List Byte) (s : State) :
    (s.receive m b).txReady = s.txReady := by
  simp [State.receive]
@[simp] theorem receive_rxValid (m : Encoding) (b : List Byte) (s : State) :
    (s.receive m b).rxValid = s.rxValid := by
  simp [State.receive]
@[simp] theorem receive_txStream (m : Encoding) (b : List Byte) (s : State) :
    (s.receive m b).txStream = s.txStream := by
  simp [State.receive]
@[simp] theorem receive_rxStream (m : Encoding) (b : List Byte) (s : State) :
    (s.receive m b).rxStream = s.rxStream := by
  simp [State.receive]
@[simp] theorem receive_inputs (m : Encoding) (b : List Byte) (s : State) :
    (s.receive m b).inputs = s.inputs := by
  simp [State.receive]
@[simp] theorem receive_hostData (m : Encoding) (b : List Byte) (s : State) :
    (s.receive m b).hostData = s.hostData := by
  simp [State.receive]

end Sys2Proof.Machine
end

