-- ==== Sys2Proof/Laws/Invariant.lean ====
section
/-! SUPPORT. The invariant under each shared operation: what the data part and the control part keep. -/

namespace Sys2Proof.Machine

/-! ### Numbers -/

theorem toNat_ofNat16 (n : Nat) (h : n < 65536) : (BitVec.ofNat 16 n).toNat = n := by
  rw [BitVec.toNat_ofNat]; exact Nat.mod_eq_of_lt h

theorem efBytes_length (s : State) : s.efBytes.length = s.efLen.toNat := by simp [State.efBytes]

theorem rxBytes_length (s : State) : s.rxBytes.length = s.rxLen.toNat := by simp [State.rxBytes]

theorem textBytes_length (s : State) : s.textBytes.length = s.textLen.toNat := by simp [State.textBytes]

theorem dfBytes_length (s : State) : s.dfBytes.length = s.dfLen.toNat := by simp [State.dfBytes]

/-! ### The data part -/

namespace State.DataInv

variable {s : State}

theorem complete (h : s.DataInv) (k : Kind) : (s.complete k).DataInv := { h with }

theorem refuseWrite (h : s.DataInv) : s.refuseWrite.DataInv := { h with }

theorem takeEvent (h : s.DataInv) : s.takeEvent.DataInv := { h with }

theorem withPorts (h : s.DataInv) (t r v : Bool) : (s.withPorts t r v).DataInv := { h with }

theorem runChecksum (h : s.DataInv) (m : Encoding) (a f : Byte) (p : List Byte) :
    (s.runChecksum m a f p).DataInv := by
  cases m <;> exact { h with }

theorem loadChk (h : s.DataInv) (m : Encoding) (a f : Byte) (p : List Byte) : (s.loadChk m a f p).DataInv := by
  cases m <;> exact { h with }

theorem accept (h : s.DataInv) (w : Byte) (d : Bool) : (s.accept w d).DataInv where
  params := h.params
  efLen := h.efLen
  txLen := h.txLen
  rxLen := h.rxLen
  dfLen hv := h.dfLen (by simp at hv; exact hv.1)
  textLen := h.textLen
  ownAddr := h.ownAddr
  efPayload := fits_keepBelow _ _ _ h.efPayload
  txBuf := h.txBuf
  rxBuf := fits_keepBelow _ _ _ h.rxBuf
  dfPayload := by
    have := h.dfPayload
    simp only [accept_dfValid, accept_dfPayload, accept_dfLen, accept_params]
    cases d
    · simpa using this
    · exact fits_shorten _ _ _ _ this (by simp)
  text := h.text
  textUtf8 := h.textUtf8
  exc := by
    have := h.exc
    simp only [accept_dfValid, accept_exc, accept_dfFc, this]
    cases s.dfValid <;> cases d <;> simp

/-- A sequence no longer than `TX_MAX` loaded into `TXBUF`. -/
theorem loadTx (h : s.DataInv) (tx : List Byte) (hl : tx.length ≤ s.params.txMax) : (s.loadTx tx).DataInv := by
  have hw := h.params
  have hn : (BitVec.ofNat 16 tx.length).toNat = tx.length :=
    toNat_ofNat16 _ (by simp only [Params.wf, Params.txMax] at *; omega)
  exact
    { h with
      txLen := by simpa [hn] using hl
      txBuf := by simpa [hn] using fits_ofBytes tx _ hl }

theorem buildFrame (h : s.DataInv) (m : Encoding) (a f : Byte) (p : List Byte)
    (hp : p.length ≤ s.params.payloadMax) : (s.buildFrame m a f p).DataInv := by
  refine loadChk (loadTx h _ ?_) m a f p
  have := (encodeFrame_length_le m s.params.hexUpper a f p).2
  simp only [Params.txMax]; omega

theorem loadEf (h : s.DataInv) (a f : Byte) (p : List Byte) (hp : p.length ≤ s.params.payloadMax) :
    (s.loadEf a f p).DataInv := by
  have hw := h.params
  have hn : (BitVec.ofNat 16 p.length).toNat = p.length :=
    toNat_ofNat16 _ (by simp only [Params.wf] at hw; omega)
  exact
    { h with
      efLen := by simpa [hn] using hp
      efPayload := by simpa [hn] using fits_ofBytes p _ hp }

theorem respond (h : s.DataInv) (f : Byte) (p : List Byte) (k : Kind) (hp : p.length ≤ s.params.payloadMax) :
    (s.respond f p k).DataInv :=
  complete (buildFrame (loadEf h _ _ _ hp) _ _ _ _ hp) k

theorem loadDf (h : s.DataInv) (a f : Byte) (p : List Byte) (c : Half) (hp : p.length ≤ s.params.dfMax) :
    (s.loadDf a f p c).DataInv := by
  have hw := h.params
  have hn : (BitVec.ofNat 16 p.length).toNat = p.length :=
    toNat_ofNat16 _ (by simp only [Params.wf, Params.dfMax] at *; omega)
  exact
    { h with
      dfLen := by simpa [hn] using hp
      dfPayload := by simpa [hn] using fits_ofBytes p _ hp
      exc := by simp }

/-- A change of the draw counter, and of nothing the invariant names. -/
theorem textUtf8_draws (h : s.DataInv) (d : Nat) :
    s.textLen = 0 ∨ utf8Ok s.params (s.text.read d s.textLen.toNat) = true := by
  rcases h.textUtf8 with h0 | h1
  · exact .inl h0
  · right
    rw [read_congr s.text s.text s.draws d _ h.text.2.2 fun _ _ => rfl]
    exact h1

theorem loseDf (h : s.DataInv) : s.loseDf.DataInv where
  params := h.params
  efLen := h.efLen
  txLen := h.txLen
  rxLen := h.rxLen
  dfLen hv := by simp at hv
  textLen := h.textLen
  ownAddr := h.ownAddr
  efPayload := h.efPayload
  txBuf := h.txBuf
  rxBuf := h.rxBuf
  dfPayload := fits_nil _
  text := h.text
  textUtf8 := textUtf8_draws h _
  exc := rfl

theorem noteDecode (h : s.DataInv) (m : Encoding) (b : List Byte) : (s.noteDecode m b).DataInv := by
  unfold State.noteDecode
  split
  · exact h
  · exact runChecksum h _ _ _ _

theorem receive (h : s.DataInv) (m : Encoding) (b : List Byte) (hb : b.length ≤ s.params.rxMax) :
    (s.receive m b).DataInv := by
  unfold State.receive
  cases hv : decodeFrame m b with
  | framingError c => exact loseDf (noteDecode h _ _)
  | checksumError => exact loseDf (noteDecode h _ _)
  | frame q =>
    refine loadDf (noteDecode h _ _) _ _ _ _ ?_
    have := payload_length_le m b q ((decodeFrame_eq_frame_iff m b q).1 hv).1
    simp only [noteDecode_params, Params.dfMax]; omega

theorem beginHandle (h : s.DataInv) : s.beginHandle.DataInv :=
  { h with
    txLen := by simp
    txBuf := fits_nil _
    efPayload := fits_keepBelow _ _ _ h.efPayload }

theorem loadText (h : s.DataInv) (q : List Byte) (hl : q.length ≤ s.params.payloadMax)
    (hu : utf8Ok s.params q = true) : (s.loadText q).DataInv := by
  have hw := h.params
  have hn : (BitVec.ofNat 16 q.length).toNat = q.length :=
    toNat_ofNat16 _ (by simp only [Params.wf] at hw; omega)
  exact
    { h with
      textLen := by simpa [hn] using hl
      text := by simpa [hn] using fits_ofBytes q _ hl
      textUtf8 := by right; simpa [State.textBytes, hn] using hu }

theorem setTextFlags (h : s.DataInv) : s.setTextFlags.DataInv := { h with }

theorem draws (h : s.DataInv) (d : Nat) (w : Word) : State.DataInv { s with draws := d, hostData := w } :=
  { h with textUtf8 := textUtf8_draws h d }

end State.DataInv

end Sys2Proof.Machine
end

