-- ==== Sys2Proof/Laws/Exec.lean ====
section
/-! SUPPORT. What each shared operation of the meanings does: decoding and writing back, building a frame, responding,
one cycle of a link command, and the dispatch of a request. -/

namespace Sys2Proof.Machine

/-! ### Words of commands -/

/-- A command that decodes is its low byte (rule R118). -/
theorem decodeCmd_low (r : Bool) (w : Word) (i : Instr) (h : decodeCmd r w = .ok i) :
    Byte.toWord (w.setWidth 8) = w := by
  unfold decodeCmd at h
  split at h
  · cases h
  · next hz =>
    simp only [ne_eq, Decidable.not_not] at hz
    refine BitVec.eq_of_getLsbD_eq fun k hk => ?_
    simp only [Byte.toWord, BitVec.getLsbD_setWidth]
    by_cases h8 : k < 8
    · simp [h8, hk]
    · have := congrArg (fun x => x.getLsbD (k - 8)) hz
      simp only [BitVec.getLsbD_extractLsb'] at this
      rw [show 8 + (k - 8) = k by omega] at this
      simp [show k - 8 < 24 by omega] at this
      simp [h8, this]

/-! ### Decoding and writing back (rule R196) -/

/-- The payload of a frame among the received bytes. -/
theorem payload_length_rx (m : Encoding) (s : State) (q : Parsed) (h : decodeFrame m s.rxBytes = .frame q) :
    q.payload.length + 4 ≤ s.rxLen.toNat := by
  have := payload_length_le m _ q ((decodeFrame_eq_frame_iff m _ q).1 h).1
  rwa [rxBytes_length] at this

theorem receive_frame (m : Encoding) (s : State) (bs : List Byte) (q : Parsed) (h : decodeFrame m bs = .frame q) :
    s.receive m bs = (s.noteDecode m bs).loadDf q.addr q.fc q.payload q.check := by
  unfold State.receive; rw [h]; rfl

theorem receive_bad (m : Encoding) (s : State) (bs : List Byte) (h : ∀ q, decodeFrame m bs ≠ .frame q) :
    s.receive m bs = (s.noteDecode m bs).loseDf := by
  unfold State.receive
  cases hh : decodeFrame m bs with
  | frame q => exact absurd hh (h q)
  | framingError c => rfl
  | checksumError => rfl

/-- The payload loaded into DF reads back. -/
theorem loadDf_bytes (s : State) (a f : Byte) (p : List Byte) (c : Half) (hl : p.length < 65536) :
    (s.loadDf a f p c).dfLen.toNat = p.length ∧ (s.loadDf a f p c).dfBytes = p ∧
      ∀ j, (s.loadDf a f p c).byteAt 3 j = p[j]? := by
  have hn := toNat_ofNat16 _ hl
  refine ⟨hn, ?_, fun j => byteAt?_ofBytes _ _⟩
  show Memory.read (Memory.ofBytes p) _ (BitVec.ofNat 16 p.length).toNat = _
  rw [hn]; exact read_ofBytes _ _

/-! ### Building a frame (rules R164, R168, R218) -/

/-- The frame built reads back from `TXBUF`. -/
theorem buildFrame_bytes (m : Encoding) (a f : Byte) (p : List Byte) (s : State) (hl : 9 + 2 * p.length < 65536) :
    (s.buildFrame m a f p).txLen.toNat = (encodeFrame m s.params.hexUpper a f p).length ∧
      (s.buildFrame m a f p).txBytes = encodeFrame m s.params.hexUpper a f p := by
  have hn : (BitVec.ofNat 16 (encodeFrame m s.params.hexUpper a f p).length).toNat
      = (encodeFrame m s.params.hexUpper a f p).length :=
    toNat_ofNat16 _ (by have := (encodeFrame_length_le m s.params.hexUpper a f p).2; omega)
  have e1 : (s.buildFrame m a f p).txLen = BitVec.ofNat 16 (encodeFrame m s.params.hexUpper a f p).length := by simp
  have e2 : (s.buildFrame m a f p).txBuf = Memory.ofBytes (encodeFrame m s.params.hexUpper a f p) := by simp
  refine ⟨by rw [e1, hn], ?_⟩
  unfold State.txBytes; rw [e1, e2, hn]; exact read_ofBytes _ _

/-- The response (rule R260 steps 5 and 6): every field it touches. -/
theorem respond_facts (s : State) (f : Byte) (p : List Byte) (k : Kind) (hp : 9 + 2 * p.length < 65536) :
    s.respond f p k = { s with
        efAddr := s.dfAddr, efFc := f, efLen := (s.respond f p k).efLen,
        efPayload := (s.respond f p k).efPayload, txBuf := (s.respond f p k).txBuf,
        txLen := (s.respond f p k).txLen, chk := checksum s.mode s.dfAddr f p,
        lrcAcc := (s.respond f p k).lrcAcc, crcReg := (s.respond f p k).crcReg,
        busy := false, done := true, result := k, teState := .idle } ∧
      (s.respond f p k).efLen.toNat = p.length ∧ (s.respond f p k).efBytes = p ∧
      (s.respond f p k).txLen.toNat = (encodeFrame s.mode s.params.hexUpper s.dfAddr f p).length ∧
      (s.respond f p k).txBytes = encodeFrame s.mode s.params.hexUpper s.dfAddr f p := by
  have hn := toNat_ofNat16 p.length (by omega)
  have hb := buildFrame_bytes s.mode s.dfAddr f p (s.loadEf s.dfAddr f p) hp
  refine ⟨?_, ?_, ?_, ?_, ?_⟩
  · unfold State.respond; apply State.ext <;> simp
  · simp [State.respond, hn]
  · unfold State.efBytes State.respond
    simp
    rw [show p.length % 65536 = p.length by omega]; exact read_ofBytes _ _
  · simpa [State.respond] using hb.1
  · simpa [State.respond, State.txBytes] using hb.2

/-- Acceptance keeps exactly the bytes below the two lengths that the host sets, and so the operands. -/
theorem accept_bytes (w : Byte) (d : Bool) (s : State) :
    (∀ i, (s.accept w d).byteAt 0 i = if i < s.efLen.toNat then s.byteAt 0 i else none) ∧
      (∀ i, (s.accept w d).byteAt 2 i = if i < s.rxLen.toNat then s.byteAt 2 i else none) ∧
      (s.accept w d).efBytes = s.efBytes ∧ (s.accept w d).rxBytes = s.rxBytes := by
  refine ⟨fun i => byteAt?_keepBelow _ _ _, fun i => byteAt?_keepBelow _ _ _, ?_, ?_⟩
  · simp [State.efBytes]
  · simp [State.rxBytes]

/-- `HANDLE` begins: the bytes of EF below its length stay. -/
theorem beginHandle_ef (s : State) (i : Nat) (h : i < s.efLen.toNat) :
    s.beginHandle.efPayload.byteAt? i = s.efPayload.byteAt? i := by
  show (s.efPayload.keepBelow s.efLen.toNat).byteAt? i = _
  rw [byteAt?_keepBelow, if_pos h]

/-! ### One cycle of a link command (rule R248) -/

/-- The byte on offer in `SEND` is the next byte of `TXBUF`. -/
theorem txData_offered (s : State) (ht : s.teState = .send) (h : s.txPtr.toNat < s.txLen.toNat) :
    s.txValid = true ∧ s.txData = s.txNext := by
  have hv : s.txValid = true := by simp [State.txValid, ht, BitVec.lt_def, h]
  exact ⟨hv, by rw [State.txData, if_pos hv]⟩

/-- The three link commands are one sequencer, with what each does to EF and what it adds to a success. -/
theorem exec_link (i : Instr) (hi : i = .execute ∨ i = .writeText ∨ i = .readText) :
    ∃ pre fin, (∀ s, pre s = s.prepared i) ∧
      ((i = .readText ∧ fin = State.setTextFlags) ∨ (i ≠ .readText ∧ fin = id)) ∧
      ∀ s, exec i s = .next (linkStep pre fin s) := by
  rcases hi with rfl | rfl | rfl
  · exact ⟨id, id, fun _ => rfl, .inr ⟨by simp, rfl⟩, fun _ => rfl⟩
  · exact ⟨_, id, fun _ => rfl, .inr ⟨by simp, rfl⟩, fun _ => rfl⟩
  · exact ⟨_, _, fun _ => rfl, .inl ⟨rfl, rfl⟩, fun _ => rfl⟩

theorem linkStep_idle (pre fin : State → State) (s : State) (h : s.teState = .idle) :
    linkStep pre fin s = linkStart pre s := by rw [linkStep, h]

theorem linkStep_build (pre fin : State → State) (s : State) (h : s.teState = .build) :
    linkStep pre fin s = linkBuild s := by rw [linkStep, h]

theorem linkStep_send (pre fin : State → State) (s : State) (h : s.teState = .send) :
    linkStep pre fin s = linkSend s := by rw [linkStep, h]

theorem linkStep_wait (pre fin : State → State) (s : State) (h : s.teState = .wait) :
    linkStep pre fin s = linkWait s := by rw [linkStep, h]

theorem linkStep_check (pre fin : State → State) (s : State) (h : s.teState = .check) :
    linkStep pre fin s = linkCheck fin s := by rw [linkStep, h]

/-- The check of an attempt that fails. -/
theorem linkCheck_failed (fin : State → State) (s : State) (c : Cause) (h : failedBy s.mode s.rxBytes = some c) :
    linkCheck fin s = linkFail c (if s.rxLen = 0 then s else s.receive s.mode s.rxBytes) := by
  have hl : s.rxBytes = [] ↔ s.rxLen = 0 := by
    rw [← List.length_eq_zero_iff, rxBytes_length]
    exact ⟨fun h => BitVec.eq_of_toNat_eq h, fun h => by rw [h]; rfl⟩
  unfold failedBy at h
  unfold linkCheck
  by_cases h0 : s.rxLen = 0
  · rw [if_pos (hl.2 h0)] at h
    rw [if_pos h0, if_pos h0, ← Option.some.inj h]
  · rw [if_neg (fun hh => h0 (hl.1 hh))] at h
    rw [if_neg h0, if_neg h0]
    cases hd : decodeFrame s.mode s.rxBytes with
    | frame q => rw [hd] at h; cases h
    | framingError d => rw [hd] at h; cases h; rfl
    | checksumError => rw [hd] at h; cases h; rfl

/-- The check of an attempt that succeeds. -/
theorem linkCheck_succeeded (fin : State → State) (s : State) (h : failedBy s.mode s.rxBytes = none) :
    s.rxLen ≠ 0 ∧ ∃ q, decodeFrame s.mode s.rxBytes = .frame q ∧
      linkCheck fin s
        = (fin ((s.noteDecode s.mode s.rxBytes).loadDf q.addr q.fc q.payload q.check)).complete .ok := by
  unfold failedBy at h
  split at h
  · cases h
  next hne =>
  have h0 : s.rxLen ≠ 0 := fun h0 => hne (by rw [← List.length_eq_zero_iff, rxBytes_length, h0]; rfl)
  refine ⟨h0, ?_⟩
  cases hd : decodeFrame s.mode s.rxBytes with
  | frame q =>
    refine ⟨q, rfl, ?_⟩
    rw [← receive_frame s.mode s _ q hd]
    unfold linkCheck
    rw [if_neg h0, hd]
  | framingError d => rw [hd] at h; cases h
  | checksumError => rw [hd] at h; cases h

/-! ### The dispatch of a request (rule R260) -/

/-- A request for this slave reaches the meaning of its function code. -/
theorem execHandle_request (s : State) (q : Parsed) (h : decodeFrame s.mode s.rxBytes = .frame q)
    (ha : q.addr = s.ownAddr) :
    exec .handle s = serveRequest q.fc
      ((s.beginHandle.noteDecode s.mode s.rxBytes).loadDf q.addr q.fc q.payload q.check) := by
  rw [← receive_frame s.mode _ _ q h]
  simp only [exec, execHandle, h, ha, if_true]

/-- A frame for another slave. -/
theorem execHandle_other (s : State) (q : Parsed) (h : decodeFrame s.mode s.rxBytes = .frame q)
    (ha : q.addr ≠ s.ownAddr) :
    exec .handle s = .next
      (((s.beginHandle.noteDecode s.mode s.rxBytes).loadDf q.addr q.fc q.payload q.check).complete .addressMismatch) := by
  rw [← receive_frame s.mode _ _ q h]
  simp only [exec, execHandle, h, ha, if_false]

/-- Bytes that are no frame. -/
theorem execHandle_bad (s : State) (h : ∀ q, decodeFrame s.mode s.rxBytes ≠ .frame q) :
    exec .handle s = .next
      (((s.beginHandle.noteDecode s.mode s.rxBytes).loseDf).complete (decodeFrame s.mode s.rxBytes).kind) := by
  rw [← receive_bad s.mode _ _ h]
  cases hd : decodeFrame s.mode s.rxBytes with
  | frame q => exact absurd hd (h q)
  | framingError c => simp only [exec, execHandle, hd]; rfl
  | checksumError => simp only [exec, execHandle, hd]; rfl

end Sys2Proof.Machine
end

