-- ==== Sys2Proof/Laws/Link.lean ====
section
/-! SUPPORT. The invariant under each instruction: the data part under every meaning, the control part under every cycle
of a link command, under acceptance and under completion. -/

namespace Sys2Proof.Machine

/-! ### The data part -/

theorem efBytes_fit (s : State) (h : s.DataInv) : s.efBytes.length ≤ s.params.payloadMax := by
  rw [efBytes_length]; exact h.efLen

theorem linkBuild_data (s : State) (h : s.DataInv) : (linkBuild s).DataInv := by
  have := h.buildFrame s.mode s.efAddr s.efFc s.efBytes (efBytes_fit s h)
  exact { this with }

theorem linkSend_data (s : State) (h : s.DataInv) : (linkSend s).DataInv := by
  unfold linkSend; split
  · split
    · exact { h with }
    · exact h
  · exact { h with rxLen := by simp [openWindow], rxBuf := fits_nil _ }

theorem takeByte_data (s : State) (h : s.DataInv) (hl : s.rxLen.toNat < s.params.rxMax) : (takeByte s).DataInv := by
  unfold takeByte; split
  · next b hb =>
    have hw := h.params
    have : (s.rxLen + 1).toNat = s.rxLen.toNat + 1 := by
      rw [BitVec.toNat_add]; simp only [Params.wf] at hw; simp; omega
    exact { h with
      rxLen := by rw [this]; exact hl
      rxBuf := by rw [this]; exact fits_append _ _ _ _ h.rxBuf hl }
  · exact h

theorem countTick_data (s : State) (h : s.DataInv) : (countTick s).DataInv := by
  unfold countTick; split
  · exact { h with }
  · exact h

theorem linkWait_data (s : State) (h : s.DataInv) : (linkWait s).DataInv := by
  unfold linkWait; split
  · next hw =>
    simp only [State.windowOpen, Bool.and_eq_true, decide_eq_true_eq] at hw
    exact countTick_data _ (takeByte_data s h hw.1)
  · exact { countTick_data s h with }

theorem linkFail_data (c : Cause) (s : State) (h : s.DataInv) : (linkFail c s).DataInv := by
  unfold linkFail; split
  · exact { h with }
  · exact { h with }

theorem linkCheck_data (fin : State → State) (hf : ∀ s : State, s.DataInv → (fin s).DataInv) (s : State)
    (h : s.DataInv) : (linkCheck fin s).DataInv := by
  have hr : (s.receive s.mode s.rxBytes).DataInv := h.receive _ _ (by rw [rxBytes_length]; exact h.rxLen)
  unfold linkCheck; split
  · exact linkFail_data _ _ h
  · split
    · exact (hf _ hr).complete _
    · exact linkFail_data _ _ hr
    · exact linkFail_data _ _ hr

theorem linkStep_data (pre fin : State → State) (hp : ∀ s : State, s.DataInv → (pre s).DataInv)
    (hf : ∀ s : State, s.DataInv → (fin s).DataInv) (s : State) (h : s.DataInv) :
    (linkStep pre fin s).DataInv := by
  unfold linkStep; split
  · have : ({ s with retryCnt := 0 } : State).DataInv := { h with }
    have := hp _ this
    exact { this with }
  · exact linkBuild_data s h
  · exact linkSend_data s h
  · exact linkWait_data s h
  · exact linkCheck_data fin hf s h

theorem prepareWriteText_data (s : State) (h : s.DataInv) : (prepareWriteText s).DataInv := { h with }

theorem prepareReadText_data (s : State) (h : s.DataInv) : (prepareReadText s).DataInv :=
  { h with
    efLen := by simp [prepareReadText]
    efPayload := fits_ofBytes [] _ (Nat.zero_le _) }

theorem execFcWriteText_data (s t : State) (h : s.DataInv) (e : execFcWriteText s = .next t) : t.DataInv := by
  unfold execFcWriteText at e
  cases e
  have := h.params
  split
  · next ha =>
    simp only [State.textAccepted, Bool.and_eq_true, decide_eq_true_eq] at ha
    exact (h.loadText _ (by rw [dfBytes_length]; exact ha.1) ha.2).respond _ _ _ (by simp)
  · exact h.respond _ _ _ (by simpa using this.1)

theorem execFcReadText_data (s t : State) (h : s.DataInv) (e : execFcReadText s = .next t) : t.DataInv := by
  cases e
  exact h.respond _ _ _ (by rw [textBytes_length]; exact h.textLen)

theorem execFcException_data (low : BitVec 7) (s t : State) (h : s.DataInv) (e : execFcException low s = .next t) :
    t.DataInv := by
  cases e
  exact h.respond _ _ _ (by simpa using h.params.1)

/-- Every meaning keeps the data part of the invariant, in every state. -/
theorem exec_data (i : Instr) (s t : State) (h : s.DataInv) (e : exec i s = .next t) : t.DataInv := by
  have hr : ∀ m, (s.receive m s.rxBytes).DataInv := fun m => h.receive _ _ (by rw [rxBytes_length]; exact h.rxLen)
  have hb : (s.beginHandle.receive s.mode s.rxBytes).DataInv :=
    h.beginHandle.receive _ _ (by rw [rxBytes_length]; exact h.rxLen)
  cases i <;> simp only [exec] at e
  · cases e; exact (h.loadChk _ _ _ _).complete _
  · cases e; exact (h.loadChk _ _ _ _).complete _
  · cases e; exact (h.buildFrame _ _ _ _ (efBytes_fit s h)).complete _
  · cases e; exact (h.buildFrame _ _ _ _ (efBytes_fit s h)).complete _
  · cases e; exact (hr _).complete _
  · cases e; exact (hr _).complete _
  · cases e; exact linkStep_data _ _ (fun _ h => h) (fun _ h => h) s h
  · cases e; exact linkStep_data _ _ prepareWriteText_data (fun _ h => h) s h
  · cases e; exact linkStep_data _ _ prepareReadText_data (fun _ h => h.setTextFlags) s h
  · unfold execHandle at e
    split at e
    · cases e; exact hb.complete _
    · cases e; exact hb.complete _
    · split at e
      · unfold serveRequest at e
        split at e
        · exact execFcWriteText_data _ _ hb e
        · split at e
          · exact execFcReadText_data _ _ hb e
          · exact execFcException_data _ _ _ hb e
      · cases e; exact hb.complete _
  · exact execFcWriteText_data _ _ h e
  · exact execFcReadText_data _ _ h e
  · exact execFcException_data _ _ _ h e

/-! ### The control part -/

/-- The state that completion leaves. -/
theorem complete_control (s : State) (k : Kind)
    (hf : s.textValid = true ∨ s.utf8Err = true → s.dfValid = true)
    (ho : ¬(s.textValid = true ∧ s.utf8Err = true)) : (s.complete k).ControlInv where
  idle _ := rfl
  notDone h := by simp at h
  command h := by simp at h
  noFrame h := by simp at h
  retryCnt h := by simp at h
  attemptsStart h := by simp at h
  attemptsBuild h := by simp at h
  attemptsRun h := by simp at h
  txPtr h := by simp at h
  timer h := by simp at h
  textFlags h := ⟨hf h, rfl⟩
  textOne := ho

/-- The text flags are 0 while a command runs. -/
theorem busy_noText (s : State) (h : s.ControlInv) (hb : s.busy = true) :
    s.textValid = false ∧ s.utf8Err = false := by
  constructor
  · by_contra hc
    have := (h.textFlags (.inl (by simpa using hc))).2
    simp_all
  · by_contra hc
    have := (h.textFlags (.inr (by simpa using hc))).2
    simp_all

/-- A link command is in progress: what its cycles need to know of the state. -/
structure Linking (i : Instr) (s : State) : Prop where
  busy : s.busy = true
  done : s.done = false
  cmd : decodeCmd s.params.hasRd s.curOp.toWord = .ok i
  noFrame : s.dfValid = false
  noText : s.textValid = false ∧ s.utf8Err = false

theorem linking_of_inv (i : Instr) (s : State) (h : s.ControlInv) (hb : s.busy = true)
    (hc : decodeCmd s.params.hasRd s.curOp.toWord = .ok i) (hl : isLink i = true) : Linking i s where
  busy := hb
  done := h.notDone hb
  cmd := hc
  noFrame := h.noFrame hb i hc (by cases i <;> first | rfl | cases hl)
  noText := busy_noText s h hb

/-- The sequencer runs exactly while a link command is in progress. -/
theorem linking_of_running (s : State) (h : s.ControlInv) (ht : s.teState ≠ .idle) :
    ∃ i, isLink i = true ∧ Linking i s := by
  have hb : s.busy = true := by
    by_contra hb
    exact ht (h.idle (by simpa using hb))
  obtain ⟨i, hc, hl⟩ := h.command hb
  exact ⟨i, hl.1 ht, linking_of_inv i s h hb hc (hl.1 ht)⟩

/-- A link command in a state of the sequencer other than `IDLE`, its counters in step. -/
theorem Linking.control {i : Instr} {s : State} (h : Linking i s) (hl : isLink i = true) (ht : s.teState ≠ .idle)
    (hr : s.retryCnt.toNat ≤ s.retries.toNat)
    (hb : s.teState = .build → s.attempts.toNat = s.retryCnt.toNat)
    (ha : s.teState = .send ∨ s.teState = .wait ∨ s.teState = .check → s.attempts.toNat = s.retryCnt.toNat + 1)
    (hp : s.teState = .send → s.txPtr.toNat ≤ s.txLen.toNat)
    (hm : s.teState = .wait ∨ s.teState = .check → s.timer.toNat ≤ s.timeout.toNat) : s.ControlInv where
  idle hi := by rw [h.busy] at hi; cases hi
  notDone _ := h.done
  command _ := ⟨i, h.cmd, by simp [ht, hl]⟩
  noFrame _ _ _ _ := h.noFrame
  retryCnt _ := hr
  attemptsStart _ hi := absurd hi ht
  attemptsBuild := hb
  attemptsRun := ha
  txPtr := hp
  timer := hm
  textFlags ht := by simp [h.noText] at ht
  textOne ht := by simp [h.noText] at ht

/-- `IDLE` to `BUILD`, from the state that acceptance leaves (rule R216). -/
theorem linkStart_control (i : Instr) (hl : isLink i = true) (pre : State → State) (s : State)
    (hpre : pre = id ∨ pre = prepareWriteText ∨ pre = prepareReadText) (h : Linking i s) (ha : s.attempts = 0) :
    (linkStart pre s).ControlInv := by
  have key : Linking i (linkStart pre s) := by
    rcases hpre with rfl | rfl | rfl <;> exact ⟨h.busy, h.done, h.cmd, h.noFrame, h.noText⟩
  refine key.control hl (by simp [linkStart]) ?_ ?_ ?_ ?_ ?_
  · rcases hpre with rfl | rfl | rfl <;> simp [linkStart, prepareWriteText, prepareReadText]
  · rcases hpre with rfl | rfl | rfl <;> simp [linkStart, prepareWriteText, prepareReadText, ha]
  · simp [linkStart]
  · simp [linkStart]
  · simp [linkStart]

theorem linkBuild_linking (i : Instr) (s : State) (h : Linking i s) : Linking i (linkBuild s) :=
  ⟨by simpa [linkBuild] using h.busy, by simpa [linkBuild] using h.done, by simpa [linkBuild] using h.cmd,
    by simpa [linkBuild] using h.noFrame, by simpa [linkBuild] using h.noText⟩

theorem linkBuild_control (i : Instr) (hl : isLink i = true) (s : State) (h : Linking i s) (hc : s.ControlInv)
    (ht : s.teState = .build) : (linkBuild s).ControlInv := by
  have h1 := hc.attemptsBuild ht
  have h2 : s.retryCnt.toNat < 256 := s.retryCnt.isLt
  have hr := hc.retryCnt (by simp [ht])
  refine (linkBuild_linking i s h).control hl (by simp [linkBuild]) (by simpa [linkBuild] using hr)
    (by simp [linkBuild]) (fun _ => ?_) (by simp [linkBuild]) (by simp [linkBuild])
  simp only [linkBuild, buildFrame_retryCnt]
  rw [BitVec.toNat_add]; simp; omega

theorem linkSend_control (i : Instr) (hl : isLink i = true) (s : State) (h : Linking i s) (hc : s.ControlInv)
    (ht : s.teState = .send) : (linkSend s).ControlInv := by
  have h1 := hc.attemptsRun (.inl ht)
  have hr := hc.retryCnt (by simp [ht])
  have hln := s.txLen.isLt
  unfold linkSend
  split
  · next hp =>
    split
    · refine Linking.control (i := i) ⟨h.busy, h.done, h.cmd, h.noFrame, h.noText⟩ hl (by simp [sendByte, ht]) hr
        (by simp [sendByte, ht]) (fun _ => h1) (fun _ => ?_) (by simp [sendByte, ht])
      simp only [BitVec.lt_def] at hp
      simp only [sendByte]
      rw [BitVec.toNat_add]; simp; omega
    · exact hc
  · exact Linking.control (i := i) ⟨h.busy, h.done, h.cmd, h.noFrame, h.noText⟩ hl (by simp [openWindow]) hr
      (by simp [openWindow]) (fun _ => h1) (by simp [openWindow]) (by simp [openWindow])

/-- Taking a byte touches only the receive buffer and the receive stream. -/
theorem takeByte_eq (s : State) :
    ∃ buf n str, takeByte s = { s with rxBuf := buf, rxLen := n, rxStream := str } := by
  unfold takeByte; split
  · exact ⟨_, _, _, rfl⟩
  · exact ⟨s.rxBuf, s.rxLen, s.rxStream, rfl⟩

/-- Counting a tick touches only the timer, and not beyond the timeout. -/
theorem countTick_eq (s : State) :
    countTick s
      = { s with timer := if s.tick = true ∧ s.timer.toNat < s.timeout.toNat then s.timer + 1 else s.timer } := by
  simp only [countTick, Bool.and_eq_true, decide_eq_true_eq, BitVec.lt_def]
  split <;> rfl

/-- A timer that counts stays within the timeout. -/
theorem countTick_timer (s : State) (h : s.timer.toNat ≤ s.timeout.toNat) :
    (countTick s).timer.toNat ≤ s.timeout.toNat := by
  have := s.timeout.isLt
  simp only [countTick_eq]
  split
  · rw [BitVec.toNat_add]; simp; omega
  · exact h

theorem linkWait_control (i : Instr) (hl : isLink i = true) (s : State) (h : Linking i s) (hc : s.ControlInv)
    (ht : s.teState = .wait) : (linkWait s).ControlInv := by
  have h1 := hc.attemptsRun (.inr (.inl ht))
  have hr := hc.retryCnt (by simp [ht])
  have htm := hc.timer (.inl ht)
  unfold linkWait
  split
  · obtain ⟨buf, n, str, e⟩ := takeByte_eq s
    have hct := countTick_timer (takeByte s) (by rw [e]; exact htm)
    rw [countTick_eq, e] at hct
    rw [countTick_eq, e]
    exact Linking.control (i := i) ⟨h.busy, h.done, h.cmd, h.noFrame, h.noText⟩ hl (by simp [ht]) hr
      (by simp [ht]) (fun _ => h1) (by simp [ht]) (fun _ => hct)
  · have hct := countTick_timer s htm
    rw [countTick_eq] at hct
    rw [countTick_eq]
    exact Linking.control (i := i) ⟨h.busy, h.done, h.cmd, h.noFrame, h.noText⟩ hl (by simp) hr (by simp)
      (fun _ => h1) (by simp) (fun _ => hct)

theorem linkFail_control (i : Instr) (hl : isLink i = true) (c : Cause) (s : State) (h : Linking i s)
    (h1 : s.attempts.toNat = s.retryCnt.toNat + 1) (hr : s.retryCnt.toNat ≤ s.retries.toNat) :
    (linkFail c s).ControlInv := by
  unfold linkFail
  split
  · exact complete_control _ _ (by simp [h.noText]) (by simp [h.noText])
  · next hne =>
    have hne' : s.retryCnt.toNat ≠ s.retries.toNat := fun hh => hne (BitVec.eq_of_toNat_eq hh)
    have := s.retries.isLt
    have e : (s.retryCnt + 1).toNat = s.retryCnt.toNat + 1 := by rw [BitVec.toNat_add]; simp; omega
    exact Linking.control (i := i) ⟨h.busy, h.done, h.cmd, h.noFrame, h.noText⟩ hl (by simp)
      (by simp only [e]; omega) (fun _ => by simp only [e]; exact h1) (by simp) (by simp) (by simp)

theorem loseDf_linking (i : Instr) (s : State) (m : Encoding) (b : List Byte) (h : Linking i s)
    (hb : ∀ q, decodeFrame m b ≠ .frame q) : Linking i (s.receive m b) := by
  rw [receive_bad m s b hb]
  exact ⟨by simpa using h.busy, by simpa using h.done, by simpa using h.cmd, by simp, by simpa using h.noText⟩

theorem linkCheck_control (i : Instr) (hl : isLink i = true) (fin : State → State)
    (hfin : fin = id ∨ fin = State.setTextFlags) (s : State) (h : Linking i s) (hc : s.ControlInv)
    (ht : s.teState = .check) : (linkCheck fin s).ControlInv := by
  have h1 := hc.attemptsRun (.inr (.inr ht))
  have hr := hc.retryCnt (by simp [ht])
  unfold linkCheck
  split
  · exact linkFail_control i hl _ _ h h1 hr
  · split
    · next q hq =>
      rw [receive_frame _ _ _ _ hq]
      rcases hfin with rfl | rfl
      · exact complete_control _ _ (by simp) (by simp [h.noText])
      · exact complete_control _ _ (by simp [State.setTextFlags]) (by simp)
    · next c hd =>
      exact linkFail_control i hl _ _ (loseDf_linking i s _ _ h (by simp [hd])) (by simpa using h1) (by simpa using hr)
    · next hd =>
      exact linkFail_control i hl _ _ (loseDf_linking i s _ _ h (by simp [hd])) (by simpa using h1) (by simpa using hr)

theorem linkStep_control (i : Instr) (hl : isLink i = true) (pre fin : State → State)
    (hfin : fin = id ∨ fin = State.setTextFlags) (s : State) (h : Linking i s) (hc : s.ControlInv)
    (ht : s.teState ≠ .idle) : (linkStep pre fin s).ControlInv := by
  unfold linkStep
  split
  · next hi => exact absurd hi ht
  · next hi => exact linkBuild_control i hl s h hc hi
  · next hi => exact linkSend_control i hl s h hc hi
  · next hi => exact linkWait_control i hl s h hc hi
  · next hi => exact linkCheck_control i hl fin hfin s h hc hi

theorem respond_control (s : State) (f : Byte) (p : List Byte) (k : Kind) (h1 : s.textValid = false)
    (h2 : s.utf8Err = false) : (s.respond f p k).ControlInv :=
  complete_control _ _ (by simp [h1, h2]) (by simp [h1])

theorem serveRequest_control (s t : State) (f : Byte) (h1 : s.textValid = false) (h2 : s.utf8Err = false)
    (e : serveRequest f s = .next t) : t.ControlInv := by
  unfold serveRequest at e
  split at e
  · unfold execFcWriteText at e; cases e
    split
    · exact respond_control _ _ _ _ (by simpa using h1) (by simpa using h2)
    · exact respond_control _ _ _ _ h1 h2
  · split at e
    · cases e; exact respond_control _ _ _ _ h1 h2
    · cases e; exact respond_control _ _ _ _ h1 h2

/-- Acceptance of a command that goes no further in the same step. -/
theorem accept_control (s : State) (w : Byte) (d : Bool) (i : Instr) (hc : decodeCmd s.params.hasRd w.toWord = .ok i)
    (hl : isLink i = false) (hd : decodesFrame i = d) (h : s.ControlInv) (hb : s.busy = false) :
    (s.accept w d).ControlInv := by
  have ht := h.idle hb
  exact
    { idle := by simp
      notDone := by simp
      command := fun _ => ⟨i, hc, by simp [ht, hl]⟩
      noFrame := fun _ j hj hdj => by
        simp only [accept_params, accept_curOp] at hj
        rw [hc] at hj; cases hj
        simp [← hd, hdj]
      retryCnt := by simp [ht]
      attemptsStart := by simp
      attemptsBuild := by simp [ht]
      attemptsRun := by simp [ht]
      txPtr := by simp [ht]
      timer := by simp [ht]
      textFlags := by simp
      textOne := by simp }

/-- Acceptance leaves a link command in progress. -/
theorem accept_linking (s : State) (w : Byte) (i : Instr) (hc : decodeCmd s.params.hasRd w.toWord = .ok i)
    (hl : isLink i = true) : Linking i (s.accept w (decodesFrame i)) := by
  have hd : decodesFrame i = true := by cases i <;> first | rfl | cases hl
  exact ⟨rfl, rfl, hc, by simp [hd], by simp⟩

end Sys2Proof.Machine
end

