-- ==== Sys2Proof/Laws/PerInstr.lean ====
section
/-! SUPPORT. One lemma per constructor of `Instr` on the fields of its encoded word, for the host's case split over all
instructions. -/

namespace Sys2Proof.Laws

/-- The family `EncodedWord`: the word of an instruction is one byte (rules R110, R118); that of a command has zeros in
bits 7 to 5, an `OP` of 1 to 8, and `ENC` only with `OP` 3 or 4 (rules R118, R120); a block with every unit has the
instruction (rule R4). -/
def EncodedWord.Statement (i : Instr) : Prop :=
  (encode i).extractLsb' 8 24 = 0 ∧
    (i.format = .cmd8 →
      (encode i).extractLsb' 5 3 = 0 ∧ 1 ≤ ((encode i).extractLsb' 0 4).toNat ∧
        ((encode i).extractLsb' 0 4).toNat ≤ 8 ∧
        ((encode i).getLsbD 4 = true →
          ((encode i).extractLsb' 0 4).toNat = 3 ∨ ((encode i).extractLsb' 0 4).toNat = 4)) ∧
    i.wellFormed true = true

theorem EncodedWord.lrc : EncodedWord.Statement .lrc := by unfold EncodedWord.Statement; decide

theorem EncodedWord.crc16 : EncodedWord.Statement .crc16 := by unfold EncodedWord.Statement; decide

theorem EncodedWord.encAscii : EncodedWord.Statement .encAscii := by unfold EncodedWord.Statement; decide

theorem EncodedWord.encRtu : EncodedWord.Statement .encRtu := by unfold EncodedWord.Statement; decide

theorem EncodedWord.decAscii : EncodedWord.Statement .decAscii := by unfold EncodedWord.Statement; decide

theorem EncodedWord.decRtu : EncodedWord.Statement .decRtu := by unfold EncodedWord.Statement; decide

theorem EncodedWord.execute : EncodedWord.Statement .execute := by unfold EncodedWord.Statement; decide

theorem EncodedWord.writeText : EncodedWord.Statement .writeText := by unfold EncodedWord.Statement; decide

theorem EncodedWord.readText : EncodedWord.Statement .readText := by unfold EncodedWord.Statement; decide

theorem EncodedWord.handle : EncodedWord.Statement .handle := by unfold EncodedWord.Statement; decide

theorem EncodedWord.fcWriteText : EncodedWord.Statement .fcWriteText := by unfold EncodedWord.Statement; decide

theorem EncodedWord.fcReadText : EncodedWord.Statement .fcReadText := by unfold EncodedWord.Statement; decide

theorem EncodedWord.fcException (low : BitVec 7) : EncodedWord.Statement (.fcException low) := by
  unfold EncodedWord.Statement; revert low; decide

end Sys2Proof.Laws
end

