-- ==== Sys2Proof/Laws/Step.lean ====
section
/-! SUPPORT. Everything one step can be: the inversion of `step` in a state that satisfies the control part of the
invariant. -/

namespace Sys2Proof.Machine

/-- A command word never decodes to a function code. -/
theorem decodeCmd_not_fc (i : Instr) (r : Bool) (w : Word) (h : decodeCmd r w = .ok i) :
    i ≠ .fcWriteText ∧ i ≠ .fcReadText ∧ ∀ low, i ≠ .fcException low := by
  unfold decodeCmd at h
  split at h
  · cases h
  · split at h
    · cases h
    · unfold decodeOp at h
      split at h <;> first | (cases h; simp) | (split at h <;> first | (cases h; simp) | cases h)

/-- What the decoder and the write-back leave alone, whatever the verdict. -/
theorem receive_frame_fields (m : Encoding) (b : List Byte) (s : State) :
    (s.receive m b).params = s.params ∧ (s.receive m b).mode = s.mode ∧ (s.receive m b).retries = s.retries ∧
      (s.receive m b).retryCnt = s.retryCnt ∧ (s.receive m b).attempts = s.attempts ∧
      (s.receive m b).teState = s.teState ∧ (s.receive m b).result = s.result ∧ (s.receive m b).ovr = s.ovr ∧
      (s.receive m b).txStream = s.txStream ∧ (s.receive m b).rxStream = s.rxStream ∧
      (s.receive m b).text = s.text ∧ (s.receive m b).textLen = s.textLen := by
  unfold State.receive State.writeBack State.noteDecode State.runChecksum
  repeat' split
  all_goals simp

/-- One step: a host access; a cycle of an idle block; a cycle that runs a local command; a cycle that runs the sequencer
of a link command; a byte that arrives; reset. -/
theorem step_cases (s t : State) (h : s.ControlInv) (e : step s = .next t) :
    (∃ a, s.nextEvent = .host a ∧ hostAccess a s.takeEvent = .next t) ∨
    (∃ a b c, s.nextEvent = .cycle a b c ∧ s.busy = false ∧ t = s.takeEvent.withPorts a b c) ∨
    (∃ a b c i, s.nextEvent = .cycle a b c ∧ s.busy = true ∧ decodeCmd s.params.hasRd s.curOp.toWord = .ok i ∧
      isLink i = false ∧ s.teState = .idle ∧ exec i (s.takeEvent.withPorts a b c) = .next t) ∨
    (∃ a b c i, s.nextEvent = .cycle a b c ∧ s.busy = true ∧ decodeCmd s.params.hasRd s.curOp.toWord = .ok i ∧
      isLink i = true ∧ s.teState ≠ .idle ∧ exec i (s.takeEvent.withPorts a b c) = .next t) ∨
    (∃ b, s.nextEvent = .arrive b ∧ t = { s.takeEvent with rxStream := s.rxStream ++ [b] }) ∨
    (s.nextEvent = .reset ∧ t = s.takeEvent.resetBlock) := by
  unfold step advance at e
  cases hn : s.nextEvent with
  | host a =>
    rw [hn] at e
    exact .inl ⟨a, rfl, e⟩
  | cycle a b c =>
    rw [hn] at e
    simp only [happen, coreCycle] at e
    cases hb : s.busy with
    | false =>
      have hb' : (s.takeEvent.withPorts a b c).busy = false := hb
      rw [hb'] at e
      cases e
      exact .inr (.inl ⟨a, b, c, rfl, rfl, rfl⟩)
    | true =>
      have hb' : (s.takeEvent.withPorts a b c).busy = true := hb
      obtain ⟨i, hi, hl⟩ := h.command hb
      have hd : decodeCmd (s.takeEvent.withPorts a b c).params.hasRd (s.takeEvent.withPorts a b c).curOp.toWord
          = .ok i := hi
      rw [hb', hd] at e
      cases hli : isLink i with
      | false =>
        have ht : s.teState = .idle := by
          by_contra hne
          rw [hl.1 hne] at hli; cases hli
        exact .inr (.inr (.inl ⟨a, b, c, i, rfl, rfl, hi, hli, ht, e⟩))
      | true => exact .inr (.inr (.inr (.inl ⟨a, b, c, i, rfl, rfl, hi, hli, hl.2 hli, e⟩)))
  | arrive b => rw [hn] at e; cases e; exact .inr (.inr (.inr (.inr (.inl ⟨b, rfl, rfl⟩))))
  | reset => rw [hn] at e; cases e; exact .inr (.inr (.inr (.inr (.inr ⟨rfl, rfl⟩))))

end Sys2Proof.Machine
end

