-- ==== Sys2Proof/Laws/Transaction.lean ====
section
/-! SUPPORT. Runs of a link command: one step per event,
    and one whole attempt answered by given bytes (`attemptEvents`)
up to the check of its answer. -/

namespace Sys2Proof.Machine

/-! ### Runs -/

theorem runSteps_succ (n : Nat) (s t : State) (h : step s = .next t) : runSteps (n + 1) s = runSteps n t := by
  rw [runSteps, h]

theorem runSteps_add (a b : Nat) (s t : State) (h : runSteps a s = .next t) : runSteps
    (a + b) s = runSteps b t := by
  induction a generalizing s with
  | zero =>
    have : s = t := by injection h
    subst this; rw [Nat.zero_add]
  | succ n ih =>
    rw [show n + 1 + b = (n + b) + 1 by omega]
    simp only [runSteps] at h ⊢
    cases hs : step s with
    | next u => rw [hs] at h; exact ih u h
    | fault r => rw [hs] at h; cases h
    | refused r => rw [hs] at h; cases h

/-! ### One step -/

/-- The command in progress is a link command that runs the sequencer with `pre` and `fin`. -/
structure Running (pre fin : State → State) (s : State) : Prop where
  busy : s.busy = true
  cmd : ∃ i, decodeCmd s.params.hasRd s.curOp.toWord = .ok i ∧ ∀ u, exec i u = .next (linkStep pre fin u)

/-- A step that is a cycle of the core. -/
theorem step_cycle (pre fin : State → State) (s : State) (h : Running pre fin s) (a b c : Bool) (rest : List Event)
    (hi : s.inputs = .cycle a b c :: rest) :
    step s = .next (linkStep pre fin { s with inputs := rest, tick := a, txReady := b, rxValid := c }) := by
  have hb := h.busy
  obtain ⟨i, hc, hx⟩ := h.cmd
  unfold step advance State.nextEvent State.takeEvent
  rw [hi]
  simp only [List.headD_cons, List.tail_cons, happen, coreCycle, State.withPorts, hb, hc, if_true, hx]

theorem step_build (pre fin : State → State) (s : State) (h : Running pre fin s) (ht : s.teState = .build)
    (a b c : Bool) (rest : List Event) (hi : s.inputs = .cycle a b c :: rest) :
    step s = .next (linkBuild { s with inputs := rest, tick := a, txReady := b, rxValid := c }) := by
  rw [step_cycle pre fin s h a b c rest hi]; simp only [linkStep, ht]

theorem step_send (pre fin : State → State) (s : State) (h : Running pre fin s) (ht : s.teState = .send)
    (a b c : Bool) (rest : List Event) (hi : s.inputs = .cycle a b c :: rest) :
    step s = .next (linkSend { s with inputs := rest, tick := a, txReady := b, rxValid := c }) := by
  rw [step_cycle pre fin s h a b c rest hi]; simp only [linkStep, ht]

theorem step_wait (pre fin : State → State) (s : State) (h : Running pre fin s) (ht : s.teState = .wait)
    (a b c : Bool) (rest : List Event) (hi : s.inputs = .cycle a b c :: rest) :
    step s = .next (linkWait { s with inputs := rest, tick := a, txReady := b, rxValid := c }) := by
  rw [step_cycle pre fin s h a b c rest hi]; simp only [linkStep, ht]

theorem step_check (pre fin : State → State) (s : State) (h : Running pre fin s) (ht : s.teState = .check)
    (a b c : Bool) (rest : List Event) (hi : s.inputs = .cycle a b c :: rest) :
    step s = .next (linkCheck fin { s with inputs := rest, tick := a, txReady := b, rxValid := c }) := by
  rw [step_cycle pre fin s h a b c rest hi]; simp only [linkStep, ht]

/-- A step in which a byte reaches the transport. -/
theorem step_arrive (s : State) (b : Byte) (rest : List Event) (hi : s.inputs = .arrive b :: rest) :
    step s = .next { s with inputs := rest, rxStream := s.rxStream ++ [b] } := by
  unfold step advance State.nextEvent State.takeEvent
  rw [hi]; rfl

/-! ### Many steps -/

theorem put_ofBytesFrom (k : Nat) (p : List Byte) (b : Byte) : (Memory.ofBytesFrom k p).put
    (k + p.length) b = Memory.ofBytesFrom k (p ++ [b]) := by
  induction p generalizing k with
  | nil => simp [Memory.ofBytesFrom, Memory.put]
  | cons c p ih =>
    simp only [Memory.ofBytesFrom, List.cons_append, Memory.put, List.length_cons]
    rw [if_neg (by omega), if_neg (by omega), show k + (p.length + 1) = (k+1) + p.length by omega, ih]

/-- A byte put behind the last one. -/
theorem put_ofBytes (p : List Byte) (b : Byte) : (Memory.ofBytes p).put p.length b = Memory.ofBytes (p ++ [b]) := by
  simpa [Memory.ofBytes] using put_ofBytesFrom 0 p b

/-- `SEND`: a transport that takes a byte in every cycle takes the rest of `TXBUF`. -/
theorem run_send (tx : List Byte) (pre fin : State → State) (rest : List Event) (k : Nat) : ∀ (s : State),
    Running pre fin s → s.teState = .send →
    s.txPtr.toNat + k = s.txLen.toNat → s.txBuf = Memory.ofBytes tx → tx.length = s.txLen.toNat →
      s.inputs = cycles k false true false ++ rest →
    ∃ a b c, runSteps k s = .next { s with
        txPtr := s.txLen, txStream := s.txStream ++ tx.drop s.txPtr.toNat, inputs := rest, tick := a,
        txReady := b, rxValid := c } := by
  induction k with
  | zero =>
    intro s hL hte hp hbuf hlen hin
    refine ⟨s.tick, s.txReady, s.rxValid, ?_⟩
    have e : s.txPtr = s.txLen := BitVec.eq_of_toNat_eq (by omega)
    show Host.Outcome.next s = _
    have : tx.drop s.txPtr.toNat = [] := by rw [List.drop_eq_nil_iff]; omega
    have hin' : s.inputs = rest := by simpa [cycles] using hin
    rw [this, List.append_nil, ← hin']
    have key : ∀ x : Half, s.txPtr = x → (.next s : Answer) = .next { s with txPtr := x } := by
      intro x hx; subst hx; rfl
    exact key _ e
  | succ n ih =>
    intro s hL hte hp hbuf hlen hin
    have hs := step_cycle pre fin s hL false true false (cycles n false true false ++ rest)
        (by simpa [cycles, List.replicate_succ] using hin)
    rw [runSteps_succ _ _ _ hs]
    have hlt : s.txPtr < s.txLen := by rw [BitVec.lt_def]; omega
    generalize hu : ({ s with
        inputs := cycles n false true false ++ rest, tick := false, txReady := true, rxValid := false } : State) = u
    have hute : u.teState = .send := by subst hu; exact hte
    have hult : u.txPtr < u.txLen := by subst hu; exact hlt
    have hur : u.txReady = true := by subst hu; rfl
    have e : linkStep pre fin u = sendByte u := by
      rw [linkStep, hute]; simp only [linkSend, hult, hur, if_true]
    rw [e]
    have h1 : (s.txPtr + 1).toNat = s.txPtr.toNat + 1 := by
      have := s.txLen.isLt
      rw [BitVec.toNat_add]; simp; omega
    subst hu
    obtain ⟨a, b, c, hr⟩ := ih (sendByte { s with
        inputs := cycles n false true false ++ rest, tick := false, txReady := true,
        rxValid := false }) ⟨hL.busy, hL.cmd⟩ hte
        (by simp only [sendByte, h1]; omega) hbuf hlen rfl
    refine ⟨a, b, c, hr.trans ?_⟩
    have hlt' : s.txPtr.toNat < tx.length := by omega
    have hn : s.txNext = tx[s.txPtr.toNat] := by
      unfold State.txNext; rw [hbuf]; simp [hlt']
    have hd : s.txStream ++ [s.txNext] ++ tx.drop (s.txPtr + 1).toNat = s.txStream ++ tx.drop s.txPtr.toNat := by
      rw [List.append_assoc, h1, hn, List.singleton_append, ← List.drop_eq_getElem_cons hlt']
    have key : ∀ x : List Byte, x = s.txStream ++ tx.drop s.txPtr.toNat →
        (.next { s with
            txPtr := s.txLen, txStream := x, inputs := rest, tick := a, txReady := b,
            rxValid := c } : Answer) = .next { s with
            txPtr := s.txLen, txStream := s.txStream ++ tx.drop s.txPtr.toNat, inputs := rest, tick := a,
            txReady := b, rxValid := c } := by
      intro x hx; subst hx; rfl
    exact key _ hd

/-- Bytes reach the transport. -/
theorem run_arrive (bs : List Byte) (rest : List Event) : ∀ (s : State), s.inputs = bs.map Event.arrive ++ rest →
    runSteps bs.length s = .next { s with inputs := rest, rxStream := s.rxStream ++ bs } := by
  induction bs with
  | nil => intro s hin; simp at hin; subst hin; simp [runSteps]
  | cons b bs ih =>
    intro s hin
    have hs := step_arrive s b (bs.map Event.arrive ++ rest) (by simpa using hin)
    rw [List.length_cons, runSteps_succ _ _ _ hs, ih _ rfl]
    simp

/-- `WAIT`: the bytes the transport holds go to `RXBUF`, one a cycle. -/
theorem run_take (bs : List Byte) (pre fin : State → State) (rest : List Event) : ∀ (s : State) (p : List Byte),
    Running pre fin s → s.teState = .wait →
    s.rxBuf = Memory.ofBytes p → s.rxLen.toNat = p.length → p.length + bs.length ≤ s.params.rxMax →
      s.params.rxMax < 65536 → s.timer < s.timeout ∨ bs = [] → s.rxStream = bs →
    s.inputs = cycles bs.length false false true ++ rest →
    ∃ a b c, runSteps bs.length s = .next { s with
        rxBuf := Memory.ofBytes (p ++ bs), rxLen := BitVec.ofNat 16 (p.length + bs.length), rxStream := [],
        inputs := rest, tick := a, txReady := b, rxValid := c } := by
  induction bs with
  | nil =>
    intro s p hL hte hbuf hlen hmax hp htm hst hin
    refine ⟨s.tick, s.txReady, s.rxValid, ?_⟩
    have hin' : s.inputs = rest := by simpa [cycles] using hin
    have : BitVec.ofNat 16 p.length = s.rxLen := BitVec.eq_of_toNat_eq (by rw [← hlen]; simp)
    show Host.Outcome.next s = _
    simp only [List.append_nil, List.length_nil, Nat.add_zero, this]
    rw [← hbuf, ← hst, ← hin']
  | cons d bs ih =>
    intro s p hL hte hbuf hlen hmax hp htm hst hin
    have htm : s.timer < s.timeout := by simpa using htm
    have hs := step_cycle pre fin s hL false false true (cycles bs.length false false true ++ rest)
        (by simpa [cycles, List.replicate_succ] using hin)
    rw [List.length_cons, runSteps_succ _ _ _ hs]
    simp only [List.length_cons] at hmax
    have hw : s.rxLen.toNat < s.params.rxMax := by omega
    have h1 : (s.rxLen + 1).toNat = p.length + 1 := by
      rw [BitVec.toNat_add]; simp; omega
    have e : linkStep pre fin { s with
        inputs := cycles bs.length false false true ++ rest, tick := false, txReady := false, rxValid := true } =
      { s with
          inputs := cycles bs.length false false true ++ rest, tick := false, txReady := false, rxValid := true,
          rxBuf := s.rxBuf.put s.rxLen.toNat d, rxLen := s.rxLen + 1, rxStream := bs } := by
      simp only [linkStep, hte, linkWait, State.windowOpen, hw, htm, decide_true, Bool.and_true, if_true,
          takeByte, State.rxOffer, hst, List.head?_cons, countTick, List.tail_cons, Bool.false_eq_true, if_false]
    rw [e]
    obtain ⟨a, b, c, hr⟩ := ih { s with
        inputs := cycles bs.length false false true ++ rest, tick := false, txReady := false, rxValid := true,
        rxBuf := s.rxBuf.put s.rxLen.toNat d, rxLen := s.rxLen + 1, rxStream := bs } (p ++ [d]) ⟨hL.busy,
        hL.cmd⟩ hte (by simp only [hbuf, hlen,
        put_ofBytes]) (by simp only [h1]; simp) (by simp; omega) hp (.inl htm) rfl rfl
    refine ⟨a, b, c, ?_⟩
    rw [hr]
    simp [Nat.add_assoc, Nat.add_comm 1]

/-- `WAIT`: ticks without a byte, until the timeout. -/
theorem run_ticks (pre fin : State → State) (rest : List Event) (k : Nat) : ∀ (s : State), Running pre fin s →
    s.teState = .wait →
    s.rxLen.toNat < s.params.rxMax → s.timer.toNat + k = s.timeout.toNat →
    s.inputs = cycles k true false false ++ rest →
    ∃ a b c, runSteps k s = .next { s with
        timer := s.timeout, inputs := rest, tick := a, txReady := b, rxValid := c } := by
  induction k with
  | zero =>
    intro s hL hte hmax htm hin
    refine ⟨s.tick, s.txReady, s.rxValid, ?_⟩
    have hin' : s.inputs = rest := by simpa [cycles] using hin
    have : s.timer = s.timeout := BitVec.eq_of_toNat_eq (by omega)
    have key : ∀ x, s.timer = x → (.next s : Answer) = .next { s with timer := x } := by
      intro x hx; subst hx; rfl
    rw [← hin']
    exact key _ this
  | succ n ih =>
    intro s hL hte hmax htm hin
    have hs := step_cycle pre fin s hL true false false (cycles n true false false ++ rest)
        (by simpa [cycles, List.replicate_succ] using hin)
    rw [runSteps_succ _ _ _ hs]
    have htm' : s.timer < s.timeout := by rw [BitVec.lt_def]; omega
    have e : linkStep pre fin { s with
        inputs := cycles n true false false ++ rest, tick := true, txReady := false, rxValid := false } =
      { s with
          inputs := cycles n true false false ++ rest, tick := true, txReady := false, rxValid := false,
          timer := s.timer + 1 } := by
      simp only [linkStep, hte, linkWait, State.windowOpen, hmax, htm', decide_true, Bool.and_true, if_true,
          takeByte, State.rxOffer, countTick, Bool.false_eq_true, if_false]
    rw [e]
    have h1 : (s.timer + 1).toNat = s.timer.toNat + 1 := by
      have := s.timeout.isLt
      rw [BitVec.toNat_add]; simp; omega
    obtain ⟨a, b, c, hr⟩ := ih { s with
        inputs := cycles n true false false ++ rest, tick := true, txReady := false, rxValid := false,
        timer := s.timer + 1 } ⟨hL.busy,
        hL.cmd⟩ hte hmax (by simp only [h1]; omega) rfl
    exact ⟨a, b, c, hr⟩

theorem linkBuild_length (s : State) (h : s.DataInv) : (linkBuild s).txLen.toNat = s.request.length := by
  have hw := h.params
  have := (encodeFrame_length_le s.mode s.params.hexUpper s.efAddr s.efFc s.efBytes).2
  rw [efBytes_length] at this
  have h2 := h.efLen
  simp only [linkBuild, buildFrame_txLen, State.request]
  rw [toNat_ofNat16]
  simp only [Params.wf] at hw
  omega

/-- The state in which the answer `rx` of an attempt is checked. -/
def checkState (s : State) (rx : List Byte) (rest : List Event) (tm : Word) : State :=
  { linkBuild s with
      txPtr := (linkBuild s).txLen, txStream := s.txStream ++ s.request, rxLen := BitVec.ofNat 16 rx.length,
      rxBuf := Memory.ofBytes rx, timer := tm, teState := .check, inputs := rest, tick := false,
      txReady := false, rxValid := false }

theorem linkBuild_ports (s : State) (e : List Event) (a b c : Bool) :
    linkBuild { s with inputs := e, tick := a, txReady := b, rxValid := c } = { linkBuild s with
        inputs := e, tick := a, txReady := b, rxValid := c } := by
  cases hm : s.mode <;> simp only [linkBuild, State.buildFrame, State.loadChk, State.runChecksum, State.loadTx,
      State.efBytes, hm]

/-- One attempt, from its build step to the check of its answer. -/
theorem run_attempt (pre fin : State → State) (s : State) (rx : List Byte) (rest : List Event) (h : s.DataInv)
    (hL : Running pre fin s) (hte : s.teState = .build)
    (hrx : s.rxStream = []) (hmax : rx.length ≤ s.params.rxMax) (htm : s.timeout ≠ 0 ∨ rx = [])
    (hin : s.inputs = attemptEvents s rx ++ rest) :
    ∃ tm, runSteps (attemptEvents s rx).length s = .next (linkCheck fin (checkState s rx rest tm)) := by
  have hw := h.params
  have hrm : s.params.rxMax < 65536 := by simp only [Params.wf] at hw; omega
  have hlen := linkBuild_length s h
  generalize hW : (if rx.length < s.params.rxMax then cycles s.timeout.toNat true false false else []) = W
  have hin2 : s.inputs = .cycle false false false :: (cycles s.request.length false true false ++
      (.cycle false true false :: (rx.map Event.arrive ++ (cycles rx.length false false true ++ (W ++
      (.cycle false false false :: .cycle false false false :: rest)))))) := by
    rw [hin, attemptEvents, hW]
    simp only [cycles, List.replicate_succ', List.append_assoc, List.replicate_zero, List.nil_append,
        List.cons_append]
  have hN : (attemptEvents s rx).length = s.request.length + (rx.length + (rx.length + (W.length +
      (1 + 1))) + 1) + 1 := by
    rw [attemptEvents, hW]; simp [cycles]; omega
  rw [hN]
  -- build
  have h1 := step_build pre fin s hL hte _ _ _ _ hin2
  rw [runSteps_succ _ _ _ h1, linkBuild_ports]
  -- facts about the built state
  have bst : (linkBuild s).rxStream = [] := by simpa [linkBuild] using hrx
  have bprm : (linkBuild s).params = s.params := by simp [linkBuild]
  have bto : (linkBuild s).timeout = s.timeout := by simp [linkBuild]
  have btx : (linkBuild s).txStream = s.txStream := by simp [linkBuild]
  have bbuf : (linkBuild s).txBuf = Memory.ofBytes s.request := by simp [linkBuild]; rfl
  have bL : Running pre fin (linkBuild s) := ⟨by simpa [linkBuild] using hL.busy, by simpa [linkBuild] using hL.cmd⟩
  have bte : (linkBuild s).teState = .send := rfl
  have bptr : (linkBuild s).txPtr = 0 := rfl
  unfold checkState
  rw [← btx]
  revert hlen bst bprm bto bbuf bL bte bptr
  generalize linkBuild s = s1
  intro hlen bst bprm bto bbuf bL bte bptr
  -- send
  generalize hR : (cycles rx.length false false true ++ (W ++
      (.cycle false false false :: .cycle false false false :: rest))) = R
  obtain ⟨a, b, c, h2⟩ := run_send s.request pre fin (.cycle false true false ::
      (rx.map Event.arrive ++ R)) s.request.length
    { s1 with
        inputs := cycles s.request.length false true false ++ (.cycle false true false ::
        (rx.map Event.arrive ++ R)), tick := false, txReady := false, rxValid := false }
    ⟨bL.busy, bL.cmd⟩ bte (by simp [bptr, hlen]) bbuf hlen.symm rfl
  rw [runSteps_add _ _ _ _ h2]
  simp only [bptr, BitVec.ofNat_eq_ofNat, BitVec.toNat_ofNat, Nat.zero_mod, List.drop_zero]
  have h3 := step_send pre fin { s1 with
      txPtr := s1.txLen, txStream := s1.txStream ++ s.request,
      inputs := (.cycle false true false :: (rx.map Event.arrive ++ R)), tick := a, txReady := b,
      rxValid := c } ⟨bL.busy, bL.cmd⟩ bte _ _ _ _ rfl
  rw [runSteps_succ _ _ _ h3]
  have hnlt : ¬ (s1.txLen < s1.txLen) := by rw [BitVec.lt_def]; omega
  simp only [linkSend, hnlt, if_false, openWindow]
  have h4 := run_arrive rx R { s1 with
      txPtr := s1.txLen, txStream := s1.txStream ++ s.request, inputs := rx.map Event.arrive ++ R, tick := false,
      txReady := true, rxValid := false, rxLen := 0, rxBuf := [], timer := 0, teState := .wait } rfl
  rw [runSteps_add _ _ _ _ h4]
  have htm0 : (0 : Word) < s1.timeout ∨ rx = [] := by
    rcases htm with h0 | h0
    · left; rw [bto, BitVec.lt_def]
      have : s.timeout.toNat ≠ 0 := fun hh => h0 (BitVec.eq_of_toNat_eq (by simpa using hh))
      simp; omega
    · exact .inr h0
  obtain ⟨a2, b2, c2, h5⟩ := run_take rx pre fin (W ++
      (.cycle false false false :: .cycle false false false :: rest))
     { s1 with
         txPtr := s1.txLen, txStream := s1.txStream ++ s.request, inputs := R, tick := false, txReady := true,
         rxValid := false, rxLen := 0, rxBuf := [], timer := 0, teState := .wait,
         rxStream := s1.rxStream ++ rx } [] ⟨bL.busy,
         bL.cmd⟩ rfl rfl rfl (by simpa [bprm] using hmax) (by simpa [bprm] using hrm) htm0 (by simp [bst])
         (by rw [← hR])
  rw [runSteps_add _ _ _ _ h5]
  simp only [List.nil_append, List.length_nil, Nat.zero_add]
  have h6 : ∃ tm a b c, runSteps W.length { s1 with
      txPtr := s1.txLen, txStream := s1.txStream ++ s.request,
      inputs := (W ++ (.cycle false false false :: .cycle false false false :: rest)), tick := a2, txReady := b2,
      rxValid := c2, rxLen := BitVec.ofNat 16 rx.length, rxBuf := Memory.ofBytes rx, timer := 0,
      teState := .wait, rxStream := [] } =
      .next { s1 with
          txPtr := s1.txLen, txStream := s1.txStream ++ s.request,
          inputs := (.cycle false false false :: .cycle false false false :: rest), tick := a, txReady := b,
          rxValid := c, rxLen := BitVec.ofNat 16 rx.length, rxBuf := Memory.ofBytes rx, timer := tm,
          teState := .wait, rxStream := [] } ∧ (rx.length = s.params.rxMax ∨ tm = s.timeout) := by
    by_cases hlt : rx.length < s.params.rxMax
    · rw [if_pos hlt] at hW
      subst hW
      obtain ⟨a, b, c, h⟩ := run_ticks pre fin (.cycle false false false :: .cycle false false false :: rest)
          s.timeout.toNat { s1 with
              txPtr := s1.txLen, txStream := s1.txStream ++ s.request,
              inputs := (cycles s.timeout.toNat true false false ++
              (.cycle false false false :: .cycle false false false :: rest)), tick := a2, txReady := b2,
              rxValid := c2, rxLen := BitVec.ofNat 16 rx.length, rxBuf := Memory.ofBytes rx, timer := 0,
              teState := .wait, rxStream := [] } ⟨bL.busy,
          bL.cmd⟩ rfl (by simp only [bprm]; rw [toNat_ofNat16 _ (by omega)]; exact hlt) (by simp [bto]) rfl
      refine ⟨s1.timeout, a, b, c, ?_, .inr bto⟩
      simpa [cycles] using h
    · rw [if_neg hlt] at hW
      subst hW
      exact ⟨0, a2, b2, c2, rfl, .inl (by omega)⟩
  obtain ⟨tm, a3, b3, c3, h7, hclose⟩ := h6
  rw [runSteps_add _ _ _ _ h7]
  have h8 := step_wait pre fin { s1 with
      txPtr := s1.txLen, txStream := s1.txStream ++ s.request,
      inputs := (.cycle false false false :: .cycle false false false :: rest), tick := a3, txReady := b3,
      rxValid := c3, rxLen := BitVec.ofNat 16 rx.length, rxBuf := Memory.ofBytes rx, timer := tm,
      teState := .wait, rxStream := [] } ⟨bL.busy, bL.cmd⟩ rfl _ _ _ _ rfl
  rw [runSteps_succ _ _ _ h8]
  have hclosed : (decide ((BitVec.ofNat 16 rx.length : Half).toNat < s1.params.rxMax) && decide
      (tm < s1.timeout)) = false := by
    rw [toNat_ofNat16 _ (by omega), bprm, bto]
    rcases hclose with hc | hc
    · simp [hc]
    · subst hc; simp
  simp only [linkWait, State.windowOpen, hclosed, countTick, Bool.false_and, Bool.false_eq_true, if_false]
  have h9 := step_check pre fin { s1 with
      txPtr := s1.txLen, txStream := s1.txStream ++ s.request, inputs := (.cycle false false false :: rest),
      tick := false, txReady := false, rxValid := false, rxLen := BitVec.ofNat 16 rx.length,
      rxBuf := Memory.ofBytes rx, timer := tm, teState := .check, rxStream := [] } ⟨bL.busy, bL.cmd⟩ rfl _ _ _ _ rfl
  rw [runSteps_succ _ _ _ h9]
  refine ⟨tm, ?_⟩
  rw [runSteps]
  congr 3
  exact bst.symm
end Sys2Proof.Machine
end

