-- ==== Sys2Proof/Tests/Slice0.lean ====
section
/-! SUPPORT. Tests: words written out from the encodings, one step per instruction against the vectors of
95_test_vectors.md, and for every statement with hypotheses a state and operands that meet them. -/

namespace Sys2Proof.Tests

open Sys2Proof.Machine

set_option maxRecDepth 20000

/-! ### Small states -/

/-- A block with small buffers. -/
def params : Params := ⟨8, 40, true, true, .table⟩

/-- The same block without the dispatcher. -/
def paramsNoRd : Params := ⟨8, 40, false, true, .table⟩

/-- The block right after reset. -/
def idle : State := State.ofReset params

/-- A block that is running the command with the word `w`. -/
def running (w : Byte) : State := { idle with busy := true, curOp := w }

/-- The frame `(a, f, p)` in EF. -/
def withEf (a f : Byte) (p : List Byte) : State := idle.loadEf a f p

/-- The bytes `rx` received, in the encoding `m`. -/
def withRx (m : Encoding) (rx : List Byte) : State :=
  { idle with mode := m, ownAddr := 5, rxBuf := Memory.ofBytes rx, rxLen := BitVec.ofNat 16 rx.length }

/-- A link command (`EXECUTE`) in the state `te` of the sequencer, in its first attempt, the bytes `rx` received. -/
def linkIn (te : TeState) (retries : Byte) (rx : List Byte) : State :=
  { withRx .ascii rx with
    busy := true, curOp := 0x05, teState := te, timeout := 3, retries := retries,
    attempts := if te = .build then 0 else 1 }

/-- What an answer that is a next state satisfies. -/
def after (a : Answer) (p : State → Bool) : Bool :=
  match a with
  | .next t => p t
  | .fault _ => false
  | .refused _ => false

/-- `":0501FA\r\n"`, the frame `(5, 1, [])`. -/
def frame501 : List Byte := [0x3A, 0x30, 0x35, 0x30, 0x31, 0x46, 0x41, 0x0D, 0x0A]

/-- `":0501FB\r\n"`, that frame with a wrong LRC. -/
def wrongLrc : List Byte := [0x3A, 0x30, 0x35, 0x30, 0x31, 0x46, 0x42, 0x0D, 0x0A]

/-- `":0501686929\r\n"`, the frame `(5, 1, "hi")`. -/
def frameHi : List Byte :=
  [0x3A, 0x30, 0x35, 0x30, 0x31, 0x36, 0x38, 0x36, 0x39, 0x32, 0x39, 0x0D, 0x0A]

/-! ### WellFormed: an ill-formed term for each check -/

theorem test_handle_needs_dispatcher : Instr.handle.wellFormed false = false := by decide

theorem test_fcWriteText_needs_dispatcher : Instr.fcWriteText.wellFormed false = false := by decide

theorem test_fcReadText_needs_dispatcher : Instr.fcReadText.wellFormed false = false := by decide

theorem test_fcException_needs_dispatcher : (Instr.fcException 3).wellFormed false = false := by decide

theorem test_params_ranges :
    ¬Params.wf ⟨0, 40, true, true, .table⟩ ∧ ¬Params.wf ⟨32760, 40, true, true, .table⟩ ∧
      ¬Params.wf ⟨8, 0, true, true, .table⟩ ∧ ¬Params.wf ⟨8, 65536, true, true, .table⟩ ∧
      Params.wf ⟨1, 1, true, true, .table⟩ ∧ Params.wf ⟨32759, 65535, true, true, .table⟩ := by decide

/-! ### Decoding: words written out bit by bit from rules R118 and R120 (`zero`, `ENC`, `OP`) and R110 -/

theorem test_decode_lrc : decodeCmd true (0#24 ++ 0b000#3 ++ 0b0#1 ++ 0b0001#4) = .ok .lrc := by decide

theorem test_decode_crc16 : decodeCmd true (0#24 ++ 0b000#3 ++ 0b0#1 ++ 0b0010#4) = .ok .crc16 := by decide

theorem test_decode_encAscii : decodeCmd true (0#24 ++ 0b000#3 ++ 0b0#1 ++ 0b0011#4) = .ok .encAscii := by decide

theorem test_decode_encRtu : decodeCmd true (0#24 ++ 0b000#3 ++ 0b1#1 ++ 0b0011#4) = .ok .encRtu := by decide

theorem test_decode_decAscii : decodeCmd true (0#24 ++ 0b000#3 ++ 0b0#1 ++ 0b0100#4) = .ok .decAscii := by decide

theorem test_decode_decRtu : decodeCmd true (0#24 ++ 0b000#3 ++ 0b1#1 ++ 0b0100#4) = .ok .decRtu := by decide

theorem test_decode_execute : decodeCmd true (0#24 ++ 0b000#3 ++ 0b0#1 ++ 0b0101#4) = .ok .execute := by decide

theorem test_decode_writeText : decodeCmd true (0#24 ++ 0b000#3 ++ 0b0#1 ++ 0b0110#4) = .ok .writeText := by decide

theorem test_decode_readText : decodeCmd true (0#24 ++ 0b000#3 ++ 0b0#1 ++ 0b0111#4) = .ok .readText := by decide

theorem test_decode_handle : decodeCmd true (0#24 ++ 0b000#3 ++ 0b0#1 ++ 0b1000#4) = .ok .handle := by decide

theorem test_decode_fcWriteText : decodeFc true 0b00000001 = .ok .fcWriteText := by decide

theorem test_decode_fcReadText : decodeFc true 0b00000010 = .ok .fcReadText := by decide

theorem test_decode_fcException :
    decodeFc true 0b10000000 = .ok (.fcException 0b0000000) ∧
      decodeFc true 0b10000011 = .ok (.fcException 0b0000011) ∧
      decodeFc true 0b11111111 = .ok (.fcException 0b1111111) := by decide

/-- Function codes at the ends of the row "not defined". -/
theorem test_decode_fc_undefined :
    decodeFc true 0x00 = .error .functionCodeUndefined ∧ decodeFc true 0x03 = .error .functionCodeUndefined ∧
      decodeFc true 0x7F = .error .functionCodeUndefined ∧ decodeFc false 0x01 = .error .unitAbsent := by decide

/-- The illegal words of 95_test_vectors.md and of rule R122. -/
theorem test_decode_illegal :
    decodeCmd true 0x00 = .error .reservedOperation ∧ decodeCmd true 0x09 = .error .reservedOperation ∧
      decodeCmd true 0x0F = .error .reservedOperation ∧ decodeCmd true 0x11 = .error .encodingNotTaken ∧
      decodeCmd true 0x15 = .error .encodingNotTaken ∧ decodeCmd true 0x18 = .error .encodingNotTaken ∧
      decodeCmd true 0x21 = .error .zeroBitsSet ∧ decodeCmd true 0x101 = .error .highBitsSet ∧
      decodeCmd true 0x80000001 = .error .highBitsSet ∧ decodeCmd false 0x08 = .error .unitAbsent := by decide

theorem test_decodeTableWord :
    decodeTableWord 8 0x13 = some .encRtu ∧ decodeTableWord 8 0x82 = some (.fcException 0x02) ∧
      decodeTableWord 8 0x7F = none ∧ decodeTableWord 8 0x09 = none := by decide

/-! ### Every table row's word runs as the first instruction after reset (log entries 1 and 10) -/

theorem test_fetch_checksums :
    after (step (State.reset.withFetchWord 8 0x01)) (fun t => t.done && t.chk == 0x0000) = true ∧
      after (step (State.reset.withFetchWord 8 0x02)) (fun t => t.done && t.chk == 0xB001) = true := by decide

theorem test_fetch_encoders :
    after (step (State.reset.withFetchWord 8 0x03)) (fun t => t.done && t.txLen == 9) = true ∧
      after (step (State.reset.withFetchWord 8 0x13)) (fun t => t.done && t.txLen == 4) = true := by decide

theorem test_fetch_decoders :
    after (step (State.reset.withFetchWord 8 0x04)) (fun t => t.done && t.result == .framingError) = true ∧
      after (step (State.reset.withFetchWord 8 0x14)) (fun t => t.done && t.result == .framingError) = true := by
  decide

theorem test_fetch_link :
    after (step (State.reset.withFetchWord 8 0x05)) (fun t => t.busy && t.teState == .build && t.efFc == 0) = true ∧
      after (step (State.reset.withFetchWord 8 0x06)) (fun t => t.busy && t.teState == .build && t.efFc == 1) = true ∧
      after (step (State.reset.withFetchWord 8 0x07)) (fun t => t.busy && t.teState == .build && t.efFc == 2)
        = true := by
  decide

theorem test_fetch_handle :
    after (step (State.reset.withFetchWord 8 0x08)) (fun t => t.done && t.result == .framingError) = true := by
  decide

theorem test_fetch_exception_code :
    after (step (State.reset.withFetchWord 8 0x83))
      (fun t => t.done && t.result == .unsupportedFunction && t.efFc == 0x83 && t.txLen == 11) = true := by
  decide

theorem test_fetch_illegal :
    after (step (State.reset.withFetchWord 8 0x09)) (fun t => t.done && t.result == .illegalCommand && t.curOp == 9)
      = true := by decide

/-! ### One step per instruction: 95_test_vectors.md, the section in each comment -/

/-- 2.1, row `(5, 1, "hi")`. -/
theorem test_lrc : after (exec .lrc (withEf 5 1 [0x68, 0x69])) (fun t => t.chk == 0x0029) = true := by decide

/-- 2.1, row `(FF, 01, [])`: the sum wraps. -/
theorem test_lrc_wraps : after (exec .lrc (withEf 0xFF 1 [])) (fun t => t.chk == 0) = true := by decide

/-- 2.2, `(FF, FF, [])`: the CRC is zero. -/
theorem test_crc16_zero : after (exec .crc16 (withEf 0xFF 0xFF [])) (fun t => t.chk == 0) = true := by decide

/-- 2.2, scenario 2. -/
theorem test_crc16 :
    after (exec .crc16 (withEf 5 1 [0xDE, 0xAD, 0xBE, 0xEF])) (fun t => t.chk == 0x6BA6) = true := by decide

/-- 2.3, row `(5, 1, [])`. -/
theorem test_encAscii :
    after (exec .encAscii (withEf 5 1 [])) (fun t => t.txBuf == Memory.ofBytes frame501 && t.txLen == 9) = true := by
  decide

/-- 2.3, row `(5, 1, [])` with `HEX_UPPER = false`. -/
theorem test_encAscii_lower :
    encAscii false 5 1 [] = [0x3A, 0x30, 0x35, 0x30, 0x31, 0x66, 0x61, 0x0D, 0x0A] := by decide

/-- 2.3, row `(5, 1, [])`: the CRC's low byte first. -/
theorem test_encRtu :
    after (exec .encRtu (withEf 5 1 []))
      (fun t => t.txBuf == Memory.ofBytes [0x05, 0x01, 0xC3, 0x20] && t.chk == 0x20C3) = true := by decide

/-- 2.4, mixed case. -/
theorem test_decAscii :
    after (exec .decAscii (withRx .ascii [0x3A, 0x30, 0x35, 0x30, 0x31, 0x46, 0x61, 0x0D, 0x0A]))
      (fun t => t.statusWord == 0x102 && t.dfAddr == 5 && t.dfFc == 1 && t.dfLen == 0 && t.chk == 0xFA) = true := by
  decide

/-- 2.4, a wrong LRC. -/
theorem test_decAscii_checksum :
    after (exec .decAscii (withRx .ascii wrongLrc)) (fun t => t.statusWord == 0x0A) = true := by decide

/-- 2.4, the CRC bytes swapped. -/
theorem test_decRtu_swapped :
    after (exec .decRtu (withRx .rtu [0x05, 0x01, 0x20, 0xC3])) (fun t => t.statusWord == 0x0A) = true := by decide

/-- 2.4, a trailing zero byte is accepted (rule R191). -/
theorem test_decRtu_trailing_zero :
    after (exec .decRtu (withRx .rtu [0x05, 0x01, 0xC3, 0x20, 0x00]))
      (fun t => t.statusWord == 0x102 && t.dfPayload == [(0, 0xC3)] && t.chk == 0x0020) = true := by decide

/-- 2.6, rows 7 and 9: an exception response, or any other frame, is a success of `EXECUTE`. -/
theorem test_execute_accepts_any_frame :
    after (exec .execute (linkIn .check 0 frame501))
      (fun t => t.statusWord == 0x00010102 && t.dfFc == 1 && t.chk == 0xFA) = true := by decide

/-- 2.6, row 6: a frame without its last byte; no retries left. -/
theorem test_execute_exhausted :
    after (exec .execute (linkIn .check 0 [0x3A, 0x30, 0x35, 0x30, 0x32, 0x46, 0x39, 0x0D]))
      (fun t => t.statusWord == 0x0001004E && t.rxLen == 8) = true := by decide

/-- 2.6, row 1: `EF.FC <- 01`, the payload stays. -/
theorem test_writeText_prepares :
    after (hostAccess (.writeReg 0 0x06) (withEf 5 9 [0x68, 0x69]))
      (fun t => t.efFc == 1 && t.efLen == 2 && t.teState == .build && t.curOp == 6) = true := by decide

/-- 2.6, row 2: `EF.FC <- 02`, `EF.LEN <- 0`. -/
theorem test_readText_prepares :
    after (hostAccess (.writeReg 0 0x07) (withEf 5 9 [0x68, 0x69]))
      (fun t => t.efFc == 2 && t.efLen == 0 && t.teState == .build && t.curOp == 7) = true := by decide

/-- 2.6, row 8: `":0502FFFA\r\n"`, a text that is not UTF-8. -/
theorem test_readText_utf8 :
    after (exec .readText (linkIn .check 0 [0x3A, 0x30, 0x35, 0x30, 0x32, 0x46, 0x46, 0x46, 0x41, 0x0D, 0x0A]))
      (fun t => t.statusWord == 0x00010502) = true := by decide

/-- 2.7, row 1: `":0503F8\r\n"`. -/
theorem test_handle_unsupported :
    after (exec .handle (withRx .ascii [0x3A, 0x30, 0x35, 0x30, 0x33, 0x46, 0x38, 0x0D, 0x0A]))
      (fun t => t.statusWord == 0x116 && t.chk == 0x77 && t.efFc == 0x83 &&
        t.txBuf == Memory.ofBytes [0x3A, 0x30, 0x35, 0x38, 0x33, 0x30, 0x31, 0x37, 0x37, 0x0D, 0x0A]) = true := by
  decide

/-- 2.7, row 12: a frame for another address. -/
theorem test_handle_silent :
    after (exec .handle (withRx .rtu [0x06, 0x01, 0x68, 0x69, 0xBE, 0x82]))
      (fun t => t.statusWord == 0x112 && t.txLen == 0 && t.textLen == 0) = true := by
  decide

/-- 2.7, row 7: the request `(5, 1, "hi")` in DF. -/
theorem test_fcWriteText :
    after (exec .fcWriteText (idle.loadDf 5 1 [0x68, 0x69] 0x29))
      (fun t => t.text == [(0, 0x68), (1, 0x69)] && t.textLen == 2 && t.txBuf == Memory.ofBytes frame501 &&
        t.result == .ok) = true := by decide

/-- 2.7, row 3: C3 28 is not UTF-8. -/
theorem test_fcWriteText_not_utf8 :
    after (exec .fcWriteText (idle.loadDf 5 1 [0xC3, 0x28] 0x0F))
      (fun t => t.text == [] && t.efFc == 0x81 && t.chk == 0x79 && t.result == .processingError) = true := by decide

/-- 2.7, row 8: the stored text comes back. -/
theorem test_fcReadText :
    after (exec .fcReadText ((idle.loadText [0x68, 0x69]).loadDf 5 2 [] 0xF9))
      (fun t => t.efFc == 2 && t.efPayload == [(0, 0x68), (1, 0x69)] && t.txLen == 13 && t.chk == 0x28) = true := by
  decide

/-- 2.7, row 10: a request code that has bit 7 already. -/
theorem test_fcException :
    after (exec (.fcException 0) (idle.loadDf 5 0x80 [] 0x7B))
      (fun t => t.efFc == 0x80 && t.chk == 0x7A && t.exc && t.result == .unsupportedFunction) = true := by decide

/-- 2.8. -/
theorem test_utf8 :
    utf8ByTable [0x68, 0xC3, 0xA9] = true ∧ utf8ByTable [0xC0, 0x80] = false ∧ utf8ByTable [0xE0, 0x9F, 0xBF] = false ∧
      utf8ByTable [0xED, 0xA0, 0x80] = false ∧ utf8ByTable [0xF4, 0x8F, 0xBF, 0xBF] = true ∧
      utf8ByTable [0xE2, 0x82] = false := by decide

/-- 2.6: `STATUS` read in the first `WAIT`. -/
theorem test_status_in_wait : (linkIn .wait 2 []).statusWord = 0x06010001 := by decide

/-! ### Witnesses: states that satisfy the invariant -/

theorem idle_data : idle.DataInv where
  params := by decide
  efLen := by decide
  txLen := by decide
  rxLen := by decide
  dfLen := by decide
  textLen := by decide
  ownAddr := by decide
  efPayload := fits_nil _
  txBuf := fits_nil _
  rxBuf := fits_nil _
  dfPayload := fits_nil _
  text := fits_nil _
  textUtf8 := .inl rfl
  exc := rfl

theorem withRx_data (m : Encoding) (rx : List Byte) (h : rx.length ≤ 40) : (withRx m rx).DataInv := by
  have hn : (BitVec.ofNat 16 rx.length).toNat = rx.length := toNat_ofNat16 _ (by omega)
  exact
    { idle_data with
      ownAddr := by simp [withRx]
      rxLen := by
        show (BitVec.ofNat 16 rx.length).toNat ≤ 40
        rw [hn]; exact h
      rxBuf := by
        show (Memory.ofBytes rx).Fits (BitVec.ofNat 16 rx.length).toNat 40
        rw [hn]; exact fits_ofBytes rx 40 h }

/-- A block that is idle, or running a local command or a link command. -/
theorem control_of (s : State) (h1 : s.textValid = false) (h2 : s.utf8Err = false) (hi : s.busy = false)
    (ht : s.teState = .idle) : s.ControlInv where
  idle _ := ht
  notDone hb := by rw [hi] at hb; cases hb
  command hb := by rw [hi] at hb; cases hb
  noFrame hb := by rw [hi] at hb; cases hb
  retryCnt hn := absurd ht hn
  attemptsStart hb := by rw [hi] at hb; cases hb
  attemptsBuild hb := by rw [ht] at hb; cases hb
  attemptsRun hb := by simp [ht] at hb
  txPtr hb := by rw [ht] at hb; cases hb
  timer hb := by simp [ht] at hb
  textFlags hf := by simp [h1, h2] at hf
  textOne hf := by simp [h1] at hf

/-- An idle block with the bytes `rx` received, `retries` and `timeout` set, and the events `evs` to come. -/
def hostIdle (m : Encoding) (retries : Byte) (timeout : Word) (rx : List Byte) (evs : List Event) : State :=
  { withRx m rx with retries := retries, timeout := timeout, inputs := evs }

theorem hostIdle_inv (m : Encoding) (retries : Byte) (timeout : Word) (rx : List Byte) (evs : List Event)
    (h : rx.length ≤ 40) : (hostIdle m retries timeout rx evs).Inv :=
  ⟨{ withRx_data m rx h with }, control_of _ rfl rfl rfl rfl⟩

/-- `linkIn` with the events `evs` to come. -/
def linkRun (te : TeState) (retries : Byte) (rx : List Byte) (evs : List Event) : State :=
  { linkIn te retries rx with inputs := evs }

theorem linkRun_inv (te : TeState) (retries : Byte) (rx : List Byte) (evs : List Event) (ht : te ≠ .idle)
    (h : rx.length ≤ 40) : (linkRun te retries rx evs).Inv := by
  refine ⟨{ withRx_data .ascii rx h with }, ?_⟩
  have hL : Linking .execute (linkRun te retries rx evs) := by
    refine ⟨rfl, rfl, ?_, rfl, rfl, rfl⟩
    show decodeCmd true (Byte.toWord 0x05) = .ok .execute
    decide
  refine hL.control rfl ht (by simp [linkRun, linkIn, withRx, idle, State.ofReset]) ?_ ?_ ?_ ?_
  · intro hb
    have : te = .build := hb
    subst this; rfl
  · intro hb
    have hb : te = .send ∨ te = .wait ∨ te = .check := hb
    have hne : te ≠ .build := by rintro rfl; simp at hb
    simp [linkRun, linkIn, withRx, idle, State.ofReset, hne]
  · intro _; simp [linkRun, linkIn, withRx, idle, State.ofReset]
  · intro _; simp [linkRun, linkIn, withRx, idle, State.ofReset]

/-- A quiet cycle of the core. -/
def quiet : Event := .cycle false false false

/-! ### Witnesses: the hypotheses of each statement, at the ends of their ranges -/

/-- The ends of each row of rule R110. -/
theorem witness_TableRowsDecode :
    (0x80 : Byte).getLsbD 7 = true ∧ (0xFF : Byte).getLsbD 7 = true ∧ (0x00 : Byte).getLsbD 7 = false ∧
      (0x03 : Byte).getLsbD 7 = false ∧ (0x7F : Byte).getLsbD 7 = false := by decide

theorem witness_DecodeEncodeAgree :
    (∃ (hasRd : Bool) (i : Instr), i.wellFormed hasRd = true) ∧ (∃ w : Word, decode .cmd8 false w = .ok .decRtu) ∧
    (∃ w : Word, decode .fc8 true w = .ok (.fcException 0x7F)) :=
  ⟨⟨false, .lrc, rfl⟩, ⟨0x14, by decide⟩, ⟨0xFF, by decide⟩⟩

theorem witness_LrcFunction : ∃ (s p : List Byte) (a f : Byte), s.Perm (a :: f :: p) ∧ s ≠ a :: f :: p :=
  ⟨[1, 5], [], 5, 1, List.Perm.swap _ _ _, by decide⟩

/-- `test_decode_illegal` has a word for each condition of rule R122. -/
theorem witness_IllegalCommand :
    ∃ (s : State) (w : Word), s.busy = false ∧ ∀ i, decodeCmd s.params.hasRd w ≠ .ok i := by
  refine ⟨idle, 0x09, rfl, fun i h => ?_⟩
  rw [show decodeCmd idle.params.hasRd 0x09 = .error .reservedOperation by decide] at h
  cases h

theorem witness_StepRunsLatchedCommand :
    (∃ (s : State) (i : Instr) (rest : List Event), s.busy = true ∧
      decodeCmd s.params.hasRd s.curOp.toWord = .ok i ∧ s.inputs = .cycle true true true :: rest) ∧
    (∃ (s : State) (i : Instr), s.busy = true ∧ decodeCmd s.params.hasRd s.curOp.toWord = .ok i ∧ s.inputs = []) :=
  ⟨⟨{ running 0x08 with inputs := [.cycle true true true] }, .handle, [], rfl, by decide, rfl⟩,
    ⟨running 0x01, .lrc, rfl, by decide, rfl⟩⟩

theorem witness_StepOfOtherEvents :
    (∃ (s : State) (a : HostAccess), s.inputs = [.host a]) ∧ (∃ (s : State) (b : Byte), s.inputs = [.arrive b]) ∧
    (∃ s : State, s.busy = false ∧ s.inputs = [.cycle true true true]) ∧ (∃ s : State, s.inputs = [.reset]) :=
  ⟨⟨{ idle with inputs := [.host (.readReg 1)] }, .readReg 1, rfl⟩,
    ⟨{ idle with inputs := [.arrive 0xFF] }, 0xFF, rfl⟩, ⟨{ idle with inputs := [.cycle true true true] }, rfl, rfl⟩,
    ⟨{ idle with inputs := [.reset] }, rfl⟩⟩

theorem witness_LocalCommandAccepted :
    ∃ s : State, s.busy = false ∧ decodeCmd s.params.hasRd 0x01 = .ok .lrc ∧
      decodeCmd s.params.hasRd 0x14 = .ok .decRtu ∧ decodeCmd s.params.hasRd 0x08 = .ok .handle :=
  ⟨idle, rfl, by decide, by decide, by decide⟩

/-- A byte put beyond the length, and each link command. -/
theorem witness_LinkCommandAccepted :
    ∃ s : State, s.busy = false ∧ s.teState = .idle ∧ s.byteAt 0 s.efLen.toNat = some 0x68 ∧
      after (hostAccess (.writeReg 0 0x05) s) (fun t => t.byteAt 0 0 == none && t.efFc == s.efFc) = true ∧
      after (hostAccess (.writeReg 0 0x06) s) (fun t => t.efFc == 0x01) = true ∧
      after (hostAccess (.writeReg 0 0x07) s) (fun t => t.efFc == 0x02 && t.efLen == 0) = true :=
  ⟨{ idle with efPayload := [(0, 0x68)] }, by decide⟩

theorem witness_BusyLock :
    ∃ s u : State, s.busy = true ∧ s.params.hasRd = true ∧ 7 < s.capacity 0 ∧ 24 < s.capacity 1 ∧ 39 < s.capacity 2 ∧
      35 < s.capacity 3 ∧ 7 < s.capacity 4 ∧ u.busy = true ∧ u.params.hasRd = false ∧ 0 < u.capacity 3 :=
  ⟨running 0x01, { State.ofReset paramsNoRd with busy := true }, by decide⟩

theorem witness_HostCannotDisturb :
    (∃ s t : State, s.nextEvent = .host (.readReg 11) ∧ step s = .next t) ∧
    (∃ s t : State, s.nextEvent = .host (.readBuf 4 0) ∧ step s = .next t) ∧
    (∃ s t : State, s.nextEvent = .host (.writeReg 0 0) ∧ step s = .next t ∧ s.busy = true) :=
  ⟨⟨{ idle with inputs := [.host (.readReg 11)] }, _, rfl, rfl⟩,
    ⟨{ idle with inputs := [.host (.readBuf 4 0)] }, _, rfl, rfl⟩,
    ⟨{ running 0x01 with inputs := [.host (.writeReg 0 0)] }, _, rfl, rfl, rfl⟩⟩

theorem witness_RegisterReads :
    ∃ s u : State, s.busy = false ∧ s.params.hasRd = true ∧ s.dfValid = true ∧ u.busy = false ∧ u.dfValid = false :=
  ⟨idle.loadDf 5 1 [] 0, idle, rfl, rfl, rfl, rfl, rfl⟩

/-- `LEN` at the capacity and one above it, `RX_LEN` the same; the ends of `OWN_ADDR`. -/
theorem witness_RegisterWrites :
    ∃ s : State, s.busy = false ∧ s.params.hasRd = true ∧
      ((0x00080000 : Word).extractLsb' 16 16).toNat ≤ s.params.payloadMax ∧
      s.params.payloadMax < ((0x00090000 : Word).extractLsb' 16 16).toNat ∧
      (40 : Word).toNat % 65536 ≤ s.params.rxMax ∧ s.params.rxMax < (41 : Word).toNat % 65536 ∧
      s.byteAt 2 0 = some 0x3A ∧
      after (hostAccess (.writeReg 5 0x100) s) (fun t => t.ownAddr == 5) = true ∧
      after (hostAccess (.writeReg 5 0x101) s) (fun t => t.ownAddr == 1) = true ∧
      after (hostAccess (.writeReg 5 247) s) (fun t => t.ownAddr == 247) = true ∧
      after (hostAccess (.writeReg 5 248) s) (fun t => t.ownAddr == 5) = true :=
  ⟨withRx .ascii frame501, by decide⟩

theorem witness_StatusWritesAndAbsentRegisters :
    ∃ s u : State, s.params.hasRd = true ∧ u.params.hasRd = false ∧ s.hasRegister 12 = false ∧ s.hasRegister 11 = true ∧
      u.hasRegister 5 = false ∧ u.hasRegister 11 = false :=
  ⟨idle, State.ofReset paramsNoRd, by decide⟩

theorem witness_BufferAccess :
    ∃ s : State, s.busy = false ∧ 7 < s.params.payloadMax ∧ 39 < s.params.rxMax ∧ s.capacity 0 ≤ 8 ∧ 8 < s.validLength 2 ∧
      s.byteAt 2 8 = some 0x0A ∧ s.validLength 2 ≤ 9 :=
  ⟨withRx .ascii frame501, by decide⟩

theorem witness_LrcLaws :
    (∃ p q : List Byte, p ≠ q ∧ p.Perm q) ∧ (∃ b c : Byte, b ≠ c) :=
  ⟨⟨[0x68, 0x69], [0x69, 0x68], by decide, List.Perm.swap _ _ _⟩, ⟨0, 1, by decide⟩⟩

theorem witness_Crc16Function : (∃ c : Half, c.toNat % 2 = 1) ∧ (∃ c : Half, c.toNat % 2 = 0) :=
  ⟨⟨0xFFFF, by decide⟩, ⟨0, by decide⟩⟩

/-- The widest burst, at both ends of its range. -/
theorem witness_CrcDetectsBursts :
    (∃ b c : Byte, b ≠ c) ∧
    (∃ (x y z x' y' z' : Byte) (burst : Half) (k : Nat), burst ≠ 0 ∧ k ≤ 8 ∧
      (z ^^^ z') ++ (y ^^^ y') ++ (x ^^^ x') = burst.setWidth 24 <<< k ∧ k = 8) ∧
    (∃ (x y z x' y' z' : Byte) (burst : Half) (k : Nat), burst ≠ 0 ∧ k ≤ 8 ∧
      (z ^^^ z') ++ (y ^^^ y') ++ (x ^^^ x') = burst.setWidth 24 <<< k ∧ k = 0) :=
  ⟨⟨0, 1, by decide⟩, ⟨0, 0, 0, 0, 0xFF, 0xFF, 0xFFFF, 8, by decide, by decide, by decide, rfl⟩,
    ⟨0, 0, 0, 0x01, 0x80, 0, 0x8001, 0, by decide, by decide, by decide, rfl⟩⟩

theorem witness_HexDigits :
    isHex 0x2F = false ∧ isHex 0x30 = true ∧ isHex 0x39 = true ∧ isHex 0x3A = false ∧ isHex 0x40 = false ∧
      isHex 0x41 = true ∧ isHex 0x46 = true ∧ isHex 0x47 = false ∧ isHex 0x60 = false ∧ isHex 0x61 = true ∧
      isHex 0x66 = true ∧ isHex 0x67 = false ∧ hexDigit true 9 = 0x39 ∧ hexDigit true 10 = 0x41 ∧
      hexDigit false 15 = 0x66 := by decide

theorem witness_AsciiFrameLayout : ∃ (p : List Byte) (j : Nat) (b : Byte), p[j]? = some b := ⟨[0x68], 0, 0x68, rfl⟩

theorem witness_AsciiFrameAlphabet :
    (∃ (p : List Byte) (ch ch' : Byte), (encAscii true 5 1 p)[1]? = some ch ∧
      (encAscii true 5 1 p)[6 + 2 * p.length]? = some ch' ∧ 1 < 7 + 2 * p.length ∧ 6 + 2 * p.length < 7 + 2 * p.length) ∧
    (∃ p : List Byte, p.length = params.payloadMax) :=
  ⟨⟨[0x68], 0x30, 0x32, by decide⟩, ⟨List.replicate 8 0x41, by decide⟩⟩

theorem witness_RtuFrameLayout : ∃ (p : List Byte) (j : Nat), j < p.length := ⟨[0x68], 0, by decide⟩

theorem witness_EncodeCommands : ∃ s : State, s.params.wf ∧ s.efLen.toNat = s.params.payloadMax :=
  ⟨withEf 5 1 [1, 2, 3, 4, 5, 6, 7, 8], by decide⟩

/-- One sequence for each step of rule R186 (95_test_vectors.md section 2.4), and one that passes them all. -/
theorem witness_AsciiDecoderSteps :
    decodeFrame .ascii [] = .framingError .noColon ∧ decodeFrame .ascii [0x0D, 0x0A] = .framingError .noColon ∧
      decodeFrame .ascii [0x3A] = .framingError .noTerminator ∧
      decodeFrame .ascii [0x3A, 0x47, 0x0D, 0x0A] = .framingError .notHex ∧
      decodeFrame .ascii [0x3A, 0x30, 0x0D, 0x0A] = .framingError .oddDigits ∧
      decodeFrame .ascii [0x3A, 0x0D, 0x0A] = .framingError .tooShort ∧
      decodeFrame .ascii wrongLrc = .checksumError ∧
      decodeFrame .ascii frame501 = .frame ⟨5, 1, [], 0xFA⟩ := by decide

theorem witness_RtuDecoderExact :
    (∃ s : List Byte, s.length < 4) ∧ (∃ (s p : List Byte) (a f lo hi : Byte), s = a :: f :: (p ++ [lo, hi])) ∧
      decodeFrame .rtu [0x05, 0x01, 0xC3, 0x20] = .frame ⟨5, 1, [], 0x20C3⟩ ∧
      decodeFrame .rtu [0x05, 0x01, 0xC3, 0x21] = .checksumError :=
  ⟨⟨[5, 1, 0xC3], by decide⟩, ⟨[5, 1, 0xC3, 0x20], [], 5, 1, 0xC3, 0x20, rfl⟩, by decide, by decide⟩

theorem witness_DecodeCommands :
    (∃ (s : State) (q : Parsed), decodeFrame .ascii s.rxBytes = .frame q) ∧
    (∃ s : State, decodeFrame .ascii s.rxBytes = .framingError .noColon) ∧
    (∃ s : State, decodeFrame .ascii s.rxBytes = .checksumError) ∧
    (∃ (s : State) (q : Parsed), decodeFrame .rtu s.rxBytes = .frame q) ∧
    (∃ s : State, decodeFrame .rtu s.rxBytes = .framingError .rtuTooShort) ∧
    (∃ s : State, decodeFrame .rtu s.rxBytes = .checksumError) :=
  ⟨⟨withRx .ascii frame501, _, rfl⟩, ⟨idle, rfl⟩, ⟨withRx .ascii wrongLrc, rfl⟩,
    ⟨withRx .rtu [0x05, 0x01, 0xC3, 0x20], ⟨5, 1, [], 0x20C3⟩, by decide⟩, ⟨idle, rfl⟩,
    ⟨withRx .rtu [0x05, 0x01, 0xC3, 0x21], by decide⟩⟩

theorem witness_RtuFrameFlip : ∃ b c : Byte, (encRtu 5 1 [])[3]? = some b ∧ c ≠ b := ⟨0x20, 0x21, by decide⟩

theorem witness_AsciiFrameFlip :
    (∃ b c : Byte, ([5, 1] : List Byte)[1]? = some b ∧ c ≠ b) ∧
    (∃ ch ch' : Byte, (encAscii true 5 1 [])[6]? = some ch ∧ isHex ch' = false) ∧
    (∃ ch ch' : Byte, (encAscii true 5 1 [])[1]? = some ch ∧ isHex ch' = true ∧ unhex1 ch' ≠ unhex1 ch) ∧
    (∃ ch ch' : Byte, (encAscii true 5 1 [])[5]? = some ch ∧ isHex ch' = true ∧ unhex1 ch' = unhex1 ch ∧ ch' ≠ ch) :=
  ⟨⟨1, 0, by decide⟩, ⟨0x41, 0x47, by decide⟩, ⟨0x30, 0x46, by decide⟩, ⟨0x46, 0x66, by decide⟩⟩

theorem witness_BuildStep :
    ∃ s : State, s.teState = .build ∧ s.params.wf ∧ s.efLen.toNat ≤ s.params.payloadMax :=
  ⟨linkIn .build 2 [], by decide⟩

/-- A byte to send, taken or not; the last byte taken. -/
theorem witness_SendStep :
    ∃ s u : State, s.teState = .send ∧ s.txPtr.toNat < s.txLen.toNat ∧ s.byteAt 1 s.txPtr.toNat = some 0x20 ∧
      s.txReady = true ∧ { s with txReady := false }.txReady = false ∧ u.teState = .send ∧ u.txPtr = u.txLen :=
  ⟨{ (linkIn .send 2 []).loadTx [0x05, 0x01, 0xC3, 0x20] with txPtr := 3, txReady := true },
    { (linkIn .send 2 []).loadTx [0x05, 0x01, 0xC3, 0x20] with txPtr := 4 }, by decide⟩

/-- The window open, with a byte offered and without; full, with a tick; timed out. -/
theorem witness_WaitStep :
    (∃ s : State, s.teState = .wait ∧ s.rxLen.toNat < s.params.rxMax ∧ s.timer.toNat < s.timeout.toNat ∧
      s.rxOffer = some 0x3A) ∧
    (∃ s : State, s.teState = .wait ∧ s.rxLen.toNat < s.params.rxMax ∧ s.timer.toNat < s.timeout.toNat ∧
      s.rxOffer = none) ∧
    (∃ s : State, s.teState = .wait ∧ s.params.rxMax ≤ s.rxLen.toNat ∧ s.tick = true ∧
      s.timer.toNat < s.timeout.toNat) ∧
    (∃ s : State, s.teState = .wait ∧ s.timeout.toNat ≤ s.timer.toNat) :=
  ⟨⟨{ linkIn .wait 2 [] with rxValid := true, rxStream := [0x3A] }, by decide⟩, ⟨linkIn .wait 2 [], by decide⟩,
    ⟨{ linkIn .wait 2 (List.replicate 40 0x30) with tick := true }, by decide⟩, ⟨{ linkIn .wait 2 [] with timer := 3 }, by decide⟩⟩

theorem witness_FailedAttempt :
    (∃ s : State, s.Inv ∧ s.busy = true ∧ decodeCmd s.params.hasRd s.curOp.toWord = .ok .execute ∧ s.teState = .check ∧
      failedBy s.mode s.rxBytes = some .checksum ∧ s.retryCnt = s.retries) ∧
    (∃ s : State, s.Inv ∧ s.busy = true ∧ decodeCmd s.params.hasRd s.curOp.toWord = .ok .execute ∧ s.teState = .check ∧
      failedBy s.mode s.rxBytes = some .noData ∧ s.retryCnt ≠ s.retries) :=
  ⟨⟨linkRun .check 0 wrongLrc [], linkRun_inv _ _ _ _ (by decide) (by decide), by decide⟩,
    ⟨linkRun .check 1 [] [], linkRun_inv _ _ _ _ (by decide) (by decide), by decide⟩⟩

theorem witness_SuccessfulAttempt :
    ∃ (s : State) (q : Parsed), s.teState = .check ∧ s.rxLen ≠ 0 ∧ decodeFrame s.mode s.rxBytes = .frame q :=
  ⟨linkIn .check 0 frame501, ⟨5, 1, [], 0xFA⟩, by decide⟩

/-- A change of `TE_STATE` of each kind. -/
theorem witness_SequencerTransitions :
    (∃ s t : State, s.Inv ∧ step s = .next t ∧ s.teState = .idle ∧ t.teState = .build) ∧
    (∃ s t : State, s.Inv ∧ step s = .next t ∧ s.teState = .build ∧ t.teState = .send) ∧
    (∃ s t : State, s.Inv ∧ step s = .next t ∧ s.teState = .send ∧ t.teState = .wait) ∧
    (∃ s t : State, s.Inv ∧ step s = .next t ∧ s.teState = .wait ∧ t.teState = .check) ∧
    (∃ s t : State, s.Inv ∧ step s = .next t ∧ s.teState = .check ∧ t.teState = .build) ∧
    (∃ s t : State, s.Inv ∧ step s = .next t ∧ s.teState = .check ∧ t.result = .ok) ∧
    (∃ s t : State, s.Inv ∧ step s = .next t ∧ s.teState = .check ∧ t.result = .timeoutError) ∧
    (∃ s t : State, s.Inv ∧ step s = .next t ∧ s.nextEvent = .reset ∧ s.teState = .wait ∧ t.teState = .idle) :=
  ⟨⟨hostIdle .ascii 1 3 [] [.host (.writeReg 0 0x05)], _, hostIdle_inv _ _ _ _ _ (by decide), rfl, rfl, rfl⟩,
    ⟨linkRun .build 1 [] [quiet], _, linkRun_inv _ _ _ _ (by decide) (by decide), rfl, rfl, rfl⟩,
    ⟨linkRun .send 1 [] [quiet], _, linkRun_inv _ _ _ _ (by decide) (by decide), rfl, rfl, rfl⟩,
    ⟨linkRun .wait 1 (List.replicate 40 0x30) [quiet], _, linkRun_inv _ _ _ _ (by decide) (by decide), rfl, rfl, rfl⟩,
    ⟨linkRun .check 1 [] [quiet], _, linkRun_inv _ _ _ _ (by decide) (by decide), rfl, rfl, rfl⟩,
    ⟨linkRun .check 1 frame501 [quiet], _, linkRun_inv _ _ _ _ (by decide) (by decide), rfl, rfl, rfl⟩,
    ⟨linkRun .check 0 [] [quiet], _, linkRun_inv _ _ _ _ (by decide) (by decide), rfl, rfl, rfl⟩,
    ⟨linkRun .wait 1 [] [.reset], _, linkRun_inv _ _ _ _ (by decide) (by decide), rfl, rfl, rfl, rfl⟩⟩

/-- A sequencer in `SEND` with one byte to send. -/
def sendingOne (evs : List Event) : State :=
  { linkRun .send 1 [] evs with txBuf := Memory.ofBytes [0x3A], txLen := 1 }

theorem sendingOne_inv (evs : List Event) : (sendingOne evs).Inv := by
  have h := linkRun_inv .send 1 [] evs (by decide) (by decide)
  exact ⟨{ h.data with
      txLen := show 1 ≤ params.txMax by decide
      txBuf := fits_ofBytes [0x3A] params.txMax (by decide) }, { h.control with txPtr := fun _ => Nat.zero_le 1 }⟩

/-- A sequencer in `WAIT` whose transport holds one byte. -/
def waiting (evs : List Event) : State := { linkRun .wait 1 [] evs with rxStream := [0x3A] }

theorem waiting_inv (evs : List Event) : (waiting evs).Inv := by
  have h := linkRun_inv .wait 1 [] evs (by decide) (by decide)
  exact ⟨{ h.data with }, { h.control with }⟩

/-- A byte that arrives; a byte taken in `WAIT`; a byte sent. -/
theorem witness_OnlyLinkCommandsTouchTheLink :
    (∃ s t : State, s.Inv ∧ step s = .next t ∧ (∃ b, s.nextEvent = .arrive b) ∧ t.rxStream ≠ s.rxStream) ∧
    (∃ s t : State, s.Inv ∧ step s = .next t ∧ s.teState = .wait ∧ s.nextEvent = .cycle false false true ∧
      t.rxStream ≠ s.rxStream) ∧
    (∃ s t : State, s.Inv ∧ step s = .next t ∧ s.teState = .send ∧ s.nextEvent = .cycle false true false ∧
      t.txStream ≠ s.txStream) :=
  ⟨⟨hostIdle .ascii 1 3 [] [.arrive 0x3A], _, hostIdle_inv _ _ _ _ _ (by decide), rfl, ⟨0x3A, rfl⟩,
    by simp [hostIdle, withRx, idle, State.ofReset, State.takeEvent]⟩,
    ⟨waiting [.cycle false false true], _, waiting_inv _, rfl, rfl, rfl, by decide⟩,
    ⟨sendingOne [.cycle false true false], _, sendingOne_inv _, rfl, rfl, rfl, by decide⟩⟩

theorem witness_EveryAttemptSendsTheRequest :
    (∃ s t : State, s.Inv ∧ s.busy = false ∧ hostAccess (.writeReg 0 (encode .execute)) s = .next t) ∧
    (∃ s t : State, s.Inv ∧ s.busy = true ∧ s.teState ≠ .idle ∧ s.Sent [] ∧ s.nextEvent ≠ .reset ∧ step s = .next t) :=
  ⟨⟨hostIdle .ascii 1 3 [] [], _, hostIdle_inv _ _ _ _ _ (by decide), rfl, rfl⟩,
    ⟨linkRun .build 1 [] [quiet], _, linkRun_inv _ _ _ _ (by decide) (by decide), rfl, by decide,
      ⟨by decide, by decide⟩, by decide, rfl⟩⟩

/-- Two bad answers, then a good one, with two retries (95_test_vectors.md section 2.6, rows 4 and 5). -/
theorem witness_TransactionSucceeds :
    ∃ (s : State) (i : Instr) (bad : List (List Byte)) (good : List Byte) (q : Parsed),
      (i = .execute ∨ i = .writeText ∨ i = .readText) ∧ s.Inv ∧ s.busy = false ∧ s.rxStream = [] ∧
      bad.length = s.retries.toNat ∧ s.timeout ≠ 0 ∧ (∀ rx ∈ bad, rx.length ≤ s.params.rxMax) ∧
      (∀ rx ∈ bad, failedBy s.mode rx ≠ none) ∧ good.length ≤ s.params.rxMax ∧
      decodeFrame s.mode good = .frame q ∧
      s.inputs = .host (.writeReg 0 (encode i)) ::
        ((bad ++ [good]).flatMap (attemptEvents (s.prepared i)) ++ []) :=
  ⟨hostIdle .ascii 2 3 [] (.host (.writeReg 0 (encode .readText)) ::
      (([[], wrongLrc] ++ [frame501]).flatMap (attemptEvents ((hostIdle .ascii 2 3 [] []).prepared .readText)) ++ [])),
    .readText, [[], wrongLrc], frame501, ⟨5, 1, [], 0xFA⟩, by decide, hostIdle_inv _ _ _ _ _ (by decide), rfl, rfl,
    by decide, by decide, by decide, by decide, by decide, by decide, rfl⟩

/-- One bad answer and no retries; and no window at all. -/
theorem witness_TransactionExhausted :
    (∃ (s : State) (bad : List (List Byte)), s.Inv ∧ s.busy = false ∧ s.rxStream = [] ∧
      bad.length = s.retries.toNat + 1 ∧ (∀ rx ∈ bad, rx.length ≤ s.params.rxMax) ∧
      (∀ rx ∈ bad, failedBy s.mode rx ≠ none) ∧ s.timeout ≠ 0 ∧
      s.inputs = .host (.writeReg 0 (encode .execute)) :: (bad.flatMap (attemptEvents (s.prepared .execute)) ++ [])) ∧
    (∃ (s : State) (bad : List (List Byte)), s.Inv ∧ s.busy = false ∧ s.rxStream = [] ∧
      bad.length = s.retries.toNat + 1 ∧ (∀ rx ∈ bad, failedBy s.mode rx ≠ none) ∧ s.timeout = 0 ∧
      (∀ rx ∈ bad, rx = []) ∧
      s.inputs = .host (.writeReg 0 (encode .execute)) :: (bad.flatMap (attemptEvents (s.prepared .execute)) ++ [])) :=
  ⟨⟨hostIdle .ascii 0 3 [] (.host (.writeReg 0 (encode .execute)) ::
      ([wrongLrc].flatMap (attemptEvents ((hostIdle .ascii 0 3 [] []).prepared .execute)) ++ [])),
    [wrongLrc], hostIdle_inv _ _ _ _ _ (by decide), rfl, rfl, by decide, by decide, by decide, by decide, rfl⟩,
   ⟨hostIdle .ascii 1 0 [] (.host (.writeReg 0 (encode .execute)) ::
      ([[], []].flatMap (attemptEvents ((hostIdle .ascii 1 0 [] []).prepared .execute)) ++ [])),
    [[], []], hostIdle_inv _ _ _ _ _ (by decide), rfl, rfl, by decide, by decide, by decide, by decide, rfl⟩⟩

theorem witness_HandleSilence :
    (∃ s : State, decodeFrame s.mode s.rxBytes = .framingError .noColon) ∧
    (∃ s : State, decodeFrame s.mode s.rxBytes = .checksumError) ∧
    (∃ (s : State) (q : Parsed), decodeFrame s.mode s.rxBytes = .frame q ∧ q.addr ≠ s.ownAddr) :=
  ⟨⟨idle, rfl⟩, ⟨withRx .ascii wrongLrc, by decide⟩,
    ⟨{ withRx .ascii frame501 with ownAddr := 6 }, ⟨5, 1, [], 0xFA⟩, by decide⟩⟩

/-- Requests for this slave with a code of each row of rule R110. -/
theorem witness_HandleRunsTheFunctionCode :
    (∃ (s : State) (q : Parsed) (i : Instr), decodeFrame s.mode s.rxBytes = .frame q ∧ q.addr = s.ownAddr ∧
      decodeFc true q.fc = .ok i) ∧
    (∃ (s : State) (q : Parsed), decodeFrame s.mode s.rxBytes = .frame q ∧ q.addr = s.ownAddr ∧
      decodeFc true q.fc = .error .functionCodeUndefined) :=
  ⟨⟨withRx .ascii frame501, ⟨5, 1, [], 0xFA⟩, .fcWriteText, by decide⟩,
    ⟨withRx .ascii [0x3A, 0x30, 0x35, 0x30, 0x33, 0x46, 0x38, 0x0D, 0x0A], ⟨5, 3, [], 0xF8⟩, by decide⟩⟩

/-- A text that just fits, one that is a byte too long, one that is not UTF-8; a stored text; any exception code. -/
theorem witness_FunctionCodeInstructions :
    (∃ s : State, s.params.wf ∧ s.textLen.toNat ≤ s.params.payloadMax ∧ s.dfLen.toNat = s.params.payloadMax ∧
      utf8Ok s.params s.dfBytes = true) ∧
    (∃ s : State, s.params.wf ∧ s.textLen.toNat ≤ s.params.payloadMax ∧ s.dfLen.toNat = s.params.payloadMax + 1 ∧
      utf8Ok s.params s.dfBytes = true) ∧
    (∃ s : State, s.params.wf ∧ s.textLen.toNat = s.params.payloadMax ∧ s.dfLen.toNat ≤ s.params.payloadMax ∧
      utf8Ok s.params s.dfBytes = false) :=
  ⟨⟨idle.loadDf 5 1 (List.replicate 8 0x41) 0, by decide⟩, ⟨idle.loadDf 5 1 (List.replicate 9 0x41) 0, by decide⟩,
    ⟨(idle.loadText (List.replicate 8 0x41)).loadDf 5 1 [0xC3, 0x28] 0, by decide⟩⟩

theorem witness_HandleWriteText :
    (∃ (s : State) (q : Parsed), decodeFrame s.mode s.rxBytes = .frame q ∧ q.addr = s.ownAddr ∧ q.fc = 0x01 ∧
      q.payload.length ≤ s.params.payloadMax ∧ utf8Ok s.params q.payload = true) ∧
    (∃ (s : State) (q : Parsed), decodeFrame s.mode s.rxBytes = .frame q ∧ q.addr = s.ownAddr ∧ q.fc = 0x01 ∧
      utf8Ok s.params q.payload = false) ∧
    (∃ (s : State) (q : Parsed), decodeFrame s.mode s.rxBytes = .frame q ∧ q.addr = s.ownAddr ∧ q.fc = 0x01 ∧
      s.params.payloadMax < q.payload.length ∧ utf8Ok s.params q.payload = true) :=
  ⟨⟨withRx .ascii frameHi, ⟨5, 1, [0x68, 0x69], 0x29⟩, by decide⟩,
    ⟨withRx .ascii [0x3A, 0x30, 0x35, 0x30, 0x31, 0x43, 0x33, 0x32, 0x38, 0x30, 0x46, 0x0D, 0x0A],
      ⟨5, 1, [0xC3, 0x28], 0x0F⟩, by decide⟩,
    ⟨withRx .ascii (encAscii true 5 1 (List.replicate 9 0x41)),
      ⟨5, 1, List.replicate 9 0x41, (lrc 5 1 (List.replicate 9 0x41)).toHalf⟩, by decide⟩⟩

theorem witness_HandleReadText :
    ∃ (s : State) (q : Parsed), s.params.wf ∧ s.textLen.toNat ≤ s.params.payloadMax ∧
      decodeFrame s.mode s.rxBytes = .frame q ∧ q.addr = s.ownAddr ∧ q.fc = 0x02 :=
  ⟨(withRx .ascii [0x3A, 0x30, 0x35, 0x30, 0x32, 0x46, 0x39, 0x0D, 0x0A]).loadText [0x68, 0x69], ⟨5, 2, [], 0xF9⟩,
    by decide⟩

theorem witness_HandleException :
    (∃ (s : State) (q : Parsed), decodeFrame s.mode s.rxBytes = .frame q ∧ q.addr = s.ownAddr ∧ q.fc ≠ 0x01 ∧
      q.fc ≠ 0x02) ∧
    (∃ (s : State) (q : Parsed), decodeFrame s.mode s.rxBytes = .frame q ∧ q.addr = s.ownAddr ∧ q.fc = 0x01 ∧
      utf8Ok s.params q.payload = false) :=
  ⟨⟨withRx .ascii [0x3A, 0x30, 0x35, 0x30, 0x33, 0x46, 0x38, 0x0D, 0x0A], ⟨5, 3, [], 0xF8⟩, by decide⟩,
    ⟨withRx .ascii [0x3A, 0x30, 0x35, 0x30, 0x31, 0x43, 0x33, 0x32, 0x38, 0x30, 0x46, 0x0D, 0x0A],
      ⟨5, 1, [0xC3, 0x28], 0x0F⟩, by decide⟩⟩

/-- The states of the first and of the second `HANDLE`, in ASCII (the second one's text is checked below). -/
theorem witness_TextIsReadBack :
    ∃ (s u : State) (p p' : List Byte), s.Inv ∧ u.Inv ∧ p.length ≤ s.params.payloadMax ∧ utf8Ok s.params p = true ∧
      s.rxBytes = encodeFrame s.mode true s.ownAddr 0x01 p ∧
      after (exec .handle s) (fun t => u.params == t.params && u.text == t.text && u.textLen == t.textLen &&
        u.ownAddr == t.ownAddr && u.mode == t.mode) = true ∧
      u.rxBytes = encodeFrame s.mode false s.ownAddr 0x02 p' := by
  refine ⟨hostIdle .ascii 0 0 frameHi [], { hostIdle .ascii 0 0 [0x3A, 0x30, 0x35, 0x30, 0x32, 0x66, 0x39, 0x0D, 0x0A] []
    with text := Memory.ofBytes [0x68, 0x69], textLen := 2 }, [0x68, 0x69], [], hostIdle_inv _ _ _ _ _ (by decide), ?_,
    by decide, by decide, by decide, by decide, by decide⟩
  have h := hostIdle_inv .ascii 0 0 [0x3A, 0x30, 0x35, 0x30, 0x32, 0x66, 0x39, 0x0D, 0x0A] [] (by decide)
  exact ⟨{ h.data with
      textLen := by decide
      text := fits_ofBytes [0x68, 0x69] 8 (by decide)
      textUtf8 := .inr (by decide) }, { h.control with }⟩

theorem witness_OnlyWriteRequestsChangeTheText :
    (∃ s t : State, step s = .next t ∧ t.textLen ≠ s.textLen ∧ s.busy = true ∧ t.textLen.toNat = 2) ∧
    (∃ s t : State, step s = .next t ∧ t.textLen ≠ s.textLen ∧ s.nextEvent = .reset) :=
  ⟨⟨{ withRx .ascii frameHi with busy := true, curOp := 0x08, inputs := [quiet] }, _, rfl, by decide, rfl, by decide⟩,
    ⟨{ idle.loadText [0x68] with inputs := [.reset] }, _, rfl, by decide, rfl⟩⟩

theorem witness_ResultKindsPerCommand :
    ∃ s t u v w : State, exec .lrc s = .next t ∧ s.done = false ∧ t.done = true ∧ exec .execute (linkIn .check 0 []) = .next u ∧
      u.done = true ∧ exec .handle s = .next v ∧ v.done = true ∧ exec .decAscii s = .next w ∧ w.done = true :=
  ⟨running 0x01, _, _, _, _, rfl, rfl, rfl, rfl, rfl, rfl, rfl, rfl, rfl⟩

theorem witness_OvrIsSticky :
    (∃ s t : State, step s = .next t ∧ s.ovr = true ∧ t.ovr = false) ∧
    (∃ s t : State, step s = .next t ∧ s.ovr = false ∧ t.ovr = true) :=
  ⟨⟨{ idle with ovr := true, inputs := [.host (.writeReg 1 0x800)] }, _, rfl, rfl, by decide⟩,
    ⟨{ running 0x01 with inputs := [.host (.writeBuf 0 0 0)] }, _, rfl, rfl, by decide⟩⟩

theorem witness_StepKeepsInvariant : ∃ s t : State, s.Inv ∧ step s = .next t :=
  ⟨linkRun .check 1 frame501 [quiet], _, linkRun_inv _ _ _ _ (by decide) (by decide), rfl⟩

theorem witness_ResetInvariant : params.wf ∧ Params.default.wf := by decide

theorem witness_ResetValues : ∃ s : State, s.busy = true ∧ s.inputs = [.reset] :=
  ⟨{ running 0x05 with inputs := [.reset] }, rfl, rfl⟩

theorem witness_ScriptsPlaceOperands :
    (∃ (s : State) (bytes : List Byte), s.Inv ∧ s.busy = false ∧ bytes.length = s.params.payloadMax ∧
      s.inputs = scriptEvents (stmtFrame 5 1 bytes) ++ []) ∧
    (∃ (s : State) (bytes : List Byte), s.Inv ∧ s.busy = false ∧ bytes.length ≤ s.params.rxMax ∧
      s.inputs = scriptEvents (stmtRx bytes) ++ []) :=
  ⟨⟨hostIdle .ascii 0 0 [] (scriptEvents (stmtFrame 5 1 (List.replicate 8 0x41)) ++ []), List.replicate 8 0x41,
      hostIdle_inv _ _ _ _ _ (by decide), rfl, by decide, rfl⟩,
    ⟨hostIdle .ascii 0 0 [] (scriptEvents (stmtRx frame501) ++ []), frame501, hostIdle_inv _ _ _ _ _ (by decide), rfl,
      by decide, rfl⟩⟩

end Sys2Proof.Tests
end

section
/-! Proofs of the scope family: what reset establishes, and which characters stand where in an ASCII frame. -/

namespace Sys2Proof.Machine

/-! ### The reset state (rule R50) -/

/-- Every length is zero and every buffer empty, so only the ranges of the parameters are needed. -/
theorem ofReset_data (p : Params) (h : p.wf) : (State.ofReset p).DataInv where
  params := h
  efLen := Nat.zero_le _
  txLen := Nat.zero_le _
  rxLen := Nat.zero_le _
  dfLen := fun hv => by cases hv
  textLen := Nat.zero_le _
  ownAddr := by simp [State.ofReset]
  efPayload := fits_nil _
  txBuf := fits_nil _
  rxBuf := fits_nil _
  dfPayload := fits_nil _
  text := fits_nil _
  textUtf8 := .inl rfl
  exc := rfl

/-- Reset leaves the block as a completion does, but for `DONE`. -/
theorem ofReset_control (p : Params) : (State.ofReset p).ControlInv :=
  { complete_control (State.ofReset p) .ok (by simp [State.ofReset]) (by simp [State.ofReset]) with
    notDone := fun _ => rfl }

theorem ofReset_inv (p : Params) (h : p.wf) : (State.ofReset p).Inv := ⟨ofReset_data p h, ofReset_control p⟩

/-! ### The characters of an ASCII frame (rules R100, R102, R162) -/

/-- The character of a nibble is a decimal digit or a letter of the chosen case. -/
theorem hexDigit_range (u : Bool) (v : Byte) (h : v.toNat ≤ 15) :
    (0x30 ≤ (hexDigit u v).toNat ∧ (hexDigit u v).toNat ≤ 0x39) ∨
      (if u = true then 0x41 ≤ (hexDigit u v).toNat ∧ (hexDigit u v).toNat ≤ 0x46
        else 0x61 ≤ (hexDigit u v).toNat ∧ (hexDigit u v).toNat ≤ 0x66) := by
  cases u <;> revert v <;> decide

/-- A hex digit is neither the colon nor a byte of the terminator. -/
theorem hexDigit_ne_delimiter (u : Bool) (v : Byte) (h : v.toNat ≤ 15) :
    hexDigit u v ≠ 0x3A ∧ hexDigit u v ≠ 0x0D ∧ hexDigit u v ≠ 0x0A := by
  cases u <;> revert v <;> decide

theorem nibbles_toNat_le (b : Byte) : (b >>> 4).toNat ≤ 15 ∧ (b &&& 0x0F).toNat ≤ 15 := by
  revert b; decide

/-- Every character of a sequence in hex is the character of a nibble. -/
theorem exists_nibble_of_mem_hexAll (u : Bool) (s : List Byte) (ch : Byte) (h : ch ∈ hexAll u s) :
    ∃ v : Byte, v.toNat ≤ 15 ∧ ch = hexDigit u v := by
  induction s with
  | nil => cases h
  | cons b s ih =>
    rw [hexAll_cons, List.mem_cons, List.mem_cons] at h
    rcases h with rfl | rfl | h
    · exact ⟨_, (nibbles_toNat_le b).1, rfl⟩
    · exact ⟨_, (nibbles_toNat_le b).2, rfl⟩
    · exact ih h

@[simp] theorem asciiHex_length (u : Bool) (a f : Byte) (p : List Byte) :
    (asciiHex u a f p).length = 6 + 2 * p.length := by
  rw [asciiHex, hexAll_length]; simp; omega

/-- Which part of the frame an index falls into, and what stands there. -/
theorem encAscii_getElem?_cases (u : Bool) (a f : Byte) (p : List Byte) (i : Nat) (ch : Byte)
    (h : (encAscii u a f p)[i]? = some ch) :
    (i = 0 ∧ ch = 0x3A) ∨ (0 < i ∧ i < 7 + 2 * p.length ∧ ch ∈ asciiHex u a f p) ∨
      (i = 7 + 2 * p.length ∧ ch = 0x0D) ∨ (i = 8 + 2 * p.length ∧ ch = 0x0A) := by
  have hi : i < 9 + 2 * p.length := by
    obtain ⟨hlt, -⟩ := List.getElem?_eq_some_iff.1 h
    simpa using hlt
  obtain ⟨hcr, hlf⟩ := getElem?_last_two (asciiHex u a f p) 0x0D 0x0A
  rw [encAscii_eq] at h
  cases i with
  | zero => exact .inl ⟨rfl, by simpa using h.symm⟩
  | succ j =>
    rw [List.getElem?_cons_succ] at h
    obtain hj | rfl | rfl : j < (asciiHex u a f p).length ∨ j = (asciiHex u a f p).length ∨
        j = (asciiHex u a f p).length + 1 := by rw [asciiHex_length]; omega
    · rw [List.getElem?_append_left hj] at h
      rw [asciiHex_length] at hj
      exact .inr (.inl ⟨by omega, by omega, List.mem_of_getElem? h⟩)
    · exact .inr (.inr (.inl ⟨by rw [asciiHex_length]; omega, Option.some.inj (h.symm.trans hcr)⟩))
    · exact .inr (.inr (.inr ⟨by rw [asciiHex_length]; omega, Option.some.inj (h.symm.trans hlf)⟩))

/-- A payload within `PAYLOAD_MAX` makes a frame within `TX_MAX` (rule R7). -/
theorem encAscii_length_le_txMax (u : Bool) (a f : Byte) (p : List Byte) (params : Params)
    (h : p.length ≤ params.payloadMax) : (encAscii u a f p).length ≤ params.txMax := by
  rw [encAscii_length, Params.txMax]; omega

/-! ### The statements -/

/-- Settles O57, from the data part and the control part of the reset state. -/
theorem resetInvariant : Obligations.ResetInvariant := by
  unfold Obligations.ResetInvariant
  exact ⟨ofReset_inv, ofReset_inv _ (by decide)⟩

/-- Settles O25, by the part of the frame that the index falls into. -/
theorem asciiFrameAlphabet : Obligations.AsciiFrameAlphabet := by
  unfold Obligations.AsciiFrameAlphabet
  refine fun u a f p => ⟨fun i ch h => ?_, encAscii_length_le_txMax u a f p⟩
  rcases encAscii_getElem?_cases u a f p i ch h with ⟨rfl, rfl⟩ | ⟨hpos, hend, hmem⟩ | ⟨rfl, rfl⟩ | ⟨rfl, rfl⟩
  · simp; omega
  · obtain ⟨v, hv, rfl⟩ := exists_nibble_of_mem_hexAll u _ ch hmem
    obtain ⟨hcolon, hcr, hlf⟩ := hexDigit_ne_delimiter u v hv
    refine ⟨iff_of_false hcolon (by omega), iff_of_false hcr (by omega), iff_of_false hlf (by omega), ?_⟩
    exact fun _ _ => hexDigit_range u v hv
  · simp
  · simp

end Sys2Proof.Machine
end

section
/-! Proofs of the state family, part one: what a host access can do, and the invariant of every step. -/

namespace Sys2Proof.Machine

/-! ### What one host access can do (rules R21 to R39) -/

/-- The effects of a host access: a read returns a value; a write changes `OVR`, is ignored, issues a command, writes a
register of an idle block or one byte of `EF_PAYLOAD` or `RXBUF`. -/
inductive HostEffect (s : State) : HostAccess → State → Prop
  | readReg (n : Nat) (w : Word) (d : Nat) : HostEffect s (.readReg n) { s with hostData := w, draws := d }
  | readBuf (id i : Nat) (w : Word) (d : Nat) : HostEffect s (.readBuf id i) { s with hostData := w, draws := d }
  | status (v : Word) : HostEffect s (.writeReg 1 v) (s.writeStatus v)
  | refusedReg (n : Nat) (v : Word) (hb : s.busy = true) (hn : n ≠ 1) : HostEffect s (.writeReg n v) s.refuseWrite
  | refusedBuf (id i : Nat) (b : Byte) (hb : s.busy = true) : HostEffect s (.writeBuf id i b) s.refuseWrite
  | ignoredReg (n : Nat) (v : Word) : HostEffect s (.writeReg n v) s
  | ignoredBuf (id i : Nat) (b : Byte) : HostEffect s (.writeBuf id i b) s
  | command (v : Word) (t : State) (hb : s.busy = false) (hi : issue v s = .next t) : HostEffect s (.writeReg 0 v) t
  | register (n : Nat) (v : Word) (hb : s.busy = false) : HostEffect s (.writeReg n v) (s.writeIdleReg n v)
  | efPayload (i : Nat) (b : Byte) (hb : s.busy = false) (hi : i < s.params.payloadMax) :
      HostEffect s (.writeBuf 0 i b) { s with efPayload := s.efPayload.put i b }
  | rxBuf (i : Nat) (b : Byte) (hb : s.busy = false) (hi : i < s.params.rxMax) :
      HostEffect s (.writeBuf 2 i b) { s with rxBuf := s.rxBuf.put i b }

theorem readReg_eq (n : Nat) (s : State) : ∃ w d, s.readReg n = { s with hostData := w, draws := d } := by
  unfold State.readReg
  split
  · exact ⟨_, _, rfl⟩
  · split
    · exact ⟨_, _, rfl⟩
    · split <;> exact ⟨_, _, rfl⟩

theorem readBuf_eq (id i : Nat) (s : State) : ∃ w d, s.readBuf id i = { s with hostData := w, draws := d } := by
  unfold State.readBuf
  split
  · exact ⟨_, _, rfl⟩
  · split <;> exact ⟨_, _, rfl⟩

theorem writeReg_effect (n : Nat) (v : Word) (s t : State) (e : writeReg n v s = .next t) :
    HostEffect s (.writeReg n v) t := by
  unfold writeReg at e
  split at e
  · cases e; exact .ignoredReg n v
  split at e
  · next h1 => cases e; subst h1; exact .status v
  next h1 =>
  split at e
  · next hb => cases e; exact .refusedReg n v hb h1
  next hb =>
  have hb : s.busy = false := by simpa using hb
  split at e
  · next h0 => subst h0; exact .command v t hb e
  · cases e; exact .register n v hb

theorem writeBuf_effect (id i : Nat) (b : Byte) (s : State) : HostEffect s (.writeBuf id i b) (s.writeBuf id i b) := by
  unfold State.writeBuf
  split
  · exact .ignoredBuf id i b
  split
  · next hb => exact .refusedBuf id i b hb
  next hb =>
  have hb : s.busy = false := by simpa using hb
  split
  · exact .ignoredBuf id i b
  next hi =>
  split
  · exact .efPayload i b hb (Nat.not_le.1 hi)
  · exact .rxBuf i b hb (Nat.not_le.1 hi)
  · exact .ignoredBuf id i b

/-- Every host access has one of the effects. -/
theorem hostAccess_effect (a : HostAccess) (s t : State) (e : hostAccess a s = .next t) : HostEffect s a t := by
  cases a with
  | writeReg n v => exact writeReg_effect n v s t e
  | readReg n =>
    obtain ⟨w, d, h⟩ := readReg_eq n s
    rw [hostAccess, h] at e
    cases e; exact .readReg n w d
  | writeBuf id i b => cases e; exact writeBuf_effect id i b s
  | readBuf id i =>
    obtain ⟨w, d, h⟩ := readBuf_eq id i s
    rw [hostAccess, h] at e
    cases e; exact .readBuf id i w d

/-! ### What the issue of a command can do (rules R26, R122, R216) -/

theorem issue_illegal (w : Word) (s : State) (h : ∀ i, decodeCmd s.params.hasRd w ≠ .ok i) :
    issue w s = .next ((s.accept (w.setWidth 8) false).complete .illegalCommand) := by
  unfold issue
  cases hd : decodeCmd s.params.hasRd w with
  | error r => rfl
  | ok i => exact absurd hd (h i)

theorem issue_local (w : Word) (s : State) (i : Instr) (h : decodeCmd s.params.hasRd w = .ok i)
    (hl : isLink i = false) : issue w s = .next (s.accept (w.setWidth 8) (decodesFrame i)) := by
  simp only [issue, h, hl, Bool.false_eq_true, if_false]

theorem issue_link (w : Word) (s : State) (i : Instr) (h : decodeCmd s.params.hasRd w = .ok i)
    (hl : isLink i = true) : issue w s = exec i (s.accept (w.setWidth 8) (decodesFrame i)) := by
  simp only [issue, h, hl, if_true]

theorem isLink_cases (i : Instr) (h : isLink i = true) : i = .execute ∨ i = .writeText ∨ i = .readText := by
  cases i <;> simp_all [isLink]

/-- The word of a command that the host writes is the command latched in `CUR_OP` (rule R44). -/
theorem decodeCmd_latched (r : Bool) (w : Word) (i : Instr) (h : decodeCmd r w = .ok i) :
    decodeCmd r (Byte.toWord (w.setWidth 8)) = .ok i := by
  rw [decodeCmd_low r w i h, h]

/-- A link command accepted by a block in `IDLE` enters `BUILD` in the same step (rule R216). -/
theorem exec_link_accepted (i : Instr) (w : Byte) (d : Bool) (s : State)
    (hi : i = .execute ∨ i = .writeText ∨ i = .readText) (ht : s.teState = .idle) :
    exec i (s.accept w d) = .next (linkStart (State.prepared i) (s.accept w d)) := by
  obtain ⟨pre, fin, hpre, -, hx⟩ := exec_link i hi
  rw [hx, linkStep_idle _ _ (s.accept w d) ht, funext hpre]

theorem prepared_cases (i : Instr) :
    State.prepared i = id ∨ State.prepared i = prepareWriteText ∨ State.prepared i = prepareReadText := by
  cases i with
  | writeText => exact .inr (.inl rfl)
  | readText => exact .inr (.inr rfl)
  | _ => exact .inl rfl

/-! ### The invariant under a host access -/

theorem issue_inv (w : Word) (s t : State) (h : s.Inv) (hb : s.busy = false) (e : issue w s = .next t) : t.Inv := by
  have ht := h.control.idle hb
  cases hd : decodeCmd s.params.hasRd w with
  | error r =>
    rw [issue_illegal w s (by simp [hd])] at e
    cases e
    exact ⟨(h.data.accept _ _).complete _, complete_control _ _ (by simp) (by simp)⟩
  | ok i =>
    have hc := decodeCmd_latched _ _ _ hd
    cases hl : isLink i with
    | false =>
      rw [issue_local w s i hd hl] at e
      cases e
      exact ⟨h.data.accept _ _, accept_control s _ _ i hc hl rfl h.control hb⟩
    | true =>
      rw [issue_link w s i hd hl] at e
      refine ⟨exec_data i _ t (h.data.accept _ _) e, ?_⟩
      rw [exec_link_accepted i _ _ s (isLink_cases i hl) ht] at e
      cases e
      exact linkStart_control i hl _ _ (prepared_cases i) (accept_linking s _ i hc hl) rfl

theorem setEfHdr_inv (v : Word) (s : State) (h : s.Inv) : (s.setEfHdr v).Inv := by
  unfold State.setEfHdr
  split
  · next hl =>
    exact ⟨{ h.data.draws _ s.hostData with
        efLen := hl
        efPayload := fits_setLength _ _ _ _ _ h.data.efPayload hl }, { h.control with }⟩
  · exact h

theorem setRxLen_inv (v : Word) (s : State) (h : s.Inv) : (s.setRxLen v).Inv := by
  unfold State.setRxLen
  split
  · next hl =>
    exact ⟨{ h.data.draws _ s.hostData with
        rxLen := hl
        rxBuf := fits_setLength _ _ _ _ _ h.data.rxBuf hl }, { h.control with }⟩
  · exact h

theorem setOwnAddr_inv (v : Word) (s : State) (h : s.Inv) : (s.setOwnAddr v).Inv := by
  unfold State.setOwnAddr
  split
  · next hl => exact ⟨{ h.data with ownAddr := hl }, { h.control with }⟩
  · exact h

/-- In an idle block no running counter is compared with `TIMEOUT` or `RETRIES`. -/
theorem writeIdleReg_inv (n : Nat) (v : Word) (s : State) (h : s.Inv) (hb : s.busy = false) :
    (s.writeIdleReg n v).Inv := by
  have ht := h.control.idle hb
  unfold State.writeIdleReg
  split
  · exact ⟨{ h.data with }, { h.control with }⟩
  · exact ⟨{ h.data with }, { h.control with timer := by simp [ht] }⟩
  · exact ⟨{ h.data with }, { h.control with retryCnt := by simp [ht] }⟩
  · exact setOwnAddr_inv v s h
  · exact setEfHdr_inv v s h
  · exact setRxLen_inv v s h
  · exact h

theorem hostEffect_inv (a : HostAccess) (s t : State) (h : s.Inv) (e : HostEffect s a t) : t.Inv := by
  cases e with
  | readReg n w d => exact ⟨h.data.draws d w, { h.control with }⟩
  | readBuf id i w d => exact ⟨h.data.draws d w, { h.control with }⟩
  | status v => exact ⟨{ h.data with }, { h.control with }⟩
  | refusedReg n v _ _ => exact ⟨h.data.refuseWrite, { h.control with }⟩
  | refusedBuf id i b _ => exact ⟨h.data.refuseWrite, { h.control with }⟩
  | ignoredReg n v => exact h
  | ignoredBuf id i b => exact h
  | command v t hb hi => exact issue_inv v s t h hb hi
  | register n v hb => exact writeIdleReg_inv n v s h hb
  | efPayload i b _ hi =>
    exact ⟨{ h.data with efPayload := fits_put _ _ _ i b h.data.efPayload hi }, { h.control with }⟩
  | rxBuf i b _ hi => exact ⟨{ h.data with rxBuf := fits_put _ _ _ i b h.data.rxBuf hi }, { h.control with }⟩

/-! ### The invariant under a cycle of the core, an arrival and reset -/

theorem cycle_inv (a b c : Bool) (s : State) (h : s.Inv) : (s.takeEvent.withPorts a b c).Inv :=
  ⟨h.data.takeEvent.withPorts a b c, { h.control with }⟩

theorem execHandle_control (s t : State) (h1 : s.textValid = false) (h2 : s.utf8Err = false)
    (e : execHandle s = .next t) : t.ControlInv := by
  unfold execHandle at e
  split at e
  · cases e; exact complete_control _ _ (by simp [h1, h2]) (by simp [h1])
  · cases e; exact complete_control _ _ (by simp [h1, h2]) (by simp [h1])
  · split at e
    · exact serveRequest_control _ _ _ (by simpa using h1) (by simpa using h2) e
    · cases e; exact complete_control _ _ (by simp [h1, h2]) (by simp [h1])

/-- A local command, run while the text flags are 0, completes. -/
theorem exec_local_control (i : Instr) (s t : State) (hl : isLink i = false) (h1 : s.textValid = false)
    (h2 : s.utf8Err = false) (e : exec i s = .next t) : t.ControlInv := by
  cases i with
  | lrc | crc16 | encAscii | encRtu | decAscii | decRtu =>
    cases e; exact complete_control _ _ (by simp [h1, h2]) (by simp [h1])
  | execute | writeText | readText => cases hl
  | handle => exact execHandle_control s t h1 h2 e
  | fcWriteText => exact serveRequest_control s t 0x01 h1 h2 e
  | fcReadText => exact serveRequest_control s t 0x02 h1 h2 e
  | fcException low => cases e; exact respond_control _ _ _ _ h1 h2

/-- A cycle of the sequencer of a link command in progress. -/
theorem exec_link_control (i : Instr) (s t : State) (h : s.ControlInv) (hb : s.busy = true)
    (hc : decodeCmd s.params.hasRd s.curOp.toWord = .ok i) (hl : isLink i = true) (ht : s.teState ≠ .idle)
    (e : exec i s = .next t) : t.ControlInv := by
  obtain ⟨pre, fin, -, hfin, hx⟩ := exec_link i (isLink_cases i hl)
  rw [hx] at e
  cases e
  refine linkStep_control i hl pre fin ?_ s (linking_of_inv i s h hb hc hl) h ht
  rcases hfin with ⟨-, hf⟩ | ⟨-, hf⟩
  · exact .inr hf
  · exact .inl hf

theorem resetBlock_inv (s : State) (h : s.params.wf) : s.resetBlock.Inv :=
  ⟨{ ofReset_data s.params h with textUtf8 := .inl rfl }, { ofReset_control s.params with }⟩

/-- Settles O56, by the event of the step and, in a cycle of a busy block, by the kind of the command in progress. -/
theorem stepKeepsInvariant : Obligations.StepKeepsInvariant := by
  unfold Obligations.StepKeepsInvariant
  intro s t h e
  rcases step_cases s t h.control e with ⟨a, -, hx⟩ | ⟨a, b, c, -, -, rfl⟩ | ⟨a, b, c, i, -, hb, -, hl, -, hx⟩ |
      ⟨a, b, c, i, -, hb, hc, hl, ht, hx⟩ | ⟨b, -, rfl⟩ | ⟨-, rfl⟩
  · have hs : s.takeEvent.Inv := ⟨h.data.takeEvent, { h.control with }⟩
    exact hostEffect_inv a _ t hs (hostAccess_effect a _ t hx)
  · exact cycle_inv a b c s h
  · have hs := cycle_inv a b c s h
    obtain ⟨h1, h2⟩ := busy_noText _ hs.control hb
    exact ⟨exec_data i _ t hs.data hx, exec_local_control i _ t hl h1 h2 hx⟩
  · have hs := cycle_inv a b c s h
    exact ⟨exec_data i _ t hs.data hx, exec_link_control i _ t hs.control hb hc hl ht hx⟩
  · exact ⟨{ h.data with }, { h.control with }⟩
  · exact resetBlock_inv _ h.data.params

end Sys2Proof.Machine
end

section
/-! Proofs of the state family, part two: the request of a transaction and what has been sent of it. -/

namespace Sys2Proof.Machine

/-! ### The request of a transaction (rules R87, R212) -/

/-- `t` has the frame in EF, the encoding and the parameters of `s`: what the request is made of. -/
structure SameEf (s t : State) : Prop where
  params : t.params = s.params
  mode : t.mode = s.mode
  efAddr : t.efAddr = s.efAddr
  efFc : t.efFc = s.efFc
  efLen : t.efLen = s.efLen
  efPayload : t.efPayload = s.efPayload

/-- The bytes of EF all have values, so the request does not depend on the draws. -/
theorem SameEf.request {s t : State} (h : SameEf s t) (hs : s.DataInv) : t.request = s.request := by
  have hb : t.efBytes = s.efBytes := by
    unfold State.efBytes
    rw [h.efLen]
    exact read_congr _ _ _ _ _ hs.efPayload.2.2 fun _ _ => by rw [h.efPayload]
  simp only [State.request, h.params, h.mode, h.efAddr, h.efFc, hb]

/-- The bytes of `TXBUF` below `TX_LEN` all have values. -/
theorem txBytes_congr (s t : State) (hs : s.DataInv) (hb : t.txBuf = s.txBuf) (hl : t.txLen = s.txLen) :
    t.txBytes = s.txBytes := by
  unfold State.txBytes
  rw [hl]
  exact read_congr _ _ _ _ _ hs.txBuf.2.2 fun _ _ => by rw [hb]

/-- The byte on offer in `SEND` is the next byte of what is in `TXBUF`. -/
theorem txBytes_getElem? (s : State) (hs : s.DataInv) (hp : s.txPtr.toNat < s.txLen.toNat) :
    s.txBytes[s.txPtr.toNat]? = some s.txNext := by
  obtain ⟨b, hb⟩ := Option.isSome_iff_exists.1 (hs.txBuf.2.2 _ hp)
  rw [State.txNext, hb]
  exact read_getElem? _ _ _ _ b hp hb

theorem txBytes_length (s : State) : s.txBytes.length = s.txLen.toNat := by simp [State.txBytes]

/-! ### Outside `SEND` only whole copies have been sent -/

theorem sent_of_not_send (base : List Byte) (s : State) (ht : s.teState ≠ .send) :
    s.Sent base ↔ s.txStream = base ++ (List.replicate s.attempts.toNat s.request).flatten := by
  simp [State.Sent, State.wholeWrites, ht]

theorem sent_of_send (base : List Byte) (s : State) (ht : s.teState = .send) :
    s.Sent base ↔
      s.txStream = base ++ (List.replicate (s.attempts.toNat - 1) s.request).flatten
          ++ s.request.take s.txPtr.toNat ∧
        s.txBytes = s.request := by
  simp [State.Sent, State.wholeWrites, ht]

theorem sent_congr (base : List Byte) (s t : State) (hs : s.DataInv) (hf : SameEf s t) (ht : t.teState = s.teState)
    (ha : t.attempts = s.attempts) (hp : t.txPtr = s.txPtr) (hb : t.txBuf = s.txBuf) (hl : t.txLen = s.txLen)
    (hx : t.txStream = s.txStream) (h : s.Sent base) : t.Sent base := by
  unfold State.Sent State.wholeWrites at *
  rwa [hf.request hs, txBytes_congr s t hs hb hl, ht, ha, hp, hx]

/-! ### One cycle of a link command -/

theorem linkBuild_sent (base : List Byte) (s : State) (hs : s.DataInv) (ha : s.attempts.toNat < 256)
    (ht : s.teState = .build) (h : s.Sent base) : (linkBuild s).Sent base ∧ SameEf s (linkBuild s) := by
  have hf : SameEf s (linkBuild s) := by constructor <;> simp [linkBuild]
  refine ⟨?_, hf⟩
  have hl : 9 + 2 * s.efBytes.length < 65536 := by
    have := efBytes_fit s hs
    have := hs.params
    omega
  have hn : (linkBuild s).attempts.toNat - 1 = s.attempts.toNat := by
    show (s.attempts + 1).toNat - 1 = _
    rw [BitVec.toNat_add]; simp; omega
  rw [sent_of_not_send base s (by simp [ht])] at h
  rw [sent_of_send base _ rfl, hf.request hs, hn]
  refine ⟨?_, (buildFrame_bytes s.mode s.efAddr s.efFc s.efBytes s hl).2⟩
  simpa [linkBuild] using h

theorem sendByte_sent (base : List Byte) (s : State) (hs : s.DataInv) (ht : s.teState = .send)
    (hp : s.txPtr.toNat < s.txLen.toNat) (h : s.Sent base) : (sendByte s).Sent base := by
  have hf : SameEf s (sendByte s) := ⟨rfl, rfl, rfl, rfl, rfl, rfl⟩
  have h1 : (s.txPtr + 1).toNat = s.txPtr.toNat + 1 := by
    have := s.txLen.isLt
    rw [BitVec.toNat_add]; simp; omega
  obtain ⟨hx, hb⟩ := (sent_of_send base s ht).1 h
  have hn := txBytes_getElem? s hs hp
  rw [hb] at hn
  rw [sent_of_send base (sendByte s) ht, hf.request hs]
  refine ⟨?_, hb⟩
  simp only [sendByte, h1, List.take_add_one, hn, hx, Option.toList_some, List.append_assoc]

/-- The window opens when the copy in progress is whole. -/
theorem openWindow_sent (base : List Byte) (s : State) (hs : s.DataInv) (ht : s.teState = .send)
    (ha : 0 < s.attempts.toNat) (hp : s.txPtr = s.txLen) (h : s.Sent base) : (openWindow s).Sent base := by
  have hf : SameEf s (openWindow s) := ⟨rfl, rfl, rfl, rfl, rfl, rfl⟩
  obtain ⟨hx, hb⟩ := (sent_of_send base s ht).1 h
  have hlen : s.request.length = s.txPtr.toNat := by rw [← hb, txBytes_length, hp]
  obtain ⟨n, hn⟩ : ∃ n, s.attempts.toNat = n + 1 := ⟨_, (Nat.succ_pred_eq_of_pos ha).symm⟩
  rw [hn, ← hlen, List.take_length] at hx
  rw [sent_of_not_send base _ (by simp [openWindow]), hf.request hs]
  simp only [openWindow, hn, List.replicate_succ', List.flatten_append, List.flatten_singleton, hx,
    Nat.add_sub_cancel, List.append_assoc]

theorem linkSend_sent (base : List Byte) (s : State) (hs : s.Inv) (ht : s.teState = .send) (h : s.Sent base) :
    (linkSend s).Sent base ∧ SameEf s (linkSend s) := by
  have hle := hs.control.txPtr ht
  have ha := hs.control.attemptsRun (.inl ht)
  unfold linkSend
  split
  · next hp =>
    split
    · exact ⟨sendByte_sent base s hs.data ht hp h, rfl, rfl, rfl, rfl, rfl, rfl⟩
    · exact ⟨h, rfl, rfl, rfl, rfl, rfl, rfl⟩
  · next hp =>
    have he : s.txPtr = s.txLen := BitVec.eq_of_toNat_eq (by rw [BitVec.lt_def] at hp; omega)
    exact ⟨openWindow_sent base s hs.data ht (by omega) he h, rfl, rfl, rfl, rfl, rfl, rfl⟩

/-- `WAIT` changes the receive side, the timer and the sequencer. -/
theorem linkWait_eq (s : State) :
    ∃ buf n str tm te, (te = s.teState ∨ te = .check) ∧
      linkWait s = { s with rxBuf := buf, rxLen := n, rxStream := str, timer := tm, teState := te } := by
  unfold linkWait
  split
  · obtain ⟨buf, n, str, e⟩ := takeByte_eq s
    rw [countTick_eq, e]
    exact ⟨buf, n, str, _, _, .inl rfl, rfl⟩
  · rw [countTick_eq]
    exact ⟨s.rxBuf, s.rxLen, s.rxStream, _, _, .inr rfl, rfl⟩

theorem linkWait_sent (base : List Byte) (s : State) (hs : s.DataInv) (ht : s.teState = .wait) (h : s.Sent base) :
    (linkWait s).Sent base ∧ SameEf s (linkWait s) := by
  obtain ⟨buf, n, str, tm, te, hte, e⟩ := linkWait_eq s
  have hf : SameEf s (linkWait s) := by rw [e]; exact ⟨rfl, rfl, rfl, rfl, rfl, rfl⟩
  refine ⟨?_, hf⟩
  rw [sent_of_not_send base s (by simp [ht])] at h
  rw [sent_of_not_send base _ (by rw [e]; rcases hte with rfl | rfl <;> simp [ht]), hf.request hs, e]
  exact h

/-- What `CHECK` leaves alone: the request, what was sent and received, the count of attempts, `OVR` and the store. -/
structure CheckKeeps (s t : State) : Prop extends SameEf s t where
  attempts : t.attempts = s.attempts
  txStream : t.txStream = s.txStream
  rxStream : t.rxStream = s.rxStream
  ovr : t.ovr = s.ovr
  text : t.text = s.text
  textLen : t.textLen = s.textLen

theorem CheckKeeps.trans {s t u : State} (h : CheckKeeps s t) (k : CheckKeeps t u) : CheckKeeps s u where
  params := k.params.trans h.params
  mode := k.mode.trans h.mode
  efAddr := k.efAddr.trans h.efAddr
  efFc := k.efFc.trans h.efFc
  efLen := k.efLen.trans h.efLen
  efPayload := k.efPayload.trans h.efPayload
  attempts := k.attempts.trans h.attempts
  txStream := k.txStream.trans h.txStream
  rxStream := k.rxStream.trans h.rxStream
  ovr := k.ovr.trans h.ovr
  text := k.text.trans h.text
  textLen := k.textLen.trans h.textLen

theorem receive_keeps (m : Encoding) (b : List Byte) (s : State) : CheckKeeps s (s.receive m b) :=
  ⟨by constructor <;> simp, by simp, by simp, by simp, by simp, by simp, by simp⟩

theorem linkFail_keeps (c : Cause) (s : State) : CheckKeeps s (linkFail c s) ∧ (linkFail c s).teState ≠ .send := by
  unfold linkFail
  split <;> exact ⟨⟨⟨rfl, rfl, rfl, rfl, rfl, rfl⟩, rfl, rfl, rfl, rfl, rfl, rfl⟩, by simp⟩

/-- `CHECK` completes the command or goes back to `BUILD`. -/
theorem linkCheck_keeps (fin : State → State) (hfin : fin = id ∨ fin = State.setTextFlags) (s : State) :
    CheckKeeps s (linkCheck fin s) ∧ (linkCheck fin s).teState ≠ .send := by
  have hr := receive_keeps s.mode s.rxBytes s
  have hbad c : CheckKeeps s (linkFail c (s.receive s.mode s.rxBytes)) ∧
      (linkFail c (s.receive s.mode s.rxBytes)).teState ≠ .send :=
    ⟨hr.trans (linkFail_keeps c _).1, (linkFail_keeps c _).2⟩
  unfold linkCheck
  split
  · exact linkFail_keeps _ _
  · split
    · refine ⟨hr.trans ?_, by simp⟩
      rcases hfin with rfl | rfl <;>
        exact ⟨⟨rfl, rfl, rfl, rfl, rfl, rfl⟩, rfl, rfl, rfl, rfl, rfl, rfl⟩
    · exact hbad _
    · exact hbad _

theorem linkCheck_sent (base : List Byte) (fin : State → State) (hfin : fin = id ∨ fin = State.setTextFlags)
    (s : State) (hs : s.DataInv) (ht : s.teState = .check) (h : s.Sent base) :
    (linkCheck fin s).Sent base ∧ SameEf s (linkCheck fin s) := by
  obtain ⟨hk, hte⟩ := linkCheck_keeps fin hfin s
  refine ⟨?_, hk.toSameEf⟩
  rw [sent_of_not_send base s (by simp [ht])] at h
  rwa [sent_of_not_send base _ hte, hk.toSameEf.request hs, hk.attempts, hk.txStream]

/-- The five states of the sequencer: the transmit stream stays whole copies and a part of the next. -/
theorem linkStep_sent (base : List Byte) (pre fin : State → State) (hfin : fin = id ∨ fin = State.setTextFlags)
    (s : State) (hs : s.Inv) (ht : s.teState ≠ .idle) (h : s.Sent base) :
    (linkStep pre fin s).Sent base ∧ SameEf s (linkStep pre fin s) := by
  cases hte : s.teState with
  | idle => exact absurd hte ht
  | build =>
    have ha := hs.control.attemptsBuild hte
    have := s.retryCnt.isLt
    rw [linkStep_build _ _ _ hte]
    exact linkBuild_sent base s hs.data (by omega) hte h
  | send => rw [linkStep_send _ _ _ hte]; exact linkSend_sent base s hs hte h
  | wait => rw [linkStep_wait _ _ _ hte]; exact linkWait_sent base s hs.data hte h
  | check => rw [linkStep_check _ _ _ hte]; exact linkCheck_sent base fin hfin s hs.data hte h

/-! ### Acceptance and the events of a transaction -/

theorem decodeCmd_encode_link (i : Instr) (hi : i = .execute ∨ i = .writeText ∨ i = .readText) (r : Bool) :
    decodeCmd r (encode i) = .ok i ∧ isLink i = true := by
  rcases hi with rfl | rfl | rfl <;> cases r <;> decide

theorem writeReg_cmd (w : Word) (s : State) (hb : s.busy = false) : hostAccess (.writeReg 0 w) s = issue w s := by
  simp [hostAccess, writeReg, State.hasRegister, hb]

theorem accept_request (i : Instr) (w : Byte) (d : Bool) (s : State) :
    (linkStart (State.prepared i) (s.accept w d)).request = (s.prepared i).request := by
  have hr : ∀ u v : State, u.params = v.params → u.mode = v.mode → u.efAddr = v.efAddr → u.efFc = v.efFc →
      u.efBytes = v.efBytes → u.request = v.request := by
    intro u v h1 h2 h3 h4 h5
    simp only [State.request, h1, h2, h3, h4, h5]
  have hb := (accept_bytes w d s).2.2.1
  cases i with
  | readText => exact hr _ _ rfl rfl rfl rfl rfl
  | _ => exact hr _ _ rfl rfl rfl rfl hb

theorem accepted_sent (i : Instr) (w : Byte) (d : Bool) (s : State) :
    (linkStart (State.prepared i) (s.accept w d)).Sent s.txStream := by
  rw [sent_of_not_send _ _ (by simp [linkStart])]
  cases i <;> simp [linkStart, State.prepared, prepareWriteText, prepareReadText]

/-- While `BUSY = 1` a host access changes only `OVR`, the value returned and the count of draws (rules R27, R80). -/
theorem hostEffect_busy (a : HostAccess) (s t : State) (hb : s.busy = true) (e : HostEffect s a t) :
    ∃ o w d, t = { s with ovr := o, hostData := w, draws := d } := by
  cases e with
  | readReg n w d => exact ⟨_, w, d, rfl⟩
  | readBuf id i w d => exact ⟨_, w, d, rfl⟩
  | status v => exact ⟨_, _, _, rfl⟩
  | refusedReg n v _ _ => exact ⟨_, _, _, rfl⟩
  | refusedBuf id i b _ => exact ⟨_, _, _, rfl⟩
  | ignoredReg n v => exact ⟨_, _, _, rfl⟩
  | ignoredBuf id i b => exact ⟨_, _, _, rfl⟩
  | command v t hi _ => rw [hb] at hi; cases hi
  | register n v hi => rw [hb] at hi; cases hi
  | efPayload i b hi _ => rw [hb] at hi; cases hi
  | rxBuf i b hi _ => rw [hb] at hi; cases hi

/-- Settles O42: acceptance has sent nothing yet, and each event of a block whose sequencer runs keeps the form. -/
theorem everyAttemptSendsTheRequest : Obligations.EveryAttemptSendsTheRequest := by
  unfold Obligations.EveryAttemptSendsTheRequest
  constructor
  · intro s t i hi h hb e
    obtain ⟨hd, hl⟩ := decodeCmd_encode_link i hi s.params.hasRd
    rw [writeReg_cmd _ s hb, issue_link _ s i hd hl, exec_link_accepted i _ _ s hi (h.control.idle hb)] at e
    cases e
    exact ⟨accepted_sent i _ _ s, accept_request i _ _ s⟩
  · intro s t base h hb hte hsent hne e
    suffices t.Sent base ∧ SameEf s t from ⟨this.1, this.2.request h.data⟩
    rcases step_cases s t h.control e with ⟨a, -, hx⟩ | ⟨a, b, c, -, hidle, -⟩ | ⟨a, b, c, i, -, -, -, -, hi, -⟩ |
        ⟨a, b, c, i, -, -, hc, hl, ht, hx⟩ | ⟨b, -, rfl⟩ | ⟨hr, -⟩
    · obtain ⟨o, w, d, rfl⟩ := hostEffect_busy a s.takeEvent t hb (hostAccess_effect a _ t hx)
      have hf : SameEf s { s.takeEvent with ovr := o, hostData := w, draws := d } := ⟨rfl, rfl, rfl, rfl, rfl, rfl⟩
      exact ⟨sent_congr base s _ h.data hf rfl rfl rfl rfl rfl rfl hsent, hf⟩
    · rw [hb] at hidle; cases hidle
    · exact absurd hi hte
    · obtain ⟨pre, fin, -, hfin, hlink⟩ := exec_link i (isLink_cases i hl)
      rw [hlink] at hx
      cases hx
      have hu : (s.takeEvent.withPorts a b c).Sent base :=
        sent_congr base s _ h.data ⟨rfl, rfl, rfl, rfl, rfl, rfl⟩ rfl rfl rfl rfl rfl rfl hsent
      obtain ⟨h1, h2⟩ := linkStep_sent base pre fin (by tauto) _ (cycle_inv a b c s h) ht hu
      exact ⟨h1, ⟨h2.params, h2.mode, h2.efAddr, h2.efFc, h2.efLen, h2.efPayload⟩⟩
    · have hf : SameEf s { s.takeEvent with rxStream := s.rxStream ++ [b] } := ⟨rfl, rfl, rfl, rfl, rfl, rfl⟩
      exact ⟨sent_congr base s _ h.data hf rfl rfl rfl rfl rfl rfl hsent, hf⟩
    · exact absurd hr hne

end Sys2Proof.Machine
end

section
/-! Proofs of the state family, part three: the host's registers and buffers. -/

namespace Sys2Proof.Machine

/-! ### The access that the host makes (rules R23, R27, R38) -/

theorem hasRegister_iff (s : State) (n : Nat) :
    s.hasRegister n = true ↔ n ≤ 11 ∧ (s.params.hasRd = true ∨ (n ≠ 5 ∧ n ≠ 11)) := by
  simp [State.hasRegister]

theorem hasBuffer_iff (s : State) (id : Nat) :
    s.hasBuffer id = true ↔ id ≤ 4 ∧ (s.params.hasRd = true ∨ id ≠ 4) := by
  simp only [State.hasBuffer, Bool.or_eq_true, Bool.and_eq_true, decide_eq_true_eq, beq_iff_eq]
  by_cases hr : s.params.hasRd = true
  · simp only [hr, true_and, true_or, and_true]; omega
  · simp only [hr, Bool.false_eq_true, false_and, false_or, or_false]; omega

theorem readReg_absent (n : Nat) (s : State) (h : s.hasRegister n = false) :
    hostAccess (.readReg n) s = .next { s with hostData := 0 } := by
  rw [hostAccess, State.readReg, if_pos h]; rfl

theorem writeReg_absent (n : Nat) (v : Word) (s : State) (h : s.hasRegister n = false) :
    hostAccess (.writeReg n v) s = .next s := by
  rw [hostAccess, writeReg, if_pos h]

theorem readReg_value (n : Nat) (w : Word) (s : State) (h : s.hasRegister n = true) (hb : s.busy = false ∨ n = 1)
    (hv : s.regValue n = some w) : hostAccess (.readReg n) s = .next { s with hostData := w } := by
  rw [hostAccess, State.readReg, if_neg (by simp [h]), if_neg (by rintro ⟨hb', hn⟩; simp_all), hv]
  rfl

theorem readReg_unspecified (n : Nat) (s : State) (h : s.hasRegister n = true)
    (hv : s.busy = true ∧ n ≠ 1 ∨ s.regValue n = none) :
    hostAccess (.readReg n) s = .next { s with hostData := Config.freeWord s.draws, draws := s.draws + 1 } := by
  rw [hostAccess, State.readReg, if_neg (by simp [h])]
  split
  · rfl
  · next hb => rw [hv.resolve_left hb]; rfl

theorem writeReg_status (v : Word) (s : State) : hostAccess (.writeReg 1 v) s = .next (s.writeStatus v) := by
  rw [hostAccess, writeReg, if_neg (by simp [(hasRegister_iff s 1).2]), if_pos rfl]

theorem writeReg_busy (n : Nat) (v : Word) (s : State) (h : s.hasRegister n = true) (hn : n ≠ 1)
    (hb : s.busy = true) : hostAccess (.writeReg n v) s = .next { s with ovr := true } := by
  rw [hostAccess, writeReg, if_neg (by simp [h]), if_neg hn, if_pos hb]; rfl

theorem writeReg_idle (n : Nat) (v : Word) (s : State) (h : s.hasRegister n = true) (h0 : n ≠ 0) (h1 : n ≠ 1)
    (hb : s.busy = false) : hostAccess (.writeReg n v) s = .next (s.writeIdleReg n v) := by
  rw [hostAccess, writeReg, if_neg (by simp [h]), if_neg h1, if_neg (by simp [hb]), if_neg h0]

theorem writeBuf_busy (id i : Nat) (b : Byte) (s : State) (h : s.hasBuffer id = true) (hb : s.busy = true) :
    hostAccess (.writeBuf id i b) s = .next { s with ovr := true } := by
  rw [hostAccess]
  unfold State.writeBuf
  rw [if_neg (by simp [h]), if_pos hb]; rfl

theorem readBuf_unspecified (id i : Nat) (s : State) (h : s.busy = true ∨ s.validLength id ≤ i) :
    hostAccess (.readBuf id i) s
      = .next { s with hostData := (Config.freeByte s.draws).toWord, draws := s.draws + 1 } := by
  rw [hostAccess, State.readBuf, if_pos h]; rfl

theorem writeBuf_efPayload (i : Nat) (b : Byte) (s : State) (hb : s.busy = false) (hi : i < s.capacity 0) :
    hostAccess (.writeBuf 0 i b) s = .next { s with efPayload := s.efPayload.put i b } := by
  rw [hostAccess]
  unfold State.writeBuf
  rw [if_neg (by simp [(hasBuffer_iff s 0).2]), if_neg (by simp [hb]), if_neg (Nat.not_le.2 hi)]; rfl

theorem writeBuf_rxBuf (i : Nat) (b : Byte) (s : State) (hb : s.busy = false) (hi : i < s.capacity 2) :
    hostAccess (.writeBuf 2 i b) s = .next { s with rxBuf := s.rxBuf.put i b } := by
  rw [hostAccess]
  unfold State.writeBuf
  rw [if_neg (by simp [(hasBuffer_iff s 2).2]), if_neg (by simp [hb]), if_neg (Nat.not_le.2 hi)]; rfl

/-- An idle block ignores a write to the buffers that the host does not write, and beyond a capacity. -/
theorem writeBuf_ignored (id i : Nat) (b : Byte) (s : State) (hb : s.busy = false)
    (h : id = 1 ∨ 3 ≤ id ∨ s.capacity id ≤ i) : hostAccess (.writeBuf id i b) s = .next s := by
  have e := writeBuf_effect id i b s
  rw [hostAccess]
  generalize s.writeBuf id i b = t at e
  cases e with
  | refusedBuf _ _ _ hbusy => rw [hb] at hbusy; cases hbusy
  | ignoredBuf => rfl
  | efPayload _ _ _ hi => simp only [State.capacity] at h; omega
  | rxBuf _ _ _ hi => simp only [State.capacity] at h; omega

/-! ### Reads -/

/-- A header register: the fields side by side are the fields shifted to their places. -/
theorem header_fields (len : Half) (fc addr : Byte) :
    (len ++ fc ++ addr : Word) = addr.setWidth 32 ||| (fc.setWidth 32 <<< 8) ||| (len.setWidth 32 <<< 16) := by
  refine BitVec.eq_of_getLsbD_eq fun i hi => ?_
  refine BitVec.getLsbD_append.trans ?_
  rw [BitVec.getLsbD_append]
  simp only [BitVec.getLsbD_or, BitVec.getLsbD_setWidth, BitVec.getLsbD_shiftLeft]
  obtain h | ⟨h, h'⟩ | h : i < 8 ∨ (8 ≤ i ∧ i < 16) ∨ 16 ≤ i := by omega
  · simp [h, hi, show i < 16 by omega]
  · simp [h', hi, show ¬i < 8 by omega, show i - 8 < 8 by omega, BitVec.getLsbD_of_ge addr i h]
    omega
  · simp [hi, show ¬i < 8 by omega, show ¬i - 8 < 8 by omega, show ¬i < 16 by omega, Nat.sub_sub,
      BitVec.getLsbD_of_ge addr i (by omega), BitVec.getLsbD_of_ge fc (i - 8) (by omega)]
    omega

theorem mode_word (m : Encoding) : m.code.setWidth 32 = (if m = .rtu then 1 else 0 : Word) := by
  cases m <;> rfl

/-- Settles O13, register by register. -/
theorem registerReads : Obligations.RegisterReads := by
  unfold Obligations.RegisterReads
  intro s hb
  have hv (n : Nat) (w : Word) (hn : n ≤ 11 ∧ (s.params.hasRd = true ∨ (n ≠ 5 ∧ n ≠ 11)))
      (hv : s.regValue n = some w) :=
    readReg_value n w s ((hasRegister_iff s n).2 hn) (.inl hb) hv
  refine ⟨hv 0 _ (by simp) rfl, hv 1 _ (by simp) rfl, hv 2 _ (by simp) (congrArg some (mode_word s.mode)),
    hv 3 _ (by simp) rfl, hv 4 _ (by simp) rfl, fun hr => hv 5 _ (by simp [hr]) rfl,
    hv 6 _ (by simp) (congrArg some (header_fields _ _ _)), fun hd => hv 7 _ (by simp) ?_, fun hd => ?_,
    hv 8 _ (by simp) rfl, hv 9 _ (by simp) rfl, hv 10 _ (by simp) rfl, fun hr => hv 11 _ (by simp [hr]) rfl⟩
  · rw [State.regValue, if_pos hd]
    exact congrArg some (header_fields _ _ _)
  · exact readReg_unspecified 7 s ((hasRegister_iff s 7).2 (by simp)) (.inr (by simp [State.regValue, hd]))

/-- Fields put side by side are read back from their places: drop the fields below, then take the lowest one. -/
theorem append_fields (z : BitVec 4) (st : BitVec 3) (n : BitVec 9) (z' : BitVec 4) (o u t v e : Bool)
    (c : BitVec 2) (r : BitVec 3) (d b : Bool) :
    let w := z ++ st ++ n ++ z' ++ BitVec.ofBool o ++ BitVec.ofBool u ++ BitVec.ofBool t ++ BitVec.ofBool v
      ++ BitVec.ofBool e ++ c ++ r ++ BitVec.ofBool d ++ BitVec.ofBool b
    w.getLsbD 0 = b ∧ w.getLsbD 1 = d ∧ w.extractLsb' 2 3 = r ∧ w.extractLsb' 5 2 = c ∧ w.getLsbD 7 = e ∧
      w.getLsbD 8 = v ∧ w.getLsbD 9 = t ∧ w.getLsbD 10 = u ∧ w.getLsbD 11 = o ∧ w.extractLsb' 12 4 = z' ∧
      w.extractLsb' 16 9 = n ∧ w.extractLsb' 25 3 = st ∧ w.extractLsb' 28 4 = z := by
  simp only [BitVec.getLsbD_append]
  refine ⟨by simp, by simp, ?_, ?_, by simp, by simp, by simp, by simp, by simp, ?_, ?_, ?_, ?_⟩
  · iterate 2 rw [BitVec.extractLsb'_append_eq_of_le (by decide)]
    exact BitVec.extractLsb'_append_eq_right
  · iterate 3 rw [BitVec.extractLsb'_append_eq_of_le (by decide)]
    exact BitVec.extractLsb'_append_eq_right
  · iterate 9 rw [BitVec.extractLsb'_append_eq_of_le (by decide)]
    exact BitVec.extractLsb'_append_eq_right
  · iterate 10 rw [BitVec.extractLsb'_append_eq_of_le (by decide)]
    exact BitVec.extractLsb'_append_eq_right
  · iterate 11 rw [BitVec.extractLsb'_append_eq_of_le (by decide)]
    exact BitVec.extractLsb'_append_eq_right
  · iterate 12 rw [BitVec.extractLsb'_append_eq_of_le (by decide)]
    exact BitVec.extractLsb'_eq_self

/-- Settles O12, from the places of the fields; the codes are the tables'. -/
theorem statusFields : Obligations.StatusFields := by
  unfold Obligations.StatusFields
  exact ⟨fun s => append_fields _ _ _ _ _ _ _ _ _ _ _ _ _, rfl, rfl, rfl⟩

/-! ### Writes -/

/-- Settles O15, from the two cases of a register access that come before `BUSY` is looked at. -/
theorem statusWritesAndAbsentRegisters : Obligations.StatusWritesAndAbsentRegisters := by
  unfold Obligations.StatusWritesAndAbsentRegisters
  refine fun s => ⟨fun v => ?_, fun n v hn => ?_⟩
  · rw [writeReg_status, State.writeStatus]
    cases v.getLsbD 11 <;> simp
  · have h : s.hasRegister n = false := by
      rw [← Bool.not_eq_true, hasRegister_iff]
      rintro ⟨h11, hr⟩
      rcases hn with hn | ⟨hd, hn⟩
      · omega
      · rw [hd] at hr
        simp at hr; omega
    exact ⟨readReg_absent n s h, writeReg_absent n v s h⟩

/-- Settles O10, from the accesses of a busy block. -/
theorem busyLock : Obligations.BusyLock := by
  unfold Obligations.BusyLock
  refine fun s hb => ⟨fun n v h11 hr h1 => ?_, fun id i b h4 hr _ => ?_, ?_⟩
  · have h := (hasRegister_iff s n).2 ⟨h11, hr⟩
    exact ⟨writeReg_busy n v s h h1 hb, readReg_unspecified n s h (.inl ⟨hb, h1⟩)⟩
  · exact ⟨writeBuf_busy id i b s ((hasBuffer_iff s id).2 ⟨h4, hr⟩) hb, readBuf_unspecified id i s (.inl hb)⟩
  · exact readReg_value 1 _ s ((hasRegister_iff s 1).2 (by simp)) (.inr rfl) rfl

/-- A legal `LEN` written to `EF_HDR`. -/
theorem setEfHdr_legal (v : Word) (s : State) (h : (v.extractLsb' 16 16).toNat ≤ s.params.payloadMax) :
    s.setEfHdr v = { s with
      efAddr := v.extractLsb' 0 8, efFc := v.extractLsb' 8 8, efLen := v.extractLsb' 16 16,
      efPayload := s.efPayload.setLength s.draws (v.extractLsb' 16 16).toNat,
      draws := s.draws + (v.extractLsb' 16 16).toNat } := if_pos h

/-- A legal `RX_LEN`. -/
theorem setRxLen_legal (v : Word) (s : State) (h : (v.setWidth 16).toNat ≤ s.params.rxMax) :
    s.setRxLen v = { s with
      rxLen := v.setWidth 16, rxBuf := s.rxBuf.setLength s.draws (v.setWidth 16).toNat,
      draws := s.draws + (v.setWidth 16).toNat } := if_pos h

/-- Settles O14, register by register. -/
theorem registerWrites : Obligations.RegisterWrites := by
  unfold Obligations.RegisterWrites
  intro s v hb
  have hw (n : Nat) (hn : n ≤ 11 ∧ (s.params.hasRd = true ∨ (n ≠ 5 ∧ n ≠ 11))) (h0 : n ≠ 0) (h1 : n ≠ 1) :=
    writeReg_idle n v s ((hasRegister_iff s n).2 hn) h0 h1 hb
  have hrx : (v.setWidth 16).toNat = v.toNat % 65536 := BitVec.toNat_setWidth ..
  refine ⟨hw 2 (by simp) (by simp) (by simp), hw 3 (by simp) (by simp) (by simp),
    hw 4 (by simp) (by simp) (by simp), fun hr => ?_, fun h => ?_, fun h => ?_, fun h => ?_, fun h => ?_,
    fun n hn => ?_⟩
  · have h8 : (v.setWidth 8).toNat = v.toNat % 256 := BitVec.toNat_setWidth ..
    rw [hw 5 (by simp [hr]) (by simp) (by simp), ← h8]; rfl
  · rw [hw 6 (by simp) (by simp) (by simp)]
    exact congrArg _ (if_neg (Nat.not_le.2 h))
  · refine ⟨_, (hw 6 (by simp) (by simp) (by simp)).trans (congrArg _ (setEfHdr_legal v s h)), rfl, ?_, ?_⟩
    · exact fun i b hi hbyte => byteAt?_setLength_of_some _ _ _ i b hi hbyte
    · exact fun i => isSome_setLength _ _ _ i
  · rw [hw 10 (by simp) (by simp) (by simp)]
    exact congrArg _ (if_neg (by omega))
  · refine ⟨_, (hw 10 (by simp) (by simp) (by simp)).trans (congrArg _ (setRxLen_legal v s (by omega))), rfl, ?_, ?_⟩
    · exact fun i b hi hbyte => byteAt?_setLength_of_some _ _ _ i b hi hbyte
    · exact fun i => isSome_setLength _ _ _ i
  · by_cases hreg : s.hasRegister n = true
    · rw [writeReg_idle n v s hreg (by omega) (by omega) hb]
      rcases hn with rfl | rfl | rfl | rfl <;> rfl
    · exact writeReg_absent n v s (by simpa using hreg)

/-- Settles O16, buffer by buffer. -/
theorem bufferAccess : Obligations.BufferAccess := by
  unfold Obligations.BufferAccess
  intro s hb
  refine ⟨fun i b hi => ⟨_, writeBuf_efPayload i b s hb hi, rfl, byteAt?_put_same _ i b, fun j hj => ?_⟩,
    fun i b hi => ⟨_, writeBuf_rxBuf i b s hb hi, rfl, byteAt?_put_same _ i b, fun j hj => ?_⟩,
    fun id i b h => writeBuf_ignored id i b s hb h, fun id i b hi hbyte => ?_,
    fun id i hi => readBuf_unspecified id i s (.inr hi)⟩
  · exact byteAt?_put_other _ i j b hj
  · exact byteAt?_put_other _ i j b hj
  · rw [hostAccess, State.readBuf, if_neg (by simp [hb]; omega), hbyte]; rfl

end Sys2Proof.Machine
end

section
/-! Proofs of the state family, part four: the issue of a command, and one step by its event. -/

namespace Sys2Proof.Machine

/-! ### The issue of a command (rules R26, R122, R216) -/

/-- Two words with the same fields of rule R118 are equal. -/
theorem word_ext_fields (w v : Word) (hop : w.extractLsb' 0 4 = v.extractLsb' 0 4) (henc : w.getLsbD 4 = v.getLsbD 4)
    (hz : w.extractLsb' 5 3 = v.extractLsb' 5 3) (hh : w.extractLsb' 8 24 = v.extractLsb' 8 24) : w = v := by
  have bit (k n i : Nat) (h : w.extractLsb' k n = v.extractLsb' k n) (hi : i < n) :
      w.getLsbD (k + i) = v.getLsbD (k + i) := by
    simpa [BitVec.getLsbD_extractLsb', hi] using congrArg (fun x => x.getLsbD i) h
  refine BitVec.eq_of_getLsbD_eq fun i hi => ?_
  obtain h | rfl | h | h : i < 4 ∨ i = 4 ∨ (5 ≤ i ∧ i < 8) ∨ 8 ≤ i := by omega
  · simpa using bit 0 4 i hop h
  · exact henc
  · simpa [show 5 + (i - 5) = i by omega] using bit 5 3 (i - 5) hz (by omega)
  · simpa [show 8 + (i - 8) = i by omega] using bit 8 24 (i - 8) hh (by omega)

/-- The operations of no command (rule R122). -/
theorem decodeOp_reserved_iff (r : Bool) (op : Nat) (enc : Bool) :
    (∀ i, decodeOp r op enc ≠ .ok i) ↔
      op = 0 ∨ 9 ≤ op ∨ (enc = true ∧ op ≠ 3 ∧ op ≠ 4) ∨ (op = 8 ∧ enc = false ∧ r = false) := by
  unfold decodeOp
  split
  case h_10 => cases r <;> simp
  case h_11 _ _ h1 h2 h3 h4 h5 h6 h7 h8 h9 h10 =>
    refine iff_of_true (fun i => by split <;> simp) ?_
    cases enc
    · simp only [imp_false, not_true_eq_false] at h1 h2 h3 h5 h7 h8 h9 h10
      omega
    · simp only [imp_false, not_true_eq_false] at h4 h6
      exact .inr (.inr (.inl ⟨rfl, h4, h6⟩))
  all_goals simp

/-- The illegal words, by the fields of rule R118. -/
theorem decodeCmd_illegal_iff (r : Bool) (w : Word) :
    (∀ i, decodeCmd r w ≠ .ok i) ↔
      ((w.extractLsb' 0 4).toNat = 0 ∨ 9 ≤ (w.extractLsb' 0 4).toNat ∨
        (w.getLsbD 4 = true ∧ (w.extractLsb' 0 4).toNat ≠ 3 ∧ (w.extractLsb' 0 4).toNat ≠ 4) ∨
        w.extractLsb' 5 3 ≠ 0 ∨ w.extractLsb' 8 24 ≠ 0 ∨ (w = 0x08 ∧ r = false)) := by
  by_cases hh : w.extractLsb' 8 24 = 0
  · by_cases hz : w.extractLsb' 5 3 = 0
    · have h8 : w = 0x08 ↔ (w.extractLsb' 0 4).toNat = 8 ∧ w.getLsbD 4 = false := by
        constructor
        · rintro rfl; decide
        · rintro ⟨hop, henc⟩
          exact word_ext_fields w 0x08 (BitVec.eq_of_toNat_eq hop) henc hz hh
      rw [decodeCmd, if_neg (by simp [hh]), if_neg (by simp [hz]), decodeOp_reserved_iff, h8]
      simp only [hh, hz, ne_eq, not_true_eq_false, false_or, and_assoc]
    · rw [decodeCmd, if_neg (by simp [hh]), if_pos hz]; exact iff_of_true (by simp) (by tauto)
  · rw [decodeCmd, if_pos hh]; exact iff_of_true (by simp) (by tauto)

/-- Settles O4, from the fields of the word and the issue of an illegal one. -/
theorem illegalCommand : Obligations.IllegalCommand := by
  unfold Obligations.IllegalCommand
  refine ⟨decodeCmd_illegal_iff, fun s w hb h => ?_⟩
  obtain ⟨hef, hrx, -, -⟩ := accept_bytes (w.setWidth 8) false s
  refine ⟨_, (writeReg_cmd w s hb).trans (issue_illegal w s h), ?_, hef, hrx⟩
  apply State.ext <;> simp

/-- Settles O8, from the acceptance of a command that is no link command. -/
theorem localCommandAccepted : Obligations.LocalCommandAccepted := by
  unfold Obligations.LocalCommandAccepted
  intro s w i hb hd h1 h2 h3
  have hl : isLink i = false := by
    rw [← Bool.not_eq_true]
    intro hl
    rcases isLink_cases i hl with h | h | h <;> contradiction
  have hdec : decodesFrame i = decide (i = .decAscii ∨ i = .decRtu ∨ i = .handle) := by
    cases i with
    | execute | writeText | readText => cases hl
    | _ => rfl
  obtain ⟨hef, hrx, -, -⟩ := accept_bytes (w.setWidth 8) (decodesFrame i) s
  refine ⟨_, (writeReg_cmd w s hb).trans (issue_local w s i hd hl), ?_, hef, hrx⟩
  rw [hdec]
  by_cases hi : i = .decAscii ∨ i = .decRtu ∨ i = .handle
  · apply State.ext <;> simp [hi]
  · apply State.ext <;> simp [hi]

/-- Settles O9: acceptance, then what each link command does to EF on the way to `BUILD`. -/
theorem linkCommandAccepted : Obligations.LinkCommandAccepted := by
  unfold Obligations.LinkCommandAccepted
  intro s w fc len hb ht hw
  have hacc (i : Instr) (hi : i = .execute ∨ i = .writeText ∨ i = .readText) (hwi : w = encode i) :
      hostAccess (.writeReg 0 w) s
        = .next (linkStart (State.prepared i) (s.accept (w.setWidth 8) (decodesFrame i))) := by
    obtain ⟨hd, hl⟩ := decodeCmd_encode_link i hi s.params.hasRd
    rw [← hwi] at hd
    rw [writeReg_cmd w s hb, issue_link w s i hd hl, exec_link_accepted i _ _ s hi ht]
  obtain ⟨hef, hrx, -, -⟩ := accept_bytes (w.setWidth 8) true s
  rcases hw with ⟨rfl, rfl, rfl⟩ | ⟨rfl, rfl, rfl⟩ | ⟨rfl, rfl, rfl⟩
  · refine ⟨_, hacc .execute (.inl rfl) rfl, ?_, hef, hrx⟩
    apply State.ext <;> simp [linkStart, State.prepared, decodesFrame]
  · refine ⟨_, hacc .writeText (.inr (.inl rfl)) rfl, ?_, hef, hrx⟩
    apply State.ext <;> simp [linkStart, State.prepared, prepareWriteText, decodesFrame]
  · refine ⟨_, hacc .readText (.inr (.inr rfl)) rfl, ?_, fun j => ?_, hrx⟩
    · apply State.ext <;> simp [linkStart, State.prepared, prepareReadText, decodesFrame]
    · exact (if_neg (by simp)).symm

/-! ### One step by its event (rules R44, R47, R350, R352) -/

theorem step_of_inputs (s : State) (e : Event) (rest : List Event) (h : s.inputs = e :: rest) :
    step s = happen e { s with inputs := rest } := by
  unfold step advance State.nextEvent State.takeEvent
  rw [h]; rfl

theorem step_of_no_inputs (s : State) (h : s.inputs = []) : step s = happen (.cycle false false false) s := by
  have ht : s.takeEvent = s := by
    have hi : s.inputs.tail = s.inputs := by rw [h]; rfl
    unfold State.takeEvent
    rw [hi]
  unfold step advance State.nextEvent
  rw [h, ht]; rfl

theorem coreCycle_busy (s : State) (i : Instr) (hb : s.busy = true)
    (hd : decodeCmd s.params.hasRd s.curOp.toWord = .ok i) : coreCycle s = exec i s := by
  simp only [coreCycle, hb, hd, if_true]

theorem coreCycle_idle (s : State) (hb : s.busy = false) : coreCycle s = .next s := by
  simp only [coreCycle, hb, Bool.false_eq_true, if_false]

/-- Settles O5, from the step of an event and the cycle of a busy block. -/
theorem stepRunsLatchedCommand : Obligations.StepRunsLatchedCommand := by
  unfold Obligations.StepRunsLatchedCommand
  refine fun s i hb hd => ⟨fun a b c rest h => ?_, fun h => ?_⟩
  · rw [step_of_inputs s _ rest h]
    exact coreCycle_busy (State.withPorts a b c { s with inputs := rest }) i hb hd
  · rw [step_of_no_inputs s h]
    exact coreCycle_busy (s.withPorts false false false) i hb hd

/-- Settles O6, from the step of an event. -/
theorem stepOfOtherEvents : Obligations.StepOfOtherEvents := by
  unfold Obligations.StepOfOtherEvents
  refine fun s rest => ⟨fun a h => step_of_inputs s _ rest h, fun b h => step_of_inputs s _ rest h,
    fun a b c hb h => ?_, fun h => step_of_inputs s _ rest h⟩
  rw [step_of_inputs s _ rest h]
  exact coreCycle_idle (State.withPorts a b c { s with inputs := rest }) hb

theorem step_host (s : State) (a : HostAccess) (h : s.nextEvent = .host a) : step s = hostAccess a s.takeEvent := by
  rw [step, advance, h]; rfl

/-- Settles O11, from the effects of a host access. -/
theorem hostCannotDisturb : Obligations.HostCannotDisturb := by
  unfold Obligations.HostCannotDisturb
  intro s t a ha e
  rw [step_host s a ha] at e
  have he := hostAccess_effect a s.takeEvent t e
  refine ⟨fun hread => ?_, fun hb => ?_⟩
  · rcases hread with ⟨n, rfl⟩ | ⟨id, i, rfl⟩
    · cases he; rfl
    · cases he; rfl
  · obtain ⟨o, w, d, rfl⟩ := hostEffect_busy a s.takeEvent t hb he
    rfl

/-- The reset state has no byte in any buffer. -/
theorem resetBlock_byteAt (s : State) (id i : Nat) : s.resetBlock.byteAt id i = none := by
  match id with
  | 0 | 1 | 2 | 3 | _ + 5 => rfl
  | 4 =>
    simp only [State.byteAt, State.buffer]
    cases s.resetBlock.params.hasRd <;> rfl

theorem resetBlock_statusWord (s : State) : s.resetBlock.statusWord = 0 := by
  show (0#4 ++ TeState.idle.code ++ (0 : BitVec 9) ++ 0#4 ++ BitVec.ofBool false ++ BitVec.ofBool false
    ++ BitVec.ofBool false ++ BitVec.ofBool false ++ BitVec.ofBool false ++ Cause.none.code ++ Kind.ok.code
    ++ BitVec.ofBool false ++ BitVec.ofBool false : Word) = 0
  decide

/-- Settles O58, from the reset state. -/
theorem resetValues : Obligations.ResetValues := by
  unfold Obligations.ResetValues
  intro s rest h
  refine ⟨_, step_of_inputs s _ rest h, resetBlock_statusWord _, rfl, rfl, rfl, rfl, rfl, rfl, rfl, rfl, rfl, rfl, rfl,
    resetBlock_byteAt _, rfl, rfl, rfl, rfl, rfl, rfl, rfl, rfl⟩

end Sys2Proof.Machine
end

section
/-! Proofs of the state family, part five: the local commands, `WAIT`, and what a step leaves alone: `OVR`, the store,
the streams of the link; the error kinds. -/

namespace Sys2Proof.Machine

/-! ### The local commands (rules R142, R148, R164, R168, R188, R192) -/

/-- Settles O20: the two commands by evaluation. -/
theorem checksumCommands : Obligations.ChecksumCommands := by
  unfold Obligations.ChecksumCommands
  exact fun s => ⟨rfl, rfl⟩

/-- What an encode command leaves in `TXBUF`. -/
theorem encoded_txBuf (m : Encoding) (s : State) (hw : s.params.wf) (hl : s.efLen.toNat ≤ s.params.payloadMax) :
    let t := (s.buildFrame m s.efAddr s.efFc s.efBytes).complete .ok
    let tx := encodeFrame m s.params.hexUpper s.efAddr s.efFc s.efBytes
    t.txLen.toNat = tx.length ∧ t.txBytes = tx ∧ ∀ i, t.byteAt 1 i = tx[i]? := by
  have hlen : 9 + 2 * s.efBytes.length < 65536 := by rw [efBytes_length]; omega
  obtain ⟨h1, h2⟩ := buildFrame_bytes m s.efAddr s.efFc s.efBytes s hlen
  refine ⟨h1, h2, fun i => ?_⟩
  show Memory.byteAt? ((s.buildFrame m s.efAddr s.efFc s.efBytes).complete .ok).txBuf i = _
  simp

theorem buildFrame_ascii_crcReg (a f : Byte) (p : List Byte) (s : State) :
    (s.buildFrame .ascii a f p).crcReg = s.crcReg := rfl

theorem buildFrame_rtu_lrcAcc (a f : Byte) (p : List Byte) (s : State) :
    (s.buildFrame .rtu a f p).lrcAcc = s.lrcAcc := rfl

/-- Settles O27, from the frame built in `TXBUF` and the lengths of the frames. -/
theorem encodeCommands : Obligations.EncodeCommands := by
  unfold Obligations.EncodeCommands
  intro s hw hl
  constructor
  · obtain ⟨h1, h2, h3⟩ := encoded_txBuf .ascii s hw hl
    rw [encodeFrame, encAscii_length, efBytes_length] at h1
    refine ⟨(s.buildFrame .ascii s.efAddr s.efFc s.efBytes).complete .ok, rfl, ?_, h1, h2, h3⟩
    apply State.ext <;> simp [checksum, Byte.toHalf, buildFrame_ascii_crcReg]
  · obtain ⟨h1, h2, h3⟩ := encoded_txBuf .rtu s hw hl
    rw [encodeFrame, encRtu_length, efBytes_length] at h1
    refine ⟨(s.buildFrame .rtu s.efAddr s.efFc s.efBytes).complete .ok, rfl, ?_, h1, h2, h3⟩
    apply State.ext <;> simp [checksum, buildFrame_rtu_lrcAcc]

theorem exec_decode (s : State) (i : Instr) (m : Encoding)
    (h : (i = .decAscii ∧ m = .ascii) ∨ (i = .decRtu ∧ m = .rtu)) :
    exec i s = .next ((s.receive m s.rxBytes).complete (decodeFrame m s.rxBytes).kind) := by
  rcases h with ⟨rfl, rfl⟩ | ⟨rfl, rfl⟩ <;> rfl

/-- Settles O32, from the write-back of each verdict. -/
theorem decodeCommands : Obligations.DecodeCommands := by
  unfold Obligations.DecodeCommands
  refine fun s i m hi => ⟨fun q hq => ?_, fun k hk => ?_⟩
  · have hlen : q.payload.length < 65536 := by
      have := payload_length_rx m s q hq
      omega
    obtain ⟨h1, h2, h3⟩ := loadDf_bytes (s.noteDecode m s.rxBytes) q.addr q.fc q.payload q.check hlen
    refine ⟨_, exec_decode s i m hi, ?_⟩
    rw [receive_frame m s _ q hq, hq]
    refine ⟨?_, h1, h2, h3⟩
    apply State.ext <;> simp [Verdict.kind]
  · have hbad : ∀ q, decodeFrame m s.rxBytes ≠ .frame q := by
      intro q hq
      rcases hk with ⟨⟨c, hc⟩, -⟩ | ⟨hc, -⟩ <;> simp [hq] at hc
    have hkind : (decodeFrame m s.rxBytes).kind = k := by
      rcases hk with ⟨⟨c, hc⟩, rfl⟩ | ⟨hc, rfl⟩ <;> rw [hc] <;> rfl
    refine ⟨_, exec_decode s i m hi, ?_⟩
    rw [receive_bad m s _ hbad, hkind]
    apply State.ext <;> simp

/-! ### `WAIT` (rules R42, R222) -/

theorem takeByte_some (s : State) (b : Byte) (h : s.rxOffer = some b) :
    takeByte s = { s with
      rxBuf := s.rxBuf.put s.rxLen.toNat b, rxLen := s.rxLen + 1, rxStream := s.rxStream.tail } := by
  rw [takeByte, h]

theorem takeByte_none (s : State) (h : s.rxOffer = none) : takeByte s = s := by rw [takeByte, h]

theorem windowOpen_iff (s : State) :
    s.windowOpen = true ↔ s.rxLen.toNat < s.params.rxMax ∧ s.timer.toNat < s.timeout.toNat := by
  simp [State.windowOpen, BitVec.lt_def]

theorem rxReady_eq (s : State) (ht : s.teState = .wait) : s.rxReady = s.windowOpen := by
  simp [State.rxReady, State.windowOpen, ht]

/-- While the window is open a tick is counted. -/
theorem countTick_open (s : State) (h : s.timer.toNat < s.timeout.toNat) :
    countTick s = { s with timer := if s.tick = true then s.timer + 1 else s.timer } := by
  rw [countTick_eq]
  simp only [h, and_true]

/-- Settles O37: the window open with a byte on offer, open without one, and closed. -/
theorem waitStep : Obligations.WaitStep := by
  unfold Obligations.WaitStep
  intro s i hi ht
  obtain ⟨pre, fin, -, -, hx⟩ := exec_link i hi
  have hwait : exec i s = .next (linkWait s) := by rw [hx, linkStep_wait _ _ _ ht]
  rw [rxReady_eq s ht, hwait]
  refine ⟨fun h => ?_, fun h => ?_⟩
  · have ho := (windowOpen_iff s).2 h
    rw [linkWait, if_pos ho]
    refine ⟨ho, fun b hb => ⟨_, rfl, ?_⟩, fun hb => ?_⟩
    · rw [countTick_open (takeByte s) (by rw [takeByte_some s b hb]; exact h.2), takeByte_some s b hb]
      exact ⟨rfl, byteAt?_put_same _ _ b, fun j hj => byteAt?_put_other _ _ j b hj⟩
    · rw [takeByte_none s hb, countTick_open s h.2]
  · have hc : s.windowOpen = false := by
      rw [← Bool.not_eq_true, windowOpen_iff]
      omega
    refine ⟨hc, ?_⟩
    rw [linkWait, if_neg (by simp [hc]), countTick_eq]

/-! ### What the commands leave alone -/

@[simp] theorem respond_ovr (f : Byte) (p : List Byte) (k : Kind) (s : State) : (s.respond f p k).ovr = s.ovr := by
  simp [State.respond]
@[simp] theorem respond_txStream (f : Byte) (p : List Byte) (k : Kind) (s : State) :
    (s.respond f p k).txStream = s.txStream := by simp [State.respond]
@[simp] theorem respond_rxStream (f : Byte) (p : List Byte) (k : Kind) (s : State) :
    (s.respond f p k).rxStream = s.rxStream := by simp [State.respond]
@[simp] theorem respond_text (f : Byte) (p : List Byte) (k : Kind) (s : State) :
    (s.respond f p k).text = s.text := by simp [State.respond]
@[simp] theorem respond_textLen (f : Byte) (p : List Byte) (k : Kind) (s : State) :
    (s.respond f p k).textLen = s.textLen := by simp [State.respond]

/-- The dispatch of a request responds, from the state in DF or from the one with the accepted text stored. -/
theorem serveRequest_cases (f : Byte) (s t : State) (e : serveRequest f s = .next t) :
    (∃ f' p k, t = s.respond f' p k ∧ (k = .ok ∨ k = .processingError ∨ k = .unsupportedFunction)) ∨
      (f = 0x01 ∧ s.textAccepted = true ∧ t = (s.loadText s.dfBytes).respond 0x01 [] .ok) := by
  unfold serveRequest at e
  split at e
  · next h1 =>
    unfold execFcWriteText at e
    cases e
    split
    · next ha => exact .inr ⟨h1, ha, rfl⟩
    · exact .inl ⟨_, _, _, rfl, by simp⟩
  · split at e
    · cases e; exact .inl ⟨_, _, _, rfl, by simp⟩
    · cases e; exact .inl ⟨_, _, _, rfl, by simp⟩

theorem serveRequest_keeps (f : Byte) (s t : State) (e : serveRequest f s = .next t) :
    t.ovr = s.ovr ∧ t.txStream = s.txStream ∧ t.rxStream = s.rxStream := by
  rcases serveRequest_cases f s t e with ⟨f', p, k, rfl, -⟩ | ⟨-, -, rfl⟩ <;> simp

theorem execHandle_keeps (s t : State) (e : execHandle s = .next t) :
    t.ovr = s.ovr ∧ t.txStream = s.txStream ∧ t.rxStream = s.rxStream := by
  unfold execHandle at e
  split at e
  · cases e; simp
  · cases e; simp
  · split at e
    · simpa using serveRequest_keeps _ _ t e
    · cases e; simp

/-- A command that is no link command touches neither `OVR` nor the link (rule R71). -/
theorem exec_local_keeps (i : Instr) (s t : State) (hl : isLink i = false) (e : exec i s = .next t) :
    t.ovr = s.ovr ∧ t.txStream = s.txStream ∧ t.rxStream = s.rxStream := by
  cases i with
  | lrc | crc16 | encAscii | encRtu | decAscii | decRtu => cases e; simp
  | execute | writeText | readText => cases hl
  | handle => exact execHandle_keeps s t e
  | fcWriteText => exact serveRequest_keeps 0x01 s t e
  | fcReadText => exact serveRequest_keeps 0x02 s t e
  | fcException low => cases e; simp

/-- A cycle of a link command touches neither `OVR` nor the store. -/
theorem exec_link_keeps (i : Instr) (s t : State) (hl : isLink i = true) (e : exec i s = .next t) :
    t.ovr = s.ovr ∧ t.text = s.text ∧ t.textLen = s.textLen := by
  obtain ⟨pre, fin, hpre, hfin, hx⟩ := exec_link i (isLink_cases i hl)
  rw [hx] at e
  cases e
  cases hte : s.teState with
  | idle =>
    rw [linkStep_idle _ _ _ hte, funext hpre]
    rcases prepared_cases i with h | h | h <;> rw [h] <;> exact ⟨rfl, rfl, rfl⟩
  | build => rw [linkStep_build _ _ _ hte]; simp [linkBuild]
  | send =>
    rw [linkStep_send _ _ _ hte, linkSend]
    split
    · split <;> exact ⟨rfl, rfl, rfl⟩
    · exact ⟨rfl, rfl, rfl⟩
  | wait =>
    obtain ⟨buf, n, str, tm, te, -, h⟩ := linkWait_eq s
    rw [linkStep_wait _ _ _ hte, h]
    exact ⟨rfl, rfl, rfl⟩
  | check =>
    obtain ⟨hk, -⟩ := linkCheck_keeps fin (by tauto) s
    rw [linkStep_check _ _ _ hte]
    exact ⟨hk.ovr, hk.text, hk.textLen⟩

theorem exec_ovr (i : Instr) (s t : State) (e : exec i s = .next t) : t.ovr = s.ovr := by
  cases hl : isLink i with
  | false => exact (exec_local_keeps i s t hl e).1
  | true => exact (exec_link_keeps i s t hl e).1

/-- Issuing a command changes neither `OVR` nor the store. -/
theorem issue_keeps (w : Word) (s t : State) (e : issue w s = .next t) :
    t.ovr = s.ovr ∧ t.text = s.text ∧ t.textLen = s.textLen := by
  cases hd : decodeCmd s.params.hasRd w with
  | error r =>
    rw [issue_illegal w s (by simp [hd])] at e
    cases e; exact ⟨rfl, rfl, rfl⟩
  | ok i =>
    cases hl : isLink i with
    | false =>
      rw [issue_local w s i hd hl] at e
      cases e; exact ⟨rfl, rfl, rfl⟩
    | true =>
      rw [issue_link w s i hd hl] at e
      exact exec_link_keeps i (s.accept (w.setWidth 8) (decodesFrame i)) t hl e

theorem writeIdleReg_keeps (n : Nat) (v : Word) (s : State) :
    (s.writeIdleReg n v).ovr = s.ovr ∧ (s.writeIdleReg n v).text = s.text ∧
      (s.writeIdleReg n v).textLen = s.textLen ∧ (s.writeIdleReg n v).txStream = s.txStream ∧
      (s.writeIdleReg n v).rxStream = s.rxStream := by
  unfold State.writeIdleReg
  split
  case h_4 => unfold State.setOwnAddr; split <;> exact ⟨rfl, rfl, rfl, rfl, rfl⟩
  case h_5 => unfold State.setEfHdr; split <;> exact ⟨rfl, rfl, rfl, rfl, rfl⟩
  case h_6 => unfold State.setRxLen; split <;> exact ⟨rfl, rfl, rfl, rfl, rfl⟩
  all_goals exact ⟨rfl, rfl, rfl, rfl, rfl⟩

/-! ### `OVR` (rules R25, R27, R320) -/

/-- Of the host's accesses only a write to `STATUS` and a refused write change `OVR`. -/
theorem hostEffect_ovr (a : HostAccess) (s t : State) (e : HostEffect s a t) :
    t.ovr = s.ovr ∨ (∃ v, a = .writeReg 1 v ∧ t = s.writeStatus v) ∨
      (s.busy = true ∧ t.ovr = true ∧ ((∃ n v, a = .writeReg n v ∧ n ≠ 1) ∨ ∃ id i b, a = .writeBuf id i b)) := by
  cases e with
  | status v => exact .inr (.inl ⟨v, rfl, rfl⟩)
  | refusedReg n v hb hn => exact .inr (.inr ⟨hb, rfl, .inl ⟨n, v, rfl, hn⟩⟩)
  | refusedBuf id i b hb => exact .inr (.inr ⟨hb, rfl, .inr ⟨id, i, b, rfl⟩⟩)
  | command v t _ hi => exact .inl (issue_keeps v s t hi).1
  | register n v _ => exact .inl (writeIdleReg_keeps n v s).1
  | readReg | readBuf | ignoredReg | ignoredBuf | efPayload | rxBuf => exact .inl rfl

theorem coreCycle_ovr (s t : State) (e : coreCycle s = .next t) : t.ovr = s.ovr := by
  unfold coreCycle at e
  split at e
  · split at e
    · exact exec_ovr _ s t e
    · cases e; rfl
  · cases e; rfl

/-- Settles O55, by the event of the step. -/
theorem ovrIsSticky : Obligations.OvrIsSticky := by
  unfold Obligations.OvrIsSticky
  intro s t e
  have hkeep (h : t.ovr = s.ovr) : ¬(s.ovr = true ∧ t.ovr = false) ∧ ¬(s.ovr = false ∧ t.ovr = true) := by
    rw [h]; cases s.ovr <;> simp
  unfold step advance at e
  cases hev : s.nextEvent with
  | host a =>
    rw [hev] at e
    rcases hostEffect_ovr a s.takeEvent t (hostAccess_effect a _ t e) with h | ⟨v, rfl, rfl⟩ | ⟨hb, h, ha⟩
    · exact ⟨fun h1 h2 => absurd ⟨h1, h2⟩ (hkeep h).1, fun h1 h2 => absurd ⟨h1, h2⟩ (hkeep h).2⟩
    · refine ⟨fun h1 h2 => .inr ⟨v, rfl, ?_⟩, fun h1 h2 => ?_⟩
      · simpa [State.writeStatus, h1] using h2
      · simp [State.writeStatus, h1] at h2
    · refine ⟨fun _ h' => ?_, fun _ _ => ⟨hb, ?_⟩⟩
      · rw [h] at h'; cases h'
      · rcases ha with ⟨n, v, rfl, hn⟩ | ⟨id, i, b, rfl⟩
        · exact .inl ⟨n, v, rfl, hn⟩
        · exact .inr ⟨id, i, b, rfl⟩
  | cycle a b c =>
    rw [hev] at e
    have h := hkeep (coreCycle_ovr (s.takeEvent.withPorts a b c) t e)
    exact ⟨fun h1 h2 => absurd ⟨h1, h2⟩ h.1, fun h1 h2 => absurd ⟨h1, h2⟩ h.2⟩
  | arrive b =>
    rw [hev] at e
    cases e
    exact ⟨fun h1 h2 => absurd ⟨h1, h2⟩ (hkeep rfl).1, fun h1 h2 => absurd ⟨h1, h2⟩ (hkeep rfl).2⟩
  | reset =>
    rw [hev] at e
    cases e
    exact ⟨fun _ _ => .inl rfl, fun _ h2 => by cases h2⟩

/-! ### The store (rules R264, R274) -/

/-- The store changes only by a request for this slave with function code 1 and an accepted text. -/
def StoresRequest (s t : State) : Prop :=
  ∃ q, decodeFrame s.mode s.rxBytes = .frame q ∧ q.addr = s.ownAddr ∧ q.fc = 0x01 ∧
    q.payload.length ≤ s.params.payloadMax ∧ utf8Ok s.params q.payload = true ∧
    t.text = Memory.ofBytes q.payload ∧ t.textLen.toNat = q.payload.length

theorem serveRequest_text (q : Parsed) (s u t : State) (hq : decodeFrame s.mode s.rxBytes = .frame q)
    (ha : q.addr = s.ownAddr) (hp : u.params = s.params)
    (e : serveRequest q.fc (u.loadDf q.addr q.fc q.payload q.check) = .next t) :
    (t.text = u.text ∧ t.textLen = u.textLen) ∨ StoresRequest s t := by
  have hlen : q.payload.length < 65536 := by
    have := payload_length_rx s.mode s q hq
    omega
  obtain ⟨hn, hbytes, -⟩ := loadDf_bytes u q.addr q.fc q.payload q.check hlen
  rcases serveRequest_cases q.fc _ t e with ⟨f', p, k, rfl, -⟩ | ⟨hf, hacc, rfl⟩
  · left; simp
  · right
    simp only [State.textAccepted, Bool.and_eq_true, decide_eq_true_eq, hn, hbytes, loadDf_params, hp] at hacc
    refine ⟨q, hq, ha, hf, hacc.1, hacc.2, ?_, ?_⟩
    · rw [hbytes]; simp
    · rw [hbytes]; simpa using hlen

theorem execHandle_text (s t : State) (e : exec .handle s = .next t) :
    (t.text = s.text ∧ t.textLen = s.textLen) ∨ StoresRequest s t := by
  by_cases hf : ∃ q, decodeFrame s.mode s.rxBytes = .frame q
  · obtain ⟨q, hq⟩ := hf
    by_cases ha : q.addr = s.ownAddr
    · rw [execHandle_request s q hq ha] at e
      simpa using serveRequest_text q s _ t hq ha (by simp) e
    · rw [execHandle_other s q hq ha] at e
      cases e; left; simp
  · rw [execHandle_bad s fun q hq => hf ⟨q, hq⟩] at e
    cases e; left; simp

/-- A command other than `HANDLE` leaves the store alone. -/
theorem exec_text (i : Instr) (s t : State) (hi : i ≠ .fcWriteText ∧ i ≠ .fcReadText ∧ ∀ low, i ≠ .fcException low)
    (hh : i ≠ .handle) (e : exec i s = .next t) : t.text = s.text ∧ t.textLen = s.textLen := by
  obtain ⟨h1, h2, h3⟩ := hi
  cases i with
  | lrc | crc16 | encAscii | encRtu | decAscii | decRtu => cases e; simp
  | execute => exact (exec_link_keeps .execute s t rfl e).2
  | writeText => exact (exec_link_keeps .writeText s t rfl e).2
  | readText => exact (exec_link_keeps .readText s t rfl e).2
  | handle => exact absurd rfl hh
  | fcWriteText => exact absurd rfl h1
  | fcReadText => exact absurd rfl h2
  | fcException low => exact absurd rfl (h3 low)

theorem curOp_of_decodes_handle (r : Bool) (b : Byte) (h : decodeCmd r b.toWord = .ok .handle) : b = 0x08 := by
  have key : ∀ (r : Bool) (b : Byte), accepted (decodeCmd r b.toWord) = some .handle → b = 0x08 := by decide
  exact key r b (by rw [h]; rfl)

theorem coreCycle_text (s t : State) (e : coreCycle s = .next t) :
    (t.text = s.text ∧ t.textLen = s.textLen) ∨ (s.busy = true ∧ s.curOp = 0x08 ∧ StoresRequest s t) := by
  unfold coreCycle at e
  split at e
  · next hb =>
    split at e
    · next i hd =>
      by_cases hh : i = .handle
      · subst hh
        exact (execHandle_text s t e).imp id fun h => ⟨hb, curOp_of_decodes_handle _ _ hd, h⟩
      · exact .inl (exec_text i s t (decodeCmd_not_fc i _ _ hd) hh e)
    · cases e; exact .inl ⟨rfl, rfl⟩
  · cases e; exact .inl ⟨rfl, rfl⟩

theorem hostEffect_text (a : HostAccess) (s t : State) (e : HostEffect s a t) :
    t.text = s.text ∧ t.textLen = s.textLen := by
  cases e with
  | command v t _ hi => exact (issue_keeps v s t hi).2
  | register n v _ =>
    obtain ⟨-, h1, h2, -⟩ := writeIdleReg_keeps n v s
    exact ⟨h1, h2⟩
  | _ => exact ⟨rfl, rfl⟩

/-- Settles O52, by the event of the step. -/
theorem onlyWriteRequestsChangeTheText : Obligations.OnlyWriteRequestsChangeTheText := by
  unfold Obligations.OnlyWriteRequestsChangeTheText
  intro s t e hne
  have hkeep : ¬(t.text = s.text ∧ t.textLen = s.textLen) := by tauto
  unfold step advance at e
  cases hev : s.nextEvent with
  | host a =>
    rw [hev] at e
    exact absurd (hostEffect_text a s.takeEvent t (hostAccess_effect a _ t e)) hkeep
  | cycle a b c =>
    rw [hev] at e
    rcases coreCycle_text (s.takeEvent.withPorts a b c) t e with h | ⟨hb, hop, hst⟩
    · exact absurd h hkeep
    · exact .inr ⟨hb, hop, ⟨a, b, c, rfl⟩, hst⟩
  | arrive b =>
    rw [hev] at e
    cases e
    exact absurd ⟨rfl, rfl⟩ hkeep
  | reset => exact .inl rfl

/-! ### The streams of the link (rules R51, R71, R220, R222) -/

/-- A cycle of the sequencer sends the byte on offer in `SEND` or nothing. -/
theorem linkStep_txStream (pre fin : State → State) (hfin : fin = id ∨ fin = State.setTextFlags) (s : State)
    (ht : s.teState ≠ .idle) :
    (linkStep pre fin s).txStream = s.txStream ∨
      (s.teState = .send ∧ s.txPtr.toNat < s.txLen.toNat ∧ s.txReady = true ∧
        (linkStep pre fin s).txStream = s.txStream ++ [s.txNext]) := by
  cases hte : s.teState with
  | idle => exact absurd hte ht
  | build => left; rw [linkStep_build _ _ _ hte]; simp [linkBuild]
  | send =>
    rw [linkStep_send _ _ _ hte, linkSend]
    split
    · next hp =>
      split
      · next hr => exact .inr ⟨rfl, hp, hr, rfl⟩
      · exact .inl rfl
    · exact .inl rfl
  | wait =>
    left
    obtain ⟨buf, n, str, tm, te, -, h⟩ := linkWait_eq s
    rw [linkStep_wait _ _ _ hte, h]
  | check => left; rw [linkStep_check _ _ _ hte]; exact (linkCheck_keeps fin hfin s).1.txStream

/-- A cycle of the sequencer takes the first byte on offer in `WAIT` with the window open, or none. -/
theorem linkStep_rxStream (pre fin : State → State) (hfin : fin = id ∨ fin = State.setTextFlags) (s : State)
    (ht : s.teState ≠ .idle) :
    (linkStep pre fin s).rxStream = s.rxStream ∨
      (s.teState = .wait ∧ s.windowOpen = true ∧ s.rxValid = true ∧
        (linkStep pre fin s).rxStream = s.rxStream.tail) := by
  cases hte : s.teState with
  | idle => exact absurd hte ht
  | build => left; rw [linkStep_build _ _ _ hte]; simp [linkBuild]
  | send =>
    left
    rw [linkStep_send _ _ _ hte, linkSend]
    split
    · split <;> rfl
    · rfl
  | wait =>
    rw [linkStep_wait _ _ _ hte, linkWait]
    split
    · next ho =>
      rw [countTick_eq]
      cases hoff : s.rxOffer with
      | none => rw [takeByte_none s hoff]; exact .inl rfl
      | some b =>
        have hv : s.rxValid = true := by
          by_contra hv
          rw [State.rxOffer, if_neg hv] at hoff
          cases hoff
        rw [takeByte_some s b hoff]
        exact .inr ⟨rfl, ho, hv, rfl⟩
    · rw [countTick_eq]; exact .inl rfl
  | check => left; rw [linkStep_check _ _ _ hte]; exact (linkCheck_keeps fin hfin s).1.rxStream

/-- No host access touches the link, in a block that is in `IDLE` whenever it is not busy. -/
theorem hostEffect_streams (a : HostAccess) (s t : State) (h : s.ControlInv) (e : HostEffect s a t) :
    t.txStream = s.txStream ∧ t.rxStream = s.rxStream := by
  cases e with
  | command v t hb hi =>
    cases hd : decodeCmd s.params.hasRd v with
    | error r =>
      rw [issue_illegal v s (by simp [hd])] at hi
      cases hi; exact ⟨rfl, rfl⟩
    | ok i =>
      cases hl : isLink i with
      | false =>
        rw [issue_local v s i hd hl] at hi
        cases hi; exact ⟨rfl, rfl⟩
      | true =>
        rw [issue_link v s i hd hl, exec_link_accepted i _ _ s (isLink_cases i hl) (h.idle hb)] at hi
        cases hi
        rcases prepared_cases i with hp | hp | hp <;> rw [hp] <;> exact ⟨rfl, rfl⟩
  | register n v _ =>
    obtain ⟨-, -, -, h1, h2⟩ := writeIdleReg_keeps n v s
    exact ⟨h1, h2⟩
  | _ => exact ⟨rfl, rfl⟩

/-- Settles O41, by the event of the step and, in a cycle of a link command, by the state of the sequencer. -/
theorem onlyLinkCommandsTouchTheLink : Obligations.OnlyLinkCommandsTouchTheLink := by
  unfold Obligations.OnlyLinkCommandsTouchTheLink
  intro s t h e
  rcases step_cases s t h.control e with ⟨a, -, hx⟩ | ⟨a, b, c, -, -, rfl⟩ | ⟨a, b, c, i, -, -, -, hl, -, hx⟩ |
      ⟨a, b, c, i, hev, hb, -, hl, ht, hx⟩ | ⟨b, hev, rfl⟩ | ⟨-, rfl⟩
  · obtain ⟨h1, h2⟩ := hostEffect_streams a s.takeEvent t { h.control with } (hostAccess_effect a _ t hx)
    exact ⟨fun hne => absurd h1 hne, fun hne => absurd h2 hne⟩
  · exact ⟨fun hne => absurd rfl hne, fun hne => absurd rfl hne⟩
  · obtain ⟨-, h1, h2⟩ := exec_local_keeps i (s.takeEvent.withPorts a b c) t hl hx
    exact ⟨fun hne => absurd h1 hne, fun hne => absurd h2 hne⟩
  · obtain ⟨pre, fin, -, hfin, hlink⟩ := exec_link i (isLink_cases i hl)
    rw [hlink] at hx
    cases hx
    have hfin : fin = id ∨ fin = State.setTextFlags := by tauto
    constructor
    · intro hne
      obtain ⟨hte, hp, hr, htx⟩ := (linkStep_txStream pre fin hfin (s.takeEvent.withPorts a b c) ht).resolve_left hne
      obtain rfl : b = true := hr
      have hd := (txData_offered s hte hp).2
      exact ⟨hb, hte, hp, ⟨a, c, hev⟩, by rw [hd]; exact htx⟩
    · intro hne
      obtain ⟨hte, ho, hv, hrx⟩ := (linkStep_rxStream pre fin hfin (s.takeEvent.withPorts a b c) ht).resolve_left hne
      obtain rfl : c = true := hv
      obtain ⟨h1, h2⟩ := (windowOpen_iff s).1 ho
      exact .inr ⟨hb, hte, h1, h2, ⟨a, b, hev⟩, hrx⟩
  · exact ⟨fun hne => absurd rfl hne, fun _ => .inl ⟨b, hev, rfl⟩⟩
  · exact ⟨fun hne => absurd rfl hne, fun hne => absurd rfl hne⟩

/-! ### The error kinds (rules R310, R312) -/

/-- The state is one that a command leaves on completion with one of the kinds. -/
def CompletedWith (ks : List Kind) (t : State) : Prop := ∃ (u : State) (k : Kind), k ∈ ks ∧ t = u.complete k

theorem completedWith (ks : List Kind) (k : Kind) (u : State) (h : k ∈ ks) : CompletedWith ks (u.complete k) :=
  ⟨u, k, h, rfl⟩

theorem CompletedWith.facts {ks : List Kind} {t : State} (h : CompletedWith ks t) :
    t.busy = false ∧ t.teState = .idle ∧ t.result ∈ ks := by
  obtain ⟨u, k, hk, rfl⟩ := h
  exact ⟨rfl, rfl, hk⟩

/-- A failed attempt sets `DONE` only when no retries are left. -/
theorem linkFail_done (c : Cause) (s : State) (h0 : s.done = false) (h1 : (linkFail c s).done = true) :
    CompletedWith [.ok, .timeoutError] (linkFail c s) := by
  unfold linkFail at h1 ⊢
  split at h1
  · next he => rw [if_pos he]; exact completedWith _ _ _ (by simp)
  · rw [h0] at h1; cases h1

theorem linkCheck_done (fin : State → State) (s : State) (h0 : s.done = false) (h1 : (linkCheck fin s).done = true) :
    CompletedWith [.ok, .timeoutError] (linkCheck fin s) := by
  unfold linkCheck at h1 ⊢
  split
  · next he => rw [if_pos he] at h1; exact linkFail_done _ _ h0 h1
  · next he =>
    rw [if_neg he] at h1
    split
    · exact completedWith _ _ _ (by simp)
    · next c hd => rw [hd] at h1; exact linkFail_done _ _ (by simpa using h0) h1
    · next hd => rw [hd] at h1; exact linkFail_done _ _ (by simpa using h0) h1

/-- Only the cycle of `CHECK` can set `DONE`. -/
theorem linkStep_done (i : Instr) (fin : State → State) (s : State) (h0 : s.done = false)
    (h1 : (linkStep (State.prepared i) fin s).done = true) :
    CompletedWith [.ok, .timeoutError] (linkStep (State.prepared i) fin s) := by
  have hno {t : State} (h : t.done = s.done) : t.done ≠ true := by rw [h, h0]; simp
  cases hte : s.teState with
  | idle =>
    rw [linkStep_idle _ _ _ hte] at h1
    rcases prepared_cases i with hp | hp | hp <;> rw [hp] at h1 <;> exact absurd h1 (hno rfl)
  | build =>
    rw [linkStep_build _ _ _ hte] at h1
    exact absurd h1 (hno (by simp [linkBuild]))
  | send =>
    rw [linkStep_send _ _ _ hte, linkSend] at h1
    split at h1
    · split at h1 <;> exact absurd h1 (hno rfl)
    · exact absurd h1 (hno rfl)
  | wait =>
    obtain ⟨buf, n, str, tm, te, -, h⟩ := linkWait_eq s
    rw [linkStep_wait _ _ _ hte, h] at h1
    exact absurd h1 (hno rfl)
  | check =>
    rw [linkStep_check _ _ _ hte] at h1 ⊢
    exact linkCheck_done fin s h0 h1

theorem Verdict.kind_mem (v : Verdict) : v.kind ∈ [Kind.ok, .framingError, .checksumError] := by
  cases v <;> simp [Verdict.kind]

theorem serveRequest_completed (f : Byte) (s t : State) (e : serveRequest f s = .next t) :
    CompletedWith [.ok, .unsupportedFunction, .processingError] t := by
  rcases serveRequest_cases f s t e with ⟨f', p, k, rfl, hk⟩ | ⟨-, -, rfl⟩
  · exact completedWith _ k _ (by simp; tauto)
  · exact completedWith _ .ok _ (by simp)

theorem execHandle_completed (s t : State) (e : execHandle s = .next t) :
    CompletedWith [.ok, .framingError, .checksumError, .addressMismatch, .unsupportedFunction, .processingError] t := by
  unfold execHandle at e
  split at e
  · cases e; exact completedWith _ _ _ (by simp)
  · cases e; exact completedWith _ _ _ (by simp)
  · split at e
    · obtain ⟨u, k, hk, rfl⟩ := serveRequest_completed _ _ t e
      exact completedWith _ k u (by simp at hk ⊢; tauto)
    · cases e; exact completedWith _ _ _ (by simp)

/-- Settles O54, command by command: each ends in a completion with one of its kinds. -/
theorem resultKindsPerCommand : Obligations.ResultKindsPerCommand := by
  unfold Obligations.ResultKindsPerCommand
  intro s t i e h0 h1
  cases hl : isLink i with
  | true =>
    obtain ⟨pre, fin, hpre, -, hx⟩ := exec_link i (isLink_cases i hl)
    rw [hx, funext hpre] at e
    cases e
    have h := (linkStep_done i fin s h0 h1).facts
    rcases isLink_cases i hl with rfl | rfl | rfl <;> simpa using h
  | false =>
    cases i with
    | lrc | crc16 | encAscii | encRtu => cases e; simp
    | decAscii => cases e; simpa using Verdict.kind_mem _
    | decRtu => cases e; simpa using Verdict.kind_mem _
    | execute | writeText | readText => cases hl
    | handle => simpa using (execHandle_completed s t e).facts
    | fcWriteText =>
      have h := (serveRequest_completed 0x01 s t e).facts
      simp [h.1, h.2.1]
    | fcReadText =>
      have h := (serveRequest_completed 0x02 s t e).facts
      simp [h.1, h.2.1]
    | fcException low => cases e; simp [State.respond]

end Sys2Proof.Machine
end

section
/-! Proofs of the encoding family, part one: the command words and the function codes. -/

namespace Sys2Proof.Machine

/-! ### What the two decoders accept (rules R110, R118, R120, R121) -/

/-- The family of lemmas on the fields of an encoded word, for all instructions at once. -/
theorem encode_fields (i : Instr) : Laws.EncodedWord.Statement i := by
  cases i with
  | lrc => exact Laws.EncodedWord.lrc
  | crc16 => exact Laws.EncodedWord.crc16
  | encAscii => exact Laws.EncodedWord.encAscii
  | encRtu => exact Laws.EncodedWord.encRtu
  | decAscii => exact Laws.EncodedWord.decAscii
  | decRtu => exact Laws.EncodedWord.decRtu
  | execute => exact Laws.EncodedWord.execute
  | writeText => exact Laws.EncodedWord.writeText
  | readText => exact Laws.EncodedWord.readText
  | handle => exact Laws.EncodedWord.handle
  | fcWriteText => exact Laws.EncodedWord.fcWriteText
  | fcReadText => exact Laws.EncodedWord.fcReadText
  | fcException low => exact Laws.EncodedWord.fcException low

/-- The fields `OP` and `ENC` select exactly the command whose word has them. -/
theorem decodeOp_eq_ok_iff (r : Bool) (op : Nat) (enc : Bool) (i : Instr) :
    decodeOp r op enc = .ok i ↔
      i.format = .cmd8 ∧ i.wellFormed r = true ∧ ((encode i).extractLsb' 0 4).toNat = op ∧
        (encode i).getLsbD 4 = enc := by
  constructor
  · intro h
    unfold decodeOp at h
    split at h
    case h_10 =>
      split at h
      · next hr => cases h; exact ⟨rfl, hr, rfl, rfl⟩
      · cases h
    case h_11 => split at h <;> cases h
    all_goals cases h; exact ⟨rfl, rfl, rfl, rfl⟩
  · rintro ⟨hf, hw, rfl, rfl⟩
    cases i with
    | handle => exact if_pos hw
    | fcWriteText | fcReadText | fcException low => cases hf
    | _ => rfl

/-- A word is a command exactly where it is the word of a command that the block has. -/
theorem decodeCmd_eq_ok_iff (r : Bool) (w : Word) (i : Instr) :
    decodeCmd r w = .ok i ↔ i.format = .cmd8 ∧ i.wellFormed r = true ∧ encode i = w := by
  obtain ⟨hhigh, hcmd, -⟩ := encode_fields i
  constructor
  · intro h
    unfold decodeCmd at h
    split at h
    · cases h
    next hh =>
    split at h
    · cases h
    next hz =>
    obtain ⟨hf, hw, hop, henc⟩ := (decodeOp_eq_ok_iff r _ _ i).1 h
    obtain ⟨hzero, -⟩ := hcmd hf
    refine ⟨hf, hw, word_ext_fields _ _ (BitVec.eq_of_toNat_eq hop) henc ?_ ?_⟩
    · rw [hzero, Decidable.not_not.1 hz]
    · rw [hhigh, Decidable.not_not.1 hh]
  · rintro ⟨hf, hw, rfl⟩
    obtain ⟨hzero, -⟩ := hcmd hf
    rw [decodeCmd, if_neg (not_not.2 hhigh), if_neg (not_not.2 hzero)]
    exact (decodeOp_eq_ok_iff r _ _ i).2 ⟨hf, hw, rfl, rfl⟩

/-- A function code with bit 7 set is that bit and its seven low bits. -/
theorem exceptionCode_low (f : Byte) (h : f.getLsbD 7 = true) : 0x80 ||| (f.extractLsb' 0 7).setWidth 8 = f := by
  revert f; decide

/-- The function code of an exception response, and its seven low bits back. -/
theorem exceptionCode_fields (low : BitVec 7) :
    encodeByte (.fcException low) ≠ 0x01 ∧ encodeByte (.fcException low) ≠ 0x02 ∧
      (encodeByte (.fcException low)).getLsbD 7 = true ∧ (encodeByte (.fcException low)).extractLsb' 0 7 = low := by
  revert low; decide

/-- A byte is a function code exactly where it is the code of an instruction of a block with the dispatcher. -/
theorem decodeFc_eq_ok_iff (r : Bool) (f : Byte) (i : Instr) :
    decodeFc r f = .ok i ↔ i.format = .fc8 ∧ i.wellFormed r = true ∧ encodeByte i = f := by
  constructor
  · intro h
    unfold decodeFc at h
    split at h
    · cases h
    next hr =>
    have hr : r = true := by simpa using hr
    split at h
    · next hf => cases h; exact ⟨rfl, hr, hf.symm⟩
    split at h
    · next hf => cases h; exact ⟨rfl, hr, hf.symm⟩
    split at h
    · next hf => cases h; exact ⟨rfl, hr, exceptionCode_low f hf⟩
    · cases h
  · rintro ⟨hf, hw, rfl⟩
    cases i with
    | fcWriteText | fcReadText => cases hw; rfl
    | fcException low =>
      obtain ⟨h1, h2, h7, hlow⟩ := exceptionCode_fields low
      cases hw
      rw [decodeFc, if_neg (by simp), if_neg h1, if_neg h2, if_pos h7, hlow]
    | _ => cases hf

theorem toWord_setWidth (b : Byte) : b.toWord.setWidth 8 = b := by
  simp [Byte.toWord]

/-- A word without high bits is its low byte. -/
theorem toWord_of_high_zero (w : Word) (h : w.extractLsb' 8 24 = 0) : Byte.toWord (w.setWidth 8) = w := by
  refine BitVec.eq_of_toNat_eq ?_
  have hn := congrArg BitVec.toNat h
  simp only [BitVec.extractLsb'_toNat, Nat.shiftRight_eq_div_pow] at hn
  simp only [Byte.toWord, BitVec.toNat_setWidth]
  have := w.isLt
  simp at hn
  omega

/-- The words that the decoder accepts in either format. -/
theorem decode_eq_ok_iff (fmt : Format) (r : Bool) (w : Word) (i : Instr) :
    decode fmt r w = .ok i ↔ i.format = fmt ∧ i.wellFormed r = true ∧ encode i = w := by
  cases fmt with
  | cmd8 => exact decodeCmd_eq_ok_iff r w i
  | fc8 =>
    by_cases hh : w.extractLsb' 8 24 = 0
    · have hbyte : encodeByte i = w.setWidth 8 ↔ encode i = w := by
        constructor
        · intro h; rw [encode, h, toWord_of_high_zero w hh]
        · rintro rfl; rw [encode, toWord_setWidth]
      rw [decode, if_neg (not_not.2 hh), decodeFc_eq_ok_iff, hbyte]
    · rw [decode, if_pos hh]
      refine iff_of_false (by simp) ?_
      rintro ⟨-, -, rfl⟩
      exact hh (encode_fields i).1

/-! ### The command list (rule R120) -/

/-- The ten rows of the command list. -/
def commandTable : List (Word × Instr) :=
  [(0x01, .lrc), (0x02, .crc16), (0x03, .encAscii), (0x13, .encRtu), (0x04, .decAscii), (0x14, .decRtu),
    (0x05, .execute), (0x06, .writeText), (0x07, .readText), (0x08, .handle)]

/-- The rows are the commands, each with its own word. -/
theorem mem_commandTable_iff (w : Word) (i : Instr) :
    (w, i) ∈ commandTable ↔ i.format = .cmd8 ∧ encode i = w := by
  rw [eq_comm (a := encode i)]
  cases i <;> simp [commandTable, Instr.format, encode, encodeByte, Byte.toWord]

/-- `HANDLE` is the one command that needs the dispatcher. -/
theorem wellFormed_command_iff (r : Bool) (i : Instr) (h : i.format = .cmd8) :
    i.wellFormed r = true ↔ (i = .handle → r = true) := by
  cases i with
  | handle => simp [Instr.wellFormed]
  | fcWriteText | fcReadText | fcException low => cases h
  | _ => exact iff_of_true rfl nofun

/-! ### The statements -/

/-- Settles O2: both directions are one description of the accepted words. -/
theorem decodeEncodeAgree : Obligations.DecodeEncodeAgree := by
  unfold Obligations.DecodeEncodeAgree
  refine ⟨fun r i hw => (decode_eq_ok_iff _ r _ i).2 ⟨rfl, hw, rfl⟩, fun fmt r w i h => ?_⟩
  obtain ⟨hf, hw, he⟩ := (decode_eq_ok_iff fmt r w i).1 h
  exact ⟨hw, hf, he⟩

/-- Settles O1: the words by evaluation, the function codes by the row of rule R110 that each belongs to. -/
theorem tableRowsDecode : Obligations.TableRowsDecode := by
  unfold Obligations.TableRowsDecode
  refine ⟨by decide, fun f => ⟨?_, ?_, fun h7 => ?_, fun h7 h1 h2 => ?_, rfl⟩⟩
  · rintro rfl; rfl
  · rintro rfl; rfl
  · have hcode := exceptionCode_low f h7
    exact ⟨(decodeFc_eq_ok_iff true f _).2 ⟨rfl, rfl, hcode⟩, hcode⟩
  · rw [decodeFc, if_neg (by simp), if_neg h1, if_neg h2, if_neg (Bool.eq_false_iff.1 h7)]

/-- Settles O3, from the words that the command decoder accepts. -/
theorem commandTableExact : Obligations.CommandTableExact := by
  unfold Obligations.CommandTableExact
  intro r w i
  change decodeCmd r w = .ok i ↔ (w, i) ∈ commandTable ∧ (i = .handle → r = true)
  rw [decodeCmd_eq_ok_iff, mem_commandTable_iff, and_assoc]
  refine and_congr_right fun hf => ?_
  rw [wellFormed_command_iff r i hf, and_comm]

end Sys2Proof.Machine
end

section
/-! Proofs of the encoding family, part two: hex characters and the two frames, byte index by byte index. -/

namespace Sys2Proof.Machine

/-! ### Hex characters (rules R102, R103) -/

theorem hexDigit_toNat (u : Bool) (v : Byte) (h : v.toNat ≤ 15) :
    (hexDigit u v).toNat =
      if v.toNat ≤ 9 then 0x30 + v.toNat else (if u = true then 0x41 else 0x61) + (v.toNat - 10) := by
  cases u <;> revert v <;> decide

theorem isHex_iff (ch : Byte) :
    isHex ch = true ↔ (0x30 ≤ ch.toNat ∧ ch.toNat ≤ 0x39) ∨ (0x41 ≤ ch.toNat ∧ ch.toNat ≤ 0x46) ∨
      (0x61 ≤ ch.toNat ∧ ch.toNat ≤ 0x66) := by
  simp only [isHex, Bool.or_eq_true, Bool.and_eq_true, decide_eq_true_eq, or_assoc]

/-- The value of a character of each of the three ranges. -/
theorem unhex1_toNat (ch : Byte) :
    (0x30 ≤ ch.toNat → ch.toNat ≤ 0x39 → (unhex1 ch).toNat = ch.toNat - 0x30) ∧
      (0x41 ≤ ch.toNat → ch.toNat ≤ 0x46 → (unhex1 ch).toNat = ch.toNat - 0x41 + 10) ∧
      (0x61 ≤ ch.toNat → ch.toNat ≤ 0x66 → (unhex1 ch).toNat = ch.toNat - 0x61 + 10) := by
  revert ch; decide

/-- Settles O23, from the characters of a nibble and the values of a character. -/
theorem hexDigits : Obligations.HexDigits := by
  unfold Obligations.HexDigits
  exact ⟨fun _ _ => rfl, hexDigit_toNat, fun ch => ⟨isHex_iff ch, unhex1_toNat ch⟩, fun _ _ => rfl,
    fun u b => unhexPairs_hexAll u [b]⟩

/-! ### The places of the bytes (rules R100, R106) -/

/-- The two characters of the `j`-th byte stand at `2 * j`. -/
theorem hexAll_pair (u : Bool) (s : List Byte) (j : Nat) (b : Byte) (h : s[j]? = some b) :
    ((hexAll u s).drop (2 * j)).take 2 = hex2 u b := by
  induction s generalizing j with
  | nil => simp at h
  | cons c s ih =>
    cases j with
    | zero => cases h; rfl
    | succ k => exact ih k h

/-- The characters of the `j`-th value of address, function code, payload and LRC stand after the colon. -/
theorem encAscii_pair (u : Bool) (a f : Byte) (p : List Byte) (j : Nat) (b : Byte)
    (h : (a :: f :: (p ++ [lrc a f p]))[j]? = some b) : ((encAscii u a f p).drop (1 + 2 * j)).take 2 = hex2 u b := by
  have hj : j < p.length + 3 := by
    obtain ⟨hlt, -⟩ := List.getElem?_eq_some_iff.1 h
    simp at hlt; omega
  have hlen := asciiHex_length u a f p
  rw [encAscii_eq, Nat.add_comm, List.drop_succ_cons, List.drop_append_of_le_length (by omega),
    List.take_append_of_le_length (by rw [List.length_drop]; omega)]
  exact hexAll_pair u _ j b h

/-- Settles O24: each value's two characters by its place, the terminator by the length of what stands before it. -/
theorem asciiFrameLayout : Obligations.AsciiFrameLayout := by
  unfold Obligations.AsciiFrameLayout
  intro u a f p
  have hpair := encAscii_pair u a f p
  obtain ⟨hcr, hlf⟩ := getElem?_last_two (asciiHex u a f p) 0x0D 0x0A
  rw [asciiHex_length] at hcr hlf
  refine ⟨encAscii_length u a f p, rfl, hpair 0 a rfl, hpair 1 f rfl, fun j b hb => ?_, ?_, ?_, ?_⟩
  · have hj : j < p.length := (List.getElem?_eq_some_iff.1 hb).1
    have := hpair (j + 2) b (by simpa [List.getElem?_append_left hj] using hb)
    rwa [show 1 + 2 * (j + 2) = 5 + 2 * j by omega] at this
  · have := hpair (p.length + 2) (lrc a f p) (by simp)
    rwa [show 1 + 2 * (p.length + 2) = 5 + 2 * p.length by omega] at this
  · rw [encAscii_eq, show 7 + 2 * p.length = 6 + 2 * p.length + 1 by omega, List.getElem?_cons_succ, hcr]
  · rw [encAscii_eq, show 8 + 2 * p.length = 6 + 2 * p.length + 1 + 1 by omega, List.getElem?_cons_succ, hlf]

/-- Settles O26: the CRC bytes stand behind the frame's other bytes. -/
theorem rtuFrameLayout : Obligations.RtuFrameLayout := by
  unfold Obligations.RtuFrameLayout
  intro a f p
  obtain ⟨hlow, hhigh⟩ := getElem?_last_two (a :: f :: p) ((crc16 ([a, f] ++ p)).extractLsb' 0 8)
    ((crc16 ([a, f] ++ p)).extractLsb' 8 8)
  refine ⟨encRtu_length a f p, rfl, rfl, fun j hj => ?_, ?_, ?_⟩
  · rw [encRtu, Nat.add_comm, List.cons_append, List.cons_append, List.getElem?_cons_succ, List.getElem?_cons_succ,
      List.getElem?_append_left hj]
  · rw [Nat.add_comm]; exact hlow
  · rw [Nat.add_comm]; exact hhigh

/-! ### The case of digits (rules R103, R186) -/

/-- The letter digits in upper case; every other character is unchanged. -/
def upperCase (ch : Byte) : Byte := if 0x61 ≤ ch.toNat ∧ ch.toNat ≤ 0x66 then ch - 0x20 else ch

theorem isHex_upperCase (ch : Byte) : isHex (upperCase ch) = isHex ch := by
  revert ch; decide

theorem unhex1_upperCase (ch : Byte) (h : isHex ch = true) : unhex1 (upperCase ch) = unhex1 ch := by
  revert ch; decide

/-- The value of a hex character is a nibble, whose upper-case character is the one read. -/
theorem hexDigit_unhex1 (ch : Byte) (h : isHex ch = true) :
    (unhex1 ch).toNat ≤ 15 ∧ hexDigit true (unhex1 ch) = upperCase ch := by
  revert ch; decide

/-- A delimiter comes only from itself. -/
theorem upperCase_eq_delimiter (ch d : Byte) (hd : d = 0x3A ∨ d = 0x0D ∨ d = 0x0A) :
    upperCase ch = d ↔ ch = d := by
  rcases hd with rfl | rfl | rfl <;> revert ch <;> decide

/-- Two nibbles put together come apart again. -/
theorem nibbles_of_pair (v w : Byte) (hv : v.toNat ≤ 15) (hw : w.toNat ≤ 15) :
    (v * 16 + w) >>> 4 = v ∧ (v * 16 + w) &&& 0x0F = w := by
  have hsum : (v * 16 + w).toNat = v.toNat * 16 + w.toNat := by
    rw [BitVec.toNat_add, BitVec.toNat_mul, show (16 : Byte).toNat = 16 from rfl]; omega
  constructor
  · refine BitVec.eq_of_toNat_eq ?_
    rw [BitVec.toNat_ushiftRight, hsum, Nat.shiftRight_eq_div_pow]; omega
  · refine BitVec.eq_of_toNat_eq ?_
    rw [BitVec.toNat_and, hsum, show (0x0F : Byte).toNat = 2 ^ 4 - 1 from rfl, Nat.and_two_pow_sub_one_eq_mod]; omega

/-- Writing the values of pairs of hex characters gives the characters in upper case. -/
theorem hexAll_unhexPairs (s : List Byte) (hh : ∀ ch ∈ s, isHex ch = true) (he : s.length % 2 = 0) :
    hexAll true (unhexPairs s) = s.map upperCase := by
  match s with
  | [] => rfl
  | [_] => simp at he
  | c :: d :: rest =>
    obtain ⟨hc, hc'⟩ := hexDigit_unhex1 c (hh c (by simp))
    obtain ⟨hd, hd'⟩ := hexDigit_unhex1 d (hh d (by simp))
    obtain ⟨hhigh, hlow⟩ := nibbles_of_pair _ _ hc hd
    have ih := hexAll_unhexPairs rest (fun ch h => hh ch (by simp [h])) (by simp at he; omega)
    rw [unhexPairs_cons, hexAll_cons, hhigh, hlow, hc', hd', ih]; rfl

/-- Reading does not look at the case. -/
theorem unhexPairs_map_upperCase (s : List Byte) (hh : ∀ ch ∈ s, isHex ch = true) :
    unhexPairs (s.map upperCase) = unhexPairs s := by
  match s with
  | [] | [_] => rfl
  | c :: d :: rest =>
    have ih := unhexPairs_map_upperCase rest (fun ch h => hh ch (by simp [h]))
    rw [List.map_cons, List.map_cons, unhexPairs_cons, unhexPairs_cons, unhex1_upperCase c (hh c (by simp)),
      unhex1_upperCase d (hh d (by simp)), ih]

/-- A body spells a sequence exactly where in upper case it is that sequence in hex. -/
theorem map_upperCase_eq_hexAll_iff (body v : List Byte) :
    body.map upperCase = hexAll true v ↔
      (∀ ch ∈ body, isHex ch = true) ∧ body.length % 2 = 0 ∧ unhexPairs body = v := by
  constructor
  · intro h
    have hh : ∀ ch ∈ body, isHex ch = true := fun ch hch => by
      rw [← isHex_upperCase]
      exact hexAll_isHex true v _ (h ▸ List.mem_map_of_mem hch)
    have hlen : body.length = 2 * v.length := by
      rw [← hexAll_length true v, ← h, List.length_map]
    exact ⟨hh, by omega, by rw [← unhexPairs_map_upperCase body hh, h, unhexPairs_hexAll]⟩
  · rintro ⟨hh, he, rfl⟩
    exact (hexAll_unhexPairs body hh he).symm

/-! ### The ASCII decoder (rules R186, R187) -/

/-- The sequences that decode: delimited hex characters that spell the frame and its own LRC. -/
theorem decodeFrame_ascii_iff (s : List Byte) (q : Parsed) :
    decodeFrame .ascii s = .frame q ↔
      (∃ body, s = 0x3A :: (body ++ [0x0D, 0x0A]) ∧ body.map upperCase = asciiHex true q.addr q.fc q.payload) ∧
        q.check = (lrc q.addr q.fc q.payload).toHalf := by
  rw [decodeFrame_eq_frame_iff, parse, parseAscii_eq_ok_iff]
  constructor
  · rintro ⟨⟨body, l, hb, hv, hl⟩, hc⟩
    obtain ⟨hs, hh, he, -⟩ := (asciiBody_eq_ok_iff s body).1 hb
    obtain rfl : lrc q.addr q.fc q.payload = l := toHalf_injective _ _ (hc.trans hl)
    exact ⟨⟨body, hs, (map_upperCase_eq_hexAll_iff body _).2 ⟨hh, he, hv⟩⟩, hl⟩
  · rintro ⟨⟨body, hs, hbody⟩, hl⟩
    obtain ⟨hh, he, hv⟩ := (map_upperCase_eq_hexAll_iff body _).1 hbody
    have hlen : body.length = 6 + 2 * q.payload.length := by
      rw [← asciiHex_length true q.addr q.fc q.payload, ← hbody, List.length_map]
    exact ⟨⟨body, _, (asciiBody_eq_ok_iff s body).2 ⟨hs, hh, he, by omega⟩, hv, hl⟩, hl.symm⟩

/-- In upper case a sequence is delimited exactly where it is itself. -/
theorem map_upperCase_eq_delimited_iff (s body : List Byte) :
    s.map upperCase = 0x3A :: (body ++ [0x0D, 0x0A]) ↔
      ∃ b, s = 0x3A :: (b ++ [0x0D, 0x0A]) ∧ b.map upperCase = body := by
  constructor
  · intro h
    obtain ⟨c, t, rfl, hc, ht⟩ := List.map_eq_cons_iff.1 h
    obtain ⟨b, e, rfl, hb, he⟩ := List.map_eq_append_iff.1 ht
    obtain ⟨x, e, rfl, hx, he⟩ := List.map_eq_cons_iff.1 he
    obtain ⟨y, e, rfl, hy, he⟩ := List.map_eq_cons_iff.1 he
    obtain rfl := List.map_eq_nil_iff.1 he
    rw [(upperCase_eq_delimiter c _ (by simp)).1 hc, (upperCase_eq_delimiter x _ (by simp)).1 hx,
      (upperCase_eq_delimiter y _ (by simp)).1 hy]
    exact ⟨b, rfl, hb⟩
  · rintro ⟨b, rfl, rfl⟩
    simp [upperCase]

/-- Settles O29, from what the decoder accepts: the case of the delimited characters is what is left free. -/
theorem asciiDecoderExact : Obligations.AsciiDecoderExact := by
  unfold Obligations.AsciiDecoderExact
  intro s q
  change _ ↔ s.map upperCase = _ ∧ _
  rw [decodeFrame_ascii_iff, encAscii_eq, map_upperCase_eq_delimited_iff]
  rfl

end Sys2Proof.Machine
end

section
/-! Proofs of the encoding family, part three: the request that `HANDLE` serves, and the operands that a script
places. -/

namespace Sys2Proof.Machine

/-! ### The instruction of a function code (rules R110, R260, R270) -/

/-- Step 4 of rule R260 is the meaning of the instruction that the function code decodes to. -/
theorem serveRequest_of_decodeFc (f : Byte) (i : Instr) (s : State) (h : decodeFc true f = .ok i) :
    serveRequest f s = exec i s := by
  obtain ⟨hf, -, rfl⟩ := (decodeFc_eq_ok_iff true f i).1 h
  cases i with
  | fcWriteText | fcReadText => rfl
  | fcException low =>
    obtain ⟨h1, h2, -, hlow⟩ := exceptionCode_fields low
    rw [serveRequest, if_neg h1, if_neg h2, hlow]; rfl
  | _ => cases hf

/-- A code that is not defined is answered as the exception response of its low bits. -/
theorem serveRequest_undefined (f : Byte) (s : State) (h : ∀ i, decodeFc true f ≠ .ok i) :
    serveRequest f s = exec (.fcException (f.extractLsb' 0 7)) s := by
  have h1 : f ≠ 0x01 := fun e => h .fcWriteText (e ▸ rfl)
  have h2 : f ≠ 0x02 := fun e => h .fcReadText (e ▸ rfl)
  rw [serveRequest, if_neg h1, if_neg h2]; rfl

/-- Settles O46: the state with the request in DF is the one that step 4 of rule R260 is reached with. -/
theorem handleRunsTheFunctionCode : Obligations.HandleRunsTheFunctionCode := by
  unfold Obligations.HandleRunsTheFunctionCode
  intro s q hq ha
  have hlen : q.payload.length < 65536 := by
    have := payload_length_rx s.mode s q hq
    omega
  obtain ⟨hn, hbytes, -⟩ :=
    loadDf_bytes (s.beginHandle.noteDecode s.mode s.rxBytes) q.addr q.fc q.payload q.check hlen
  have hx := execHandle_request s q hq ha
  refine ⟨_, ?_, hn, hbytes, fun i hi => hx.trans (serveRequest_of_decodeFc _ i _ hi), fun hi => hx.trans ?_⟩
  · apply State.ext <;> simp
  · exact serveRequest_undefined _ _ (by simp [hi])

/-! ### Bytes put into a buffer (rule R126) -/

/-- A buffer after the bytes of a sequence are written at the indices from `k` on. -/
def Memory.putAll (m : Memory) (k : Nat) (s : List Byte) : Memory :=
  match s with
  | [] => m
  | b :: rest => (m.put k b).putAll (k + 1) rest

theorem byteAt?_putAll_below (m : Memory) (k i : Nat) (s : List Byte) (h : i < k) :
    (m.putAll k s).byteAt? i = m.byteAt? i := by
  induction s generalizing m k with
  | nil => rfl
  | cons b s ih => rw [Memory.putAll, ih _ (k + 1) (by omega), byteAt?_put_other _ _ _ _ (by omega)]

/-- The bytes written stand at their indices. -/
theorem byteAt?_putAll (m : Memory) (k i : Nat) (s : List Byte) (h : i < s.length) :
    (m.putAll k s).byteAt? (k + i) = s[i]? := by
  induction s generalizing m k i with
  | nil => simp at h
  | cons b s ih =>
    cases i with
    | zero => rw [Memory.putAll, byteAt?_putAll_below _ _ _ _ (by omega)]; exact byteAt?_put_same m k b
    | succ j =>
      rw [Memory.putAll, show k + (j + 1) = (k + 1) + j by omega, ih _ _ j (by simpa using h)]; rfl

/-- Setting the length to that of the bytes written keeps exactly these. -/
theorem read_setLength_putAll (m : Memory) (d d' : Nat) (s : List Byte) :
    ((m.putAll 0 s).setLength d s.length).read d' s.length = s := by
  refine List.ext_getElem? fun i => ?_
  rcases Nat.lt_or_ge i s.length with hi | hi
  · have hb : (m.putAll 0 s).byteAt? i = some s[i] := by
      have := byteAt?_putAll m 0 i s hi
      rwa [Nat.zero_add, List.getElem?_eq_getElem hi] at this
    rw [read_getElem? _ _ _ _ _ hi (byteAt?_setLength_of_some _ _ _ _ _ hi hb), List.getElem?_eq_getElem hi]
  · rw [List.getElem?_eq_none (by simpa using hi), List.getElem?_eq_none hi]

/-! ### The runs of `PUT` and `SET` (rules R126, R127) -/

/-- The state with other contents in a buffer that the host writes, and other events to come. -/
def State.withBuffer (id : Nat) (m : Memory) (evs : List Event) (s : State) : State :=
  match id with
  | 0 => { s with efPayload := m, inputs := evs }
  | 2 => { s with rxBuf := m, inputs := evs }
  | _ => { s with inputs := evs }

/-- One event of `PUT`: the host writes a byte within the capacity of an idle block's buffer. -/
theorem step_put (s : State) (id i : Nat) (b : Byte) (m : Memory) (evs : List Event) (hid : id = 0 ∨ id = 2)
    (hb : s.busy = false) (hi : i < s.capacity id) :
    step (s.withBuffer id m (.host (.writeBuf id i b) :: evs)) = .next (s.withBuffer id (m.put i b) evs) := by
  rcases hid with rfl | rfl
  · rw [step_of_inputs _ (.host (.writeBuf 0 i b)) evs rfl]
    exact writeBuf_efPayload i b (s.withBuffer 0 m evs) hb hi
  · rw [step_of_inputs _ (.host (.writeBuf 2 i b)) evs rfl]
    exact writeBuf_rxBuf i b (s.withBuffer 2 m evs) hb hi

/-- `PUT` of bytes within the capacity. -/
theorem runSteps_putFrom (s : State) (id k : Nat) (bytes : List Byte) (m : Memory) (evs : List Event)
    (hid : id = 0 ∨ id = 2) (hb : s.busy = false) (hk : k + bytes.length ≤ s.capacity id) :
    runSteps bytes.length (s.withBuffer id m ((putFrom id k bytes).map Event.host ++ evs))
      = .next (s.withBuffer id (m.putAll k bytes) evs) := by
  induction bytes generalizing k m with
  | nil => rfl
  | cons b rest ih =>
    rw [List.length_cons] at hk
    exact (runSteps_succ _ _ _ (step_put s id k b m _ hid hb (by omega))).trans (ih (k + 1) (m.put k b) (by omega))

/-- One event of `SET`: the host writes a register that every block has. -/
theorem step_set (s : State) (n : Nat) (v : Word) (evs : List Event) (hn : n = 6 ∨ n = 10) (hb : s.busy = false)
    (hi : s.inputs = .host (.writeReg n v) :: evs) : step s = .next ({ s with inputs := evs }.writeIdleReg n v) := by
  rw [step_of_inputs s _ evs hi]
  exact writeReg_idle n v _ ((hasRegister_iff _ n).2 (by omega)) (by omega) (by omega) hb

/-- `PUT` of bytes within the capacity and then `SET`. -/
theorem runSteps_put_set (s : State) (id n : Nat) (v : Word) (bytes : List Byte) (m : Memory) (evs : List Event)
    (hid : id = 0 ∨ id = 2) (hn : n = 6 ∨ n = 10) (hb : s.busy = false) (hk : bytes.length ≤ s.capacity id) :
    runSteps (bytes.length + 1) (s.withBuffer id m (scriptEvents [.put id bytes, .set n v] ++ evs))
      = .next ((s.withBuffer id (m.putAll 0 bytes) evs).writeIdleReg n v) := by
  have hevs : scriptEvents [.put id bytes, .set n v] ++ evs
      = (putFrom id 0 bytes).map Event.host ++ (.host (.writeReg n v) :: evs) := by
    simp [scriptEvents, Stmt.accesses]
  have hput := runSteps_putFrom s id 0 bytes m (.host (.writeReg n v) :: evs) hid hb (by omega)
  rw [hevs, runSteps_add _ _ _ _ hput]
  refine runSteps_succ 0 _ _ ?_
  rcases hid with rfl | rfl
  · exact step_set _ n v evs hn hb rfl
  · exact step_set _ n v evs hn hb rfl

/-- The fields of the word that `FRAME` writes to `EF_HDR`. -/
theorem header_parts (len : Half) (fc addr : Byte) :
    (len ++ fc ++ addr : Word).extractLsb' 0 8 = addr ∧ (len ++ fc ++ addr : Word).extractLsb' 8 8 = fc ∧
      (len ++ fc ++ addr : Word).extractLsb' 16 16 = len := by
  refine ⟨BitVec.extractLsb'_append_eq_right, ?_, ?_⟩
  · rw [BitVec.extractLsb'_append_eq_of_le (by decide)]
    exact BitVec.extractLsb'_append_eq_right
  · iterate 2 rw [BitVec.extractLsb'_append_eq_of_le (by decide)]
    exact BitVec.extractLsb'_eq_self

/-- Settles O59: the bytes are put, and the length set after them keeps them. -/
theorem scriptsPlaceOperands : Obligations.ScriptsPlaceOperands := by
  unfold Obligations.ScriptsPlaceOperands
  intro s a f bytes rest hs hb
  obtain ⟨-, hpay, -, hrx⟩ := hs.data.params
  refine ⟨fun hlen hin => ?_, fun hlen hin => ?_⟩
  · have hrun := runSteps_put_set s 0 6 (BitVec.ofNat 16 bytes.length ++ f ++ a) bytes s.efPayload rest
      (.inl rfl) (.inl rfl) hb hlen
    have hstart : s.withBuffer 0 s.efPayload (scriptEvents (stmtFrame a f bytes) ++ rest) = s := by rw [← hin]; rfl
    obtain ⟨haddr, hfc, hl⟩ := header_parts (BitVec.ofNat 16 bytes.length) f a
    have hn := toNat_ofNat16 bytes.length (by omega)
    refine ⟨_, (congrArg _ hstart.symm).trans (hrun.trans (congrArg _ (setEfHdr_legal _ _ ?_))), rfl, haddr, hfc,
      ?_, ?_⟩
    · rw [hl, hn]; exact hlen
    · rw [hl, hn]
    · rw [State.efBytes, hl, hn]; exact read_setLength_putAll _ _ _ _
  · have hrun := runSteps_put_set s 2 10 (BitVec.ofNat 32 bytes.length) bytes s.rxBuf rest
      (.inr rfl) (.inr rfl) hb hlen
    have hstart : s.withBuffer 2 s.rxBuf (scriptEvents (stmtRx bytes) ++ rest) = s := by rw [← hin]; rfl
    have hn : ((BitVec.ofNat 32 bytes.length).setWidth 16).toNat = bytes.length := by
      rw [BitVec.toNat_setWidth, BitVec.toNat_ofNat]; omega
    refine ⟨_, (congrArg _ hstart.symm).trans (hrun.trans (congrArg _ (setRxLen_legal _ _ ?_))), rfl, hn, ?_⟩
    · rw [hn]; exact hlen
    · rw [State.rxBytes, hn]; exact read_setLength_putAll _ _ _ _

end Sys2Proof.Machine
end

section
/-! Proofs of the checksum family: the LRC as a sum, in any order, and the CRC as a shift register that is linear and
moves a burst of bits unchanged into its register. -/

namespace Sys2Proof.Machine

/-! ### The LRC (rules R141 and R143) -/

theorem lrcSum_perm {s t : List Byte} (h : s.Perm t) : lrcSum s = lrcSum t :=
  BitVec.eq_of_toNat_eq (by rw [lrcSum_toNat, lrcSum_toNat, (h.map BitVec.toNat).sum_eq])

theorem lrc_toNat (a f : Byte) (p : List Byte) :
    (lrc a f p).toNat = (256 - (a.toNat + f.toNat + (p.map BitVec.toNat).sum) % 256) % 256 := by
  rw [lrc_eq_neg, BitVec.toNat_neg, lrcSum_toNat, List.map_cons, List.map_cons, List.sum_cons, List.sum_cons,
    Nat.add_assoc]

theorem lrc_eq_lrc_iff (a f a' f' : Byte) (p q : List Byte) :
    lrc a f p = lrc a' f' q ↔ lrcSum (a :: f :: p) = lrcSum (a' :: f' :: q) := by
  rw [lrc_eq_neg, lrc_eq_neg, BitVec.neg_inj]

/-- A byte adds to the sum the same wherever it stands. -/
theorem lrcSum_middle (s t : List Byte) (b : Byte) : lrcSum (s ++ b :: t) = b + lrcSum (s ++ t) := by
  rw [lrcSum_perm List.perm_middle, lrcSum_cons]

/-- One changed byte changes the sum. -/
theorem lrcSum_middle_inj (s t : List Byte) (b c : Byte) : lrcSum (s ++ b :: t) = lrcSum (s ++ c :: t) ↔ b = c := by
  rw [lrcSum_middle, lrcSum_middle, BitVec.add_left_inj]

/-- Settles O17: the sum as a number, negated, and the sum is that of any permutation. -/
theorem lrcFunction : Obligations.LrcFunction := by
  unfold Obligations.LrcFunction
  intro a f p
  refine ⟨lrc_toNat a f p, fun s hs => ?_⟩
  rw [lrc, ← lrcSum_perm hs, lrcSum]

/-- Settles O18: each law of the LRC is the same law of the sum. -/
theorem lrcLaws : Obligations.LrcLaws := by
  unfold Obligations.LrcLaws
  intro a f p q
  refine ⟨?_, ?_, fun hpq => ?_, fun b c hbc => ?_⟩
  · rw [lrc_toNat]; omega
  · rw [lrc_eq_lrc_iff]
    exact (lrcSum_middle (a :: f :: p) q 0).trans (BitVec.zero_add _)
  · rw [lrc_eq_lrc_iff]
    exact lrcSum_perm ((hpq.cons f).cons a)
  · have hsum (s t : List Byte) : lrcSum (s ++ b :: t) ≠ lrcSum (s ++ c :: t) := mt (lrcSum_middle_inj s t b c).1 hbc
    simp only [ne_eq, lrc_eq_lrc_iff]
    exact ⟨hsum [] (f :: p), hsum [a] p, hsum (a :: f :: p) q⟩

/-! ### The loop of rule R146 -/

theorem crcShifts_eq_iterate (n : Nat) (c : Half) : crcShifts n c = Nat.iterate crcShift n c := by
  induction n generalizing c with
  | zero => rfl
  | succ k ih => exact ih (crcShift c)

theorem crcShifts_add (m n : Nat) (c : Half) : crcShifts (m + n) c = crcShifts n (crcShifts m c) := by
  rw [crcShifts_eq_iterate, crcShifts_eq_iterate, crcShifts_eq_iterate, Nat.add_comm, Function.iterate_add_apply]

theorem crcShift_of_odd (c : Half) (h : c.getLsbD 0 = true) : crcShift c = (c >>> 1) ^^^ 0xA001 := if_pos h

theorem crcShift_of_even (c : Half) (h : c.getLsbD 0 = false) : crcShift c = c >>> 1 := if_neg (by rw [h]; decide)

theorem ushiftRight_one_eq_ofNat (c : Half) : c >>> 1 = BitVec.ofNat 16 (c.toNat / 2) := by
  refine BitVec.eq_of_toNat_eq ?_
  rw [BitVec.toNat_ushiftRight, BitVec.toNat_ofNat, Nat.shiftRight_one]
  omega

/-- Settles O19: one byte is eight shifts, one shift is halving and the polynomial. -/
theorem crc16Function : Obligations.Crc16Function := by
  unfold Obligations.Crc16Function
  refine ⟨rfl, fun s b => ?_, fun c => ⟨fun hodd => ?_, fun heven => ?_⟩, ?_⟩
  · rw [crc16_append, List.foldl_cons, List.foldl_nil, crcByte, crcShifts_eq_iterate, Byte.toHalf]
  · rw [crcShift_of_odd c (by simp [BitVec.getLsbD, hodd]), ushiftRight_one_eq_ofNat]
  · rw [crcShift_of_even c (by simp [BitVec.getLsbD, heven]), ushiftRight_one_eq_ofNat]
  · simp [crc16, crcByte, crcShifts, crcShift, Byte.toHalf]

/-! ### The residue (rule R147 (b) and (c)) -/

theorem crc_foldl_zeros (n : Nat) : (List.replicate n 0x00).foldl crcByte 0 = 0 := by
  induction n with
  | zero => rfl
  | succ k ih => rw [List.replicate_succ, List.foldl_cons, show crcByte 0 0 = 0 from crcByte_self 0, ih]

/-- Settles O21: the low CRC byte leaves the high one, and the high one leaves zero. -/
theorem crcResidue : Obligations.CrcResidue := by
  unfold Obligations.CrcResidue
  intro s n
  constructor
  · rw [crc16_append]
    exact crcByte_low (crc16 s)
  · rw [List.append_assoc, crc16_append, List.foldl_append, List.foldl_cons, List.foldl_cons, List.foldl_nil,
      crcByte_low, crcByte_self, crc_foldl_zeros]

/-! ### Bursts (rule R147 (d)) -/

/-- The loop is linear: a shift of a difference is the difference of the shifts. -/
theorem crcShift_xor (c d : Half) : crcShift (c ^^^ d) = crcShift c ^^^ crcShift d := by
  refine BitVec.eq_of_getLsbD_eq fun i _ => ?_
  simp only [BitVec.getLsbD_xor, crcShift_low, Bool.and_xor_distrib_right, Bool.xor_assoc, Bool.xor_left_comm]

theorem crcShifts_xor (n : Nat) (c d : Half) : crcShifts n (c ^^^ d) = crcShifts n c ^^^ crcShifts n d := by
  induction n generalizing c d with
  | zero => rfl
  | succ k ih => rw [crcShifts, crcShift_xor, ih, crcShifts, crcShifts]

theorem toHalf_xor (b e : Byte) : (b ^^^ e).toHalf = b.toHalf ^^^ e.toHalf := BitVec.setWidth_xor

theorem crcByte_xor (c d : Half) (b e : Byte) : crcByte (c ^^^ d) (b ^^^ e) = crcByte c b ^^^ crcByte d e := by
  rw [crcByte, crcByte, crcByte, ← crcShifts_xor, toHalf_xor]
  ac_rfl

/-- Three bytes: the difference of the registers is what the differences of the bytes leave in a register of zero. -/
theorem crc_foldl_xor_three (c : Half) (x y z x' y' z' : Byte) :
    [x ^^^ x', y ^^^ y', z ^^^ z'].foldl crcByte 0 = [x, y, z].foldl crcByte c ^^^ [x', y', z'].foldl crcByte c := by
  simp only [List.foldl_cons, List.foldl_nil]
  rw [← crcByte_xor, ← crcByte_xor, ← crcByte_xor, BitVec.xor_self]
  rfl

/-- The polynomial enters only when a one is shifted out. -/
theorem crcShifts_of_low_zero (n : Nat) (c : Half) (h : ∀ i < n, c.getLsbD i = false) : crcShifts n c = c >>> n := by
  induction n generalizing c with
  | zero => exact (BitVec.ushiftRight_zero c).symm
  | succ k ih =>
    have hlow : ∀ i < k, (c >>> 1).getLsbD i = false := fun i hi => by
      rw [BitVec.getLsbD_ushiftRight]; exact h _ (by omega)
    rw [crcShifts, crcShift_of_even c (h 0 (by omega)), ih _ hlow, ← BitVec.shiftRight_add, Nat.add_comm]

theorem crcShifts_shiftLeft (n : Nat) (c : Half) : crcShifts n (c <<< n) = c <<< n >>> n :=
  crcShifts_of_low_zero n _ fun i hi => by simp [BitVec.getLsbD_shiftLeft, hi]

/-- A half cut into its low `16 - k` bits and its high `k` bits. -/
theorem low_xor_high (w : Half) (k : Nat) (hk : k ≤ 16) :
    (w <<< k >>> k) ^^^ (w >>> (16 - k) <<< (16 - k)) = w := by
  refine BitVec.eq_of_getLsbD_eq fun i hi => ?_
  simp only [BitVec.getLsbD_xor, BitVec.getLsbD_ushiftRight, BitVec.getLsbD_shiftLeft]
  by_cases h : i < 16 - k
  · simp [h, show k + i < 16 by omega]
  · simp [h, hi, show ¬ k + i < 16 by omega, show 16 - k + (i - (16 - k)) = i by omega]

/-- The high `k` bits of a burst may enter the register `16 - k` shifts after its low bits. -/
theorem crcShifts_split (w : Half) (k : Nat) (hk : k ≤ 16) :
    crcShifts 16 (w <<< k) ^^^ w >>> (16 - k) = crcShifts (16 - k) w := by
  have hhigh : crcShifts (16 - k) (w >>> (16 - k) <<< (16 - k)) = w >>> (16 - k) := by
    rw [crcShifts_shiftLeft]
    refine BitVec.eq_of_getLsbD_eq fun i hi => ?_
    simp only [BitVec.getLsbD_ushiftRight, BitVec.getLsbD_shiftLeft]
    by_cases h : 16 - k + i < 16
    · simp [h]
    · simp [h, BitVec.getLsbD_of_ge w (16 - k + i) (by omega)]
  calc crcShifts 16 (w <<< k) ^^^ w >>> (16 - k)
      = crcShifts (k + (16 - k)) (w <<< k) ^^^ w >>> (16 - k) := by rw [Nat.add_sub_cancel' hk]
    _ = crcShifts (16 - k) (w <<< k >>> k) ^^^ crcShifts (16 - k) (w >>> (16 - k) <<< (16 - k)) := by
        rw [crcShifts_add, crcShifts_shiftLeft, hhigh]
    _ = crcShifts (16 - k) w := by rw [← crcShifts_xor, low_xor_high w k hk]

/-- A half from its two bytes, as rule R146 lays them in the register. -/
theorem append_eq_toHalf_xor (x y : Byte) : (y ++ x : Half) = x.toHalf ^^^ y.toHalf <<< 8 := by
  refine BitVec.eq_of_getLsbD_eq fun i hi => ?_
  simp only [Byte.toHalf, BitVec.getLsbD_append, BitVec.getLsbD_xor, BitVec.getLsbD_setWidth, BitVec.getLsbD_shiftLeft]
  by_cases h : i < 8
  · simp [h, hi]
  · simp [h, hi, show i - 8 < 16 by omega, BitVec.getLsbD_of_ge x i (by omega)]

/-- Two bytes into a register of zero are the half they spell, shifted sixteen times. -/
theorem crcByte_two (x y : Byte) : crcByte (crcByte 0 x) y = crcShifts 16 (y ++ x) := by
  rw [append_eq_toHalf_xor, crcShifts_add 8 8, crcShifts_xor, crcShifts_high]
  simp [crcByte]

/-- The first two bytes of a burst hold its low bits. -/
theorem burst_low_bytes (x y z : Byte) (w : Half) (k : Nat) (h : z ++ (y ++ x) = w.setWidth 24 <<< k) :
    (y ++ x : Half) = w <<< k := by
  rw [← BitVec.setWidth_append_eq_right (a := z) (b := y ++ x), h, BitVec.setWidth_shiftLeft_of_le (by decide),
    BitVec.setWidth_setWidth_of_le _ (by decide), BitVec.setWidth_eq]

/-- The third byte of a burst holds the bits that the first two have no room for. -/
theorem burst_high_byte (x y z : Byte) (w : Half) (k : Nat) (hk : k ≤ 8) (h : z ++ (y ++ x) = w.setWidth 24 <<< k) :
    z.toHalf = w >>> (16 - k) := by
  have hz : z = (w.setWidth 24 <<< k).extractLsb' 16 8 := by rw [← h, BitVec.extractLsb'_append_eq_left]
  refine BitVec.eq_of_getLsbD_eq fun i hi => ?_
  simp only [hz, Byte.toHalf, BitVec.getLsbD_setWidth, BitVec.getLsbD_extractLsb', BitVec.getLsbD_shiftLeft,
    BitVec.getLsbD_ushiftRight, show 16 + i - k = 16 - k + i by omega]
  by_cases h8 : i < 8
  · simp [h8, hi, show 16 + i < 24 by omega, show ¬ 16 + i < k by omega, show 16 - k + i < 24 by omega]
  · simp [h8, BitVec.getLsbD_of_ge w (16 - k + i) (by omega)]

/-- A burst of 16 bits at offset `k` leaves in a register of zero what shifting the burst itself leaves. -/
theorem crc_foldl_burst (x y z : Byte) (w : Half) (k : Nat) (hk : k ≤ 8) (h : z ++ y ++ x = w.setWidth 24 <<< k) :
    [x, y, z].foldl crcByte 0 = crcShifts (24 - k) w := by
  have hassoc : z ++ (y ++ x) = w.setWidth 24 <<< k := BitVec.append_assoc'.trans h
  simp only [List.foldl_cons, List.foldl_nil]
  rw [crcByte_two, crcByte, burst_low_bytes x y z w k hassoc, burst_high_byte x y z w k hk hassoc,
    crcShifts_split w k (by omega), ← crcShifts_add]
  congr 1
  omega

/-- Settles O22: a changed byte and a burst leave a difference, and no later byte removes it. -/
theorem crcDetectsBursts : Obligations.CrcDetectsBursts := by
  unfold Obligations.CrcDetectsBursts
  refine ⟨fun s t b c hbc h => ?_, fun s t x y z x' y' z' burst k hburst hk hdiff h => ?_⟩
  · rw [crc16_append, crc16_append] at h
    exact hbc (crcByte_injective_byte _ _ _ (crc_foldl_injective t _ _ h))
  · rw [crc16_append, crc16_append] at h
    have hthree : [x, y, z].foldl crcByte (crc16 s) = [x', y', z'].foldl crcByte (crc16 s) :=
      crc_foldl_injective t _ _ h
    have hzero : crcShifts (24 - k) burst = crcShifts (24 - k) 0 := by
      rw [← crc_foldl_burst _ _ _ _ _ hk hdiff, crc_foldl_xor_three (crc16 s), hthree, BitVec.xor_self,
        crcShifts_zero]
      rfl
    exact hburst (crcShifts_injective _ _ _ hzero)

end Sys2Proof.Machine
end

section
/-! Proofs of the frame encoder family: what the decoder makes of an encoded frame, which sequences the RTU decoder
accepts, and the text that a slave is given and gives back. -/

namespace Sys2Proof.Machine

/-! ### Decode after encode (rule R171) -/

/-- The checks read back the fields of the frame, and the checksum compared is the one the encoder wrote. -/
theorem decodeFrame_encodeFrame (m : Encoding) (upper : Bool) (a f : Byte) (p : List Byte) :
    decodeFrame m (encodeFrame m upper a f p) = .frame ⟨a, f, p, checksum m a f p⟩ :=
  (decodeFrame_eq_frame_iff _ _ _).2 ⟨parse_encodeFrame m upper a f p, rfl⟩

/-- Settles O28, from the fields that the framing checks of each encoding read back. -/
theorem codecRoundTrip : Obligations.CodecRoundTrip := by
  unfold Obligations.CodecRoundTrip
  exact decodeFrame_encodeFrame

/-! ### The RTU decoder (rule R190) -/

theorem parseRtu_of_short (s : List Byte) (h : s.length < 4) : parseRtu s = .error .rtuTooShort := if_pos h

/-- The last two bytes are the CRC, low byte first. -/
theorem parseRtu_fields (a f lo hi : Byte) (p : List Byte) :
    parseRtu (a :: f :: (p ++ [lo, hi])) = .ok ⟨a, f, p, lo.toHalf ||| hi.toHalf <<< 8⟩ := by
  obtain ⟨hlo, hhi⟩ := split_halves lo hi
  exact (parseRtu_eq_ok_iff _ _).2 (by rw [hlo, hhi])

theorem decodeFrame_rtu_of_short (s : List Byte) (h : s.length < 4) :
    decodeFrame .rtu s = .framingError .rtuTooShort :=
  (decodeFrame_eq_framingError_iff _ _ _).2 (parseRtu_of_short s h)

theorem decodeFrame_rtu_fields (a f lo hi : Byte) (p : List Byte) :
    decodeFrame .rtu (a :: f :: (p ++ [lo, hi])) =
      if crc16 (a :: f :: p) = lo.toHalf ||| hi.toHalf <<< 8
      then .frame ⟨a, f, p, lo.toHalf ||| hi.toHalf <<< 8⟩ else .checksumError := by
  rw [decodeFrame, parse, parseRtu_fields]
  rfl

/-- The CRC accepted is the one of the fields, so the bytes are those that the encoder writes. -/
theorem decodeFrame_rtu_iff (s : List Byte) (q : Parsed) :
    decodeFrame .rtu s = .frame q ↔
      s = encRtu q.addr q.fc q.payload ∧ q.check = crc16 (q.addr :: q.fc :: q.payload) := by
  rw [decodeFrame_eq_frame_iff, parse, parseRtu_eq_ok_iff, checksum]
  constructor
  · rintro ⟨hs, hc⟩
    rw [← hc] at hs
    exact ⟨hs, hc.symm⟩
  · rintro ⟨hs, hc⟩
    rw [hc]
    exact ⟨hs, rfl⟩

/-- Settles O31, from the fields that the RTU check reads and the bytes that the encoder writes. -/
theorem rtuDecoderExact : Obligations.RtuDecoderExact := by
  unfold Obligations.RtuDecoderExact
  refine fun s => ⟨decodeFrame_rtu_of_short s, ?_, decodeFrame_rtu_iff s⟩
  rintro a f lo hi p rfl
  exact decodeFrame_rtu_fields a f lo hi p

/-! ### The text given to a slave and read back (rules R264, R266, R272) -/

@[simp] theorem respond_mode (f : Byte) (p : List Byte) (k : Kind) (s : State) :
    (s.respond f p k).mode = s.mode := by simp [State.respond]
@[simp] theorem respond_ownAddr (f : Byte) (p : List Byte) (k : Kind) (s : State) :
    (s.respond f p k).ownAddr = s.ownAddr := by simp [State.respond]

/-- What the master makes of a response. -/
theorem decodeFrame_respond (s : State) (f : Byte) (p : List Byte) (k : Kind) (hp : 9 + 2 * p.length < 65536) :
    decodeFrame s.mode (s.respond f p k).txBytes = .frame ⟨s.dfAddr, f, p, checksum s.mode s.dfAddr f p⟩ := by
  obtain ⟨-, -, -, -, htx⟩ := respond_facts s f p k hp
  rw [htx, decodeFrame_encodeFrame]

/-- A store loaded with a text holds that text, whatever has been drawn since. -/
theorem textBytes_of_loaded (s : State) (p : List Byte) (hp : p.length < 65536) (ht : s.text = Memory.ofBytes p)
    (hl : s.textLen = BitVec.ofNat 16 p.length) : s.textBytes = p := by
  rw [State.textBytes, ht, hl, toNat_ofNat16 _ hp, read_ofBytes]

theorem execFcWriteText_accepted (s : State) (hl : s.dfLen.toNat ≤ s.params.payloadMax)
    (hu : utf8Ok s.params s.dfBytes = true) :
    exec .fcWriteText s = .next ((s.loadText s.dfBytes).respond 0x01 [] .ok) := by
  have hacc : s.textAccepted = true := by simp [State.textAccepted, hl, hu]
  rw [exec, execFcWriteText, if_pos hacc]

/-- A write-text request for this slave whose payload is accepted is answered from the state with the text stored. -/
theorem execHandle_writeText (s : State) (q : Parsed) (hq : decodeFrame s.mode s.rxBytes = .frame q)
    (ha : q.addr = s.ownAddr) (hf : q.fc = 0x01) (hl : q.payload.length ≤ s.params.payloadMax)
    (hu : utf8Ok s.params q.payload = true) :
    ∃ r : State, r.mode = s.mode ∧ r.ownAddr = s.ownAddr ∧ r.dfAddr = s.ownAddr ∧
      exec .handle s = .next ((r.loadText q.payload).respond 0x01 [] .ok) := by
  obtain ⟨r, hr, hlen, hbytes, hx, -⟩ := handleRunsTheFunctionCode s q hq ha
  have hparams : r.params = s.params := by rw [hr]
  refine ⟨r, by rw [hr], by rw [hr], by rw [hr, ← ha], ?_⟩
  rw [hx .fcWriteText (by rw [hf]; rfl),
    execFcWriteText_accepted r (by rw [hlen, hparams]; exact hl) (by rw [hbytes, hparams]; exact hu), hbytes]

/-- A read-text request for this slave is answered with the stored text. -/
theorem execHandle_readText (s : State) (q : Parsed) (hq : decodeFrame s.mode s.rxBytes = .frame q)
    (ha : q.addr = s.ownAddr) (hf : q.fc = 0x02) :
    ∃ r : State, r.mode = s.mode ∧ r.dfAddr = s.ownAddr ∧
      exec .handle s = .next (r.respond 0x02 s.textBytes .ok) := by
  obtain ⟨r, hr, -, -, hx, -⟩ := handleRunsTheFunctionCode s q hq ha
  have htext : r.textBytes = s.textBytes := by rw [hr]; rfl
  refine ⟨r, by rw [hr], by rw [hr, ← ha], ?_⟩
  rw [hx .fcReadText (by rw [hf]; rfl), exec, execFcReadText, htext]

/-- Settles O51: each request decodes to the frame the master encoded, the store holds the text that the first one
brings, and each response decodes to the frame the slave encoded. -/
theorem textIsReadBack : Obligations.TextIsReadBack := by
  unfold Obligations.TextIsReadBack
  intro s u upper upper' p p' hs _ hlen hutf hrx
  obtain ⟨-, hmax, -⟩ := hs.data.params
  have hwrite : decodeFrame s.mode s.rxBytes = .frame ⟨s.ownAddr, 0x01, p, checksum s.mode s.ownAddr 0x01 p⟩ := by
    rw [hrx, decodeFrame_encodeFrame]
  obtain ⟨r, hmode, hown, haddr, hx⟩ := execHandle_writeText s _ hwrite rfl rfl hlen hutf
  refine ⟨_, hx, ?_, fun _ htext htextLen hown' hmode' hrx' => ?_⟩
  · simpa [hmode, haddr] using decodeFrame_respond (r.loadText p) 0x01 [] .ok (by simp)
  · replace hmode' : u.mode = s.mode := by simpa [hmode] using hmode'
    replace hown' : u.ownAddr = s.ownAddr := by simpa [hown] using hown'
    have hread : decodeFrame u.mode u.rxBytes = .frame ⟨s.ownAddr, 0x02, p', checksum s.mode s.ownAddr 0x02 p'⟩ := by
      rw [hmode', hrx', decodeFrame_encodeFrame]
    have hstored : u.textBytes = p :=
      textBytes_of_loaded u p (by omega) (by simpa using htext) (by simpa using htextLen)
    obtain ⟨v, hvmode, hvaddr, hvx⟩ := execHandle_readText u _ hread hown'.symm rfl
    refine ⟨_, hvx, ?_⟩
    rw [hstored, ← hmode', ← hvmode, decodeFrame_respond v 0x02 p .ok (by omega), hvaddr, hown']

end Sys2Proof.Machine
end

section
/-! Proofs of the frame decoder family, part one: no step stops, the silent answers of `HANDLE`, the checks of the ASCII
decoder in their order, and what one changed byte of an encoded frame gives. -/

namespace Sys2Proof.Machine

/-! ### No step stops (rules R180, R244, R318) -/

theorem serveRequest_next (f : Byte) (s : State) : ∃ t, serveRequest f s = .next t := by
  unfold serveRequest
  split
  · exact ⟨_, rfl⟩
  · split <;> exact ⟨_, rfl⟩

theorem exec_next (i : Instr) (s : State) : ∃ t, exec i s = .next t := by
  cases i with
  | handle =>
    rw [exec, execHandle]
    split
    · exact ⟨_, rfl⟩
    · exact ⟨_, rfl⟩
    · split
      · exact serveRequest_next _ _
      · exact ⟨_, rfl⟩
  | _ => exact ⟨_, rfl⟩

theorem issue_next (w : Word) (s : State) : ∃ t, issue w s = .next t := by
  unfold issue
  split
  · exact ⟨_, rfl⟩
  · split
    · exact exec_next _ _
    · exact ⟨_, rfl⟩

theorem writeReg_next (n : Nat) (v : Word) (s : State) : ∃ t, writeReg n v s = .next t := by
  unfold writeReg
  split
  · exact ⟨_, rfl⟩
  · split
    · exact ⟨_, rfl⟩
    · split
      · exact ⟨_, rfl⟩
      · split
        · exact issue_next v s
        · exact ⟨_, rfl⟩

theorem hostAccess_next (a : HostAccess) (s : State) : ∃ t, hostAccess a s = .next t := by
  cases a with
  | writeReg n v => exact writeReg_next n v s
  | _ => exact ⟨_, rfl⟩

theorem coreCycle_next (s : State) : ∃ t, coreCycle s = .next t := by
  unfold coreCycle
  split
  · split
    · exact exec_next _ s
    · exact ⟨_, rfl⟩
  · exact ⟨_, rfl⟩

theorem happen_next (e : Event) (s : State) : ∃ t, happen e s = .next t := by
  cases e with
  | host a => exact hostAccess_next a s
  | cycle a b c => exact coreCycle_next _
  | arrive b => exact ⟨_, rfl⟩
  | reset => exact ⟨_, rfl⟩

/-- Settles O7: the commands answer a next state, and with them every event. -/
theorem everyStepAnswersNext : Obligations.EveryStepAnswersNext := by
  unfold Obligations.EveryStepAnswersNext
  exact ⟨fun s => happen_next s.nextEvent s.takeEvent, exec_next⟩

/-! ### The silent answers of `HANDLE` (rule R262) -/

/-- A verdict that is one of the two errors. -/
theorem decodeFrame_error_kind (m : Encoding) (bs : List Byte) (k : Kind)
    (h : (∃ c, decodeFrame m bs = .framingError c) ∧ k = .framingError ∨
      decodeFrame m bs = .checksumError ∧ k = .checksumError) :
    (∀ q, decodeFrame m bs ≠ .frame q) ∧ (decodeFrame m bs).kind = k := by
  rcases h with ⟨⟨c, hd⟩, rfl⟩ | ⟨hd, rfl⟩
  · exact ⟨by simp [hd], by rw [hd]; rfl⟩
  · exact ⟨by simp [hd], by rw [hd]; rfl⟩

/-- Settles O45, from what `HANDLE` does with bytes that are no frame and with another slave's frame. -/
theorem handleSilence : Obligations.HandleSilence := by
  unfold Obligations.HandleSilence
  refine fun s => ⟨fun k hk => ?_, fun q hq ha => ?_⟩
  · obtain ⟨hbad, hkind⟩ := decodeFrame_error_kind s.mode s.rxBytes k hk
    refine ⟨_, execHandle_bad s hbad, ?_, fun i hi => ?_⟩
    · rw [hkind]
      apply State.ext <;> simp
    · simpa [State.byteAt, State.buffer] using beginHandle_ef s i hi
  · have hlen : q.payload.length < 65536 := by
      have := payload_length_rx s.mode s q hq
      omega
    obtain ⟨hdfLen, hdfBytes, -⟩ :=
      loadDf_bytes (s.beginHandle.noteDecode s.mode s.rxBytes) q.addr q.fc q.payload q.check hlen
    refine ⟨_, execHandle_other s q hq ha, ?_, hdfLen, hdfBytes, fun i hi => ?_⟩
    · apply State.ext <;> simp
    · simpa [State.byteAt, State.buffer] using beginHandle_ef s i hi

/-! ### One changed byte of an RTU frame (rule R198 (a)) -/

theorem crc16_encRtu (a f : Byte) (p : List Byte) : crc16 (encRtu a f p) = 0 := by
  have h := (crcResidue (a :: f :: p) 0).2
  rwa [List.replicate_zero, List.append_nil] at h

/-- A sequence around one of its bytes, before and after that byte is replaced. -/
theorem exists_around_set (s : List Byte) (i : Nat) (b c : Byte) (h : s[i]? = some b) :
    ∃ u v, s = u ++ b :: v ∧ s.set i c = u ++ c :: v := by
  obtain ⟨hi, rfl⟩ := List.getElem?_eq_some_iff.1 h
  obtain ⟨u, v, hs, -, hset⟩ := List.exists_of_set (a' := c) hi
  exact ⟨u, v, hs, hset⟩

theorem crc16_set_ne (s : List Byte) (i : Nat) (b c : Byte) (hb : s[i]? = some b) (hc : c ≠ b) :
    crc16 (s.set i c) ≠ crc16 s := by
  obtain ⟨u, v, hs, hset⟩ := exists_around_set s i b c hb
  rw [hset, hs]
  exact crcDetectsBursts.1 u v c b hc

/-- Four bytes are enough for the RTU decoder to compare the CRC. -/
theorem decodeFrame_rtu_ne_framingError (s : List Byte) (e : FramingCheck) (h : 4 ≤ s.length) :
    decodeFrame .rtu s ≠ .framingError e := by
  rw [ne_eq, decodeFrame_eq_framingError_iff, parse, parseRtu, if_neg (by omega)]
  simp

/-- Settles O33: the CRC of a whole frame is zero, and a changed byte changes it, so no frame is left. -/
theorem rtuFrameFlip : Obligations.RtuFrameFlip := by
  unfold Obligations.RtuFrameFlip
  intro a f p i b c hb hc
  cases hd : decodeFrame .rtu ((encRtu a f p).set i c) with
  | checksumError => rfl
  | framingError e => exact absurd hd (decodeFrame_rtu_ne_framingError _ e (by simp))
  | frame q =>
    obtain ⟨hs, -⟩ := (decodeFrame_rtu_iff _ q).1 hd
    have hne := crc16_set_ne _ i b c hb hc
    rw [hs, crc16_encRtu, crc16_encRtu] at hne
    exact absurd rfl hne

/-! ### The checks of the ASCII decoder (rule R186) -/

/-- The pairs of characters one by one (rule R186 step 6). -/
theorem unhexPairs_eq_map (s : List Byte) :
    unhexPairs s =
      (List.range (s.length / 2)).map (fun j => unhex1 (s.getD (2 * j) 0) * 16 + unhex1 (s.getD (2 * j + 1) 0)) := by
  match s with
  | [] => rfl
  | [_] => simp [unhexPairs]
  | c :: d :: s =>
    rw [unhexPairs_cons, unhexPairs_eq_map s,
      show (c :: d :: s).length / 2 = s.length / 2 + 1 by simp only [List.length_cons]; omega, List.range_succ_eq_map,
      List.map_cons, List.map_map]
    rfl

/-- A colon, hex characters that spell the fields of a frame, and the terminator: only the LRC is left to compare. -/
theorem decodeFrame_ascii_delimited (body : List Byte) (a f l : Byte) (p : List Byte)
    (hhex : ∀ ch ∈ body, isHex ch = true) (heven : body.length % 2 = 0)
    (hv : unhexPairs body = a :: f :: (p ++ [l])) :
    decodeFrame .ascii (0x3A :: (body ++ [0x0D, 0x0A])) =
      if lrc a f p = l then .frame ⟨a, f, p, l.toHalf⟩ else .checksumError := by
  have hlen : 6 ≤ body.length := by
    have h := unhexPairs_length body
    rw [hv] at h
    simp at h
    omega
  have hparse : parseAscii (0x3A :: (body ++ [0x0D, 0x0A])) = .ok ⟨a, f, p, l.toHalf⟩ :=
    (parseAscii_eq_ok_iff _ _).2 ⟨body, l, (asciiBody_eq_ok_iff _ _).2 ⟨rfl, hhex, heven, hlen⟩, hv, rfl⟩
  have hcheck : checksum .ascii a f p = l.toHalf ↔ lrc a f p = l := ⟨toHalf_injective _ _, congrArg Byte.toHalf⟩
  simp only [decodeFrame, parse, hparse, hcheck]

theorem decodeFrame_ascii_of_check (s : List Byte) (c : FramingCheck) (h : asciiBody s = .error c) :
    decodeFrame .ascii s = .framingError c := by
  rw [decodeFrame_eq_framingError_iff, parse, parseAscii, h]

/-- Settles O30: the checks are the branches of `asciiBody`; what passes them is delimited hex characters. -/
theorem asciiDecoderSteps : Obligations.AsciiDecoderSteps := by
  unfold Obligations.AsciiDecoderSteps
  intro s n body step1 step2 step3 step4 step5
  have hany : body.any (fun ch => !isHex ch) = true ↔ step3 := by simp [step3]
  have hbody : asciiBody s =
      if step1 then .error .noColon else if step2 then .error .noTerminator
      else if body.any (fun ch => !isHex ch) then .error .notHex else if step4 then .error .oddDigits
      else if step5 then .error .tooShort else .ok body := rfl
  simp only [hany] at hbody
  refine ⟨fun h1 => ?_, fun h1 h2 => ?_, fun h1 h2 h3 => ?_, fun h1 h2 h3 h4 => ?_, fun h1 h2 h3 h4 h5 => ?_,
    fun h1 h2 h3 h4 h5 => ?_⟩
  · exact decodeFrame_ascii_of_check s _ (by rw [hbody, if_pos h1])
  · exact decodeFrame_ascii_of_check s _ (by rw [hbody, if_neg h1, if_pos h2])
  · exact decodeFrame_ascii_of_check s _ (by rw [hbody, if_neg h1, if_neg h2, if_pos h3])
  · exact decodeFrame_ascii_of_check s _ (by rw [hbody, if_neg h1, if_neg h2, if_neg h3, if_pos h4])
  · exact decodeFrame_ascii_of_check s _ (by rw [hbody, if_neg h1, if_neg h2, if_neg h3, if_neg h4, if_pos h5])
  · rw [if_neg h1, if_neg h2, if_neg h3, if_neg h4, if_neg h5] at hbody
    obtain ⟨hs, hhex, heven, hlen⟩ := (asciiBody_eq_ok_iff s body).1 hbody
    have hv := fields_eq (unhexPairs body) (by rw [unhexPairs_length]; omega)
    refine ⟨_, _, _, _, hv.symm.trans (unhexPairs_eq_map body), ?_⟩
    rw [hs]
    exact decodeFrame_ascii_delimited body _ _ _ _ hhex heven hv

/-! ### One changed byte or character of an ASCII frame (rule R198 (b), (c)) -/

theorem lrc_eq_iff_lrcSum (a f l : Byte) (p : List Byte) : lrc a f p = l ↔ lrcSum (a :: f :: (p ++ [l])) = 0 := by
  have hsum : lrcSum (a :: f :: (p ++ [l])) = lrcSum (a :: f :: p) + l := by
    rw [← List.cons_append, ← List.cons_append, lrcSum_append, lrcSum_cons l, lrcSum_nil]
    simp
  rw [lrc_eq_neg, hsum]
  bv_omega

theorem lrcSum_set_ne (s : List Byte) (i : Nat) (b c : Byte) (hb : s[i]? = some b) (hc : c ≠ b) :
    lrcSum (s.set i c) ≠ lrcSum s := by
  obtain ⟨u, v, hs, hset⟩ := exists_around_set s i b c hb
  rw [hset, hs]
  exact mt (lrcSum_middle_inj u v c b).1 hc

/-- Delimited hex characters whose values do not sum to zero. -/
theorem decodeFrame_ascii_of_sum_ne (body : List Byte) (hhex : ∀ ch ∈ body, isHex ch = true)
    (heven : body.length % 2 = 0) (hlen : 6 ≤ body.length) (hsum : lrcSum (unhexPairs body) ≠ 0) :
    decodeFrame .ascii (0x3A :: (body ++ [0x0D, 0x0A])) = .checksumError := by
  have hv := fields_eq (unhexPairs body) (by rw [unhexPairs_length]; omega)
  rw [decodeFrame_ascii_delimited body _ _ _ _ hhex heven hv, if_neg]
  rwa [lrc_eq_iff_lrcSum, ← hv]

theorem lrcSum_asciiHex (u : Bool) (a f : Byte) (p : List Byte) : lrcSum (unhexPairs (asciiHex u a f p)) = 0 := by
  rw [asciiHex, unhexPairs_hexAll, ← lrc_eq_iff_lrcSum]

/-- A delimited character that is no hex digit. -/
theorem decodeFrame_ascii_of_not_hex (body : List Byte) (h : ∃ ch ∈ body, isHex ch = false) :
    decodeFrame .ascii (0x3A :: (body ++ [0x0D, 0x0A])) = .framingError .notHex := by
  have hlen : (0x3A :: (body ++ [0x0D, 0x0A]) : List Byte).length = body.length + 3 := by simp
  obtain ⟨hcr, hlf⟩ := getElem?_last_two body 0x0D 0x0A
  obtain ⟨-, -, hstep, -⟩ := asciiDecoderSteps (0x3A :: (body ++ [0x0D, 0x0A]))
  refine hstep ?_ ?_ ?_
  · simp
  · rw [hlen, show body.length + 3 - 2 = body.length + 1 by omega,
      show body.length + 3 - 1 = body.length + 1 + 1 by omega, List.getElem?_cons_succ,
      List.getElem?_cons_succ, hcr, hlf]
    simp
  · simpa using h

/-- A character of the same value in place of another. -/
theorem unhexPairs_set_same (s : List Byte) (j : Nat) (ch ch' : Byte) (h : s[j]? = some ch)
    (hv : unhex1 ch' = unhex1 ch) : unhexPairs (s.set j ch') = unhexPairs s := by
  match s, j with
  | [], _ => rfl
  | [_], 0 => rfl
  | [_], _ + 1 => rfl
  | x :: y :: s, 0 =>
    obtain rfl : x = ch := by simpa using h
    simp [unhexPairs_cons, hv]
  | x :: y :: s, 1 =>
    obtain rfl : y = ch := by simpa using h
    simp [unhexPairs_cons, hv]
  | x :: y :: s, k + 2 =>
    rw [List.set_cons_succ, List.set_cons_succ, unhexPairs_cons, unhexPairs_cons,
      unhexPairs_set_same s k ch ch' (by simpa using h) hv]

theorem times_sixteen_inj (v w : Byte) (hv : v.toNat ≤ 15) (hw : w.toNat ≤ 15) (h : v * 16 = w * 16) : v = w := by
  bv_omega

/-- A hex digit of another value in place of one changes the sum of the values. -/
theorem lrcSum_unhexPairs_set_ne (s : List Byte) (j : Nat) (ch ch' : Byte) (heven : s.length % 2 = 0)
    (h : s[j]? = some ch) (hch : isHex ch = true) (hch' : isHex ch' = true) (hv : unhex1 ch' ≠ unhex1 ch) :
    lrcSum (unhexPairs (s.set j ch')) ≠ lrcSum (unhexPairs s) := by
  match s, j with
  | [], _ => simp at h
  | [_], _ => simp at heven
  | x :: y :: s, 0 =>
    obtain rfl : x = ch := by simpa using h
    simp only [List.set_cons_zero, unhexPairs_cons, lrcSum_cons, ne_eq, BitVec.add_left_inj]
    exact mt (times_sixteen_inj _ _ (hexDigit_unhex1 _ hch').1 (hexDigit_unhex1 _ hch).1) hv
  | x :: y :: s, 1 =>
    obtain rfl : y = ch := by simpa using h
    simpa [unhexPairs_cons, lrcSum_cons] using hv
  | x :: y :: s, k + 2 =>
    have ih := lrcSum_unhexPairs_set_ne s k ch ch' (by simp only [List.length_cons] at heven; omega) (by simpa using h)
      hch hch' hv
    simpa [unhexPairs_cons, lrcSum_cons] using ih

/-- A character between the colon and the terminator, and the frame with another in its place. -/
theorem encAscii_set (u : Bool) (a f : Byte) (p : List Byte) (j : Nat) (ch ch' : Byte) (hj : j < 6 + 2 * p.length)
    (h : (encAscii u a f p)[j + 1]? = some ch) :
    (asciiHex u a f p)[j]? = some ch ∧
      (encAscii u a f p).set (j + 1) ch' = 0x3A :: ((asciiHex u a f p).set j ch' ++ [0x0D, 0x0A]) := by
  have hlt : j < (asciiHex u a f p).length := by rwa [asciiHex_length]
  rw [encAscii_eq] at h ⊢
  rw [List.getElem?_cons_succ, List.getElem?_append_left hlt] at h
  exact ⟨h, by rw [List.set_cons_succ, List.set_append_left _ _ hlt]⟩

/-- A changed address, function-code or payload byte before the original LRC. -/
theorem hexAll_set_append_lrc (u : Bool) (a f l c : Byte) (p : List Byte) (i : Nat) (hi : i < (a :: f :: p).length) :
    hexAll u ((a :: f :: p).set i c) ++ hex2 u l = hexAll u ((a :: f :: (p ++ [l])).set i c) := by
  rw [← List.cons_append, ← List.cons_append, List.set_append_left _ _ hi, hexAll_append]
  rfl

/-- Settles O34: the values of a whole frame sum to zero, and a changed byte or digit changes the sum. -/
theorem asciiFrameFlip : Obligations.AsciiFrameFlip := by
  unfold Obligations.AsciiFrameFlip
  refine fun u a f p i => ⟨fun b c hb hc => ?_, fun ch ch' hpos hend hch => ?_⟩
  · have hi : i < (a :: f :: p).length := (List.getElem?_eq_some_iff.1 hb).1
    have hb' : (a :: f :: (p ++ [lrc a f p]))[i]? = some b := by
      rw [← List.cons_append, ← List.cons_append, List.getElem?_append_left hi, hb]
    have hsum := lrcSum_set_ne _ i b c hb' hc
    rw [(lrc_eq_iff_lrcSum a f _ p).1 rfl] at hsum
    rw [hexAll_set_append_lrc u a f _ c p i hi]
    exact decodeFrame_ascii_of_sum_ne _ (hexAll_isHex u _) (by simp) (by simp; omega) (by rwa [unhexPairs_hexAll])
  · obtain ⟨j, rfl⟩ : ∃ j, i = j + 1 := ⟨i - 1, by omega⟩
    obtain ⟨hj, hset⟩ := encAscii_set u a f p j ch ch' (by omega) hch
    rw [hset]
    have hlt : j < (asciiHex u a f p).length := (List.getElem?_eq_some_iff.1 hj).1
    have hhex : ∀ x ∈ asciiHex u a f p, isHex x = true := hexAll_isHex u _
    have hhex' (h : isHex ch' = true) : ∀ x ∈ (asciiHex u a f p).set j ch', isHex x = true := fun x hx =>
      (List.mem_or_eq_of_mem_set hx).elim (hhex x) fun e => e ▸ h
    have hlen : ((asciiHex u a f p).set j ch').length = 6 + 2 * p.length := by simp
    refine ⟨fun h => ?_, fun h hv => ?_, fun h hv => ?_⟩
    · exact decodeFrame_ascii_of_not_hex _ ⟨ch', List.mem_set hlt ch', h⟩
    · have hsum := lrcSum_unhexPairs_set_ne _ j ch ch' (by simp) hj (hhex ch (List.mem_of_getElem? hj)) h hv
      rw [lrcSum_asciiHex] at hsum
      exact decodeFrame_ascii_of_sum_ne _ (hhex' h) (by omega) (by omega) hsum
    · have hfields : unhexPairs ((asciiHex u a f p).set j ch') = a :: f :: (p ++ [lrc a f p]) := by
        rw [unhexPairs_set_same _ j ch ch' hj hv, asciiHex, unhexPairs_hexAll]
      rw [decodeFrame_ascii_delimited _ a f _ p (hhex' h) (by omega) hfields, if_pos rfl]
      rfl

end Sys2Proof.Machine
end

section
/-! Proofs of the frame decoder family, part two: a transaction whose first good answer comes within the retry bound. -/

namespace Sys2Proof.Machine

/-! ### The state in which an answer is checked -/

theorem checkState_sameEf (s : State) (rx : List Byte) (rest : List Event) (tm : Word) :
    SameEf s (checkState s rx rest tm) := by
  constructor <;> simp [checkState, linkBuild]

theorem checkState_linking (i : Instr) (s : State) (rx : List Byte) (rest : List Event) (tm : Word) (h : Linking i s) :
    Linking i (checkState s rx rest tm) := by
  obtain ⟨hb, hd, hc, hf, ht⟩ := linkBuild_linking i s h
  exact ⟨hb, hd, hc, hf, ht⟩

theorem checkState_data (s : State) (rx : List Byte) (rest : List Event) (tm : Word) (h : s.DataInv)
    (hmax : rx.length ≤ s.params.rxMax) : (checkState s rx rest tm).DataInv := by
  have hw := h.params
  have hn : (BitVec.ofNat 16 rx.length).toNat = rx.length := toNat_ofNat16 _ (by omega)
  have hp : (linkBuild s).params = s.params := by simp [linkBuild]
  exact
    { linkBuild_data s h with
      rxLen := by rw [checkState, hn, hp]; exact hmax
      rxBuf := by rw [checkState, hn, hp]; exact fits_ofBytes rx _ hmax }

theorem checkState_rxBytes (s : State) (rx : List Byte) (rest : List Event) (tm : Word) (h : rx.length < 65536) :
    (checkState s rx rest tm).rxBytes = rx := by
  rw [State.rxBytes, checkState, toNat_ofNat16 _ h, read_ofBytes]

theorem checkState_attempts (s : State) (rx : List Byte) (rest : List Event) (tm : Word) (h : s.attempts.toNat < 256) :
    (checkState s rx rest tm).attempts.toNat = s.attempts.toNat + 1 := by
  rw [checkState, linkBuild, BitVec.toNat_add]
  simp
  omega

/-! ### The check of a bad answer with retries left (rule R228) -/

/-- `t` builds the next attempt of the link command `i`, after one checked in `s` that failed because of `c`. -/
structure Retried (i : Instr) (c : Cause) (s t : State) : Prop where
  linking : Linking i t
  build : t.teState = .build
  cause : t.cause = c
  retryCnt : t.retryCnt = s.retryCnt + 1
  retries : t.retries = s.retries
  timeout : t.timeout = s.timeout
  inputs : t.inputs = s.inputs

theorem linkFail_retried (i : Instr) (c : Cause) (s : State) (h : Linking i s) (hr : s.retryCnt ≠ s.retries) :
    Retried i c s (linkFail c s) := by
  obtain ⟨hb, hd, hc, hf, ht⟩ := h
  rw [linkFail, if_neg hr]
  exact ⟨⟨hb, hd, hc, hf, ht⟩, rfl, rfl, rfl, rfl, rfl, rfl⟩

theorem failedBy_of_frame (m : Encoding) (bs : List Byte) (q : Parsed) (h : decodeFrame m bs = .frame q) :
    failedBy m bs = none := by
  have hne : bs ≠ [] := by rintro rfl; exact decodeFrame_nil m q h
  rw [failedBy, if_neg hne, h]

theorem linkCheck_retried (i : Instr) (fin : State → State) (s : State) (c : Cause) (h : Linking i s)
    (hf : failedBy s.mode s.rxBytes = some c) (hr : s.retryCnt ≠ s.retries) : Retried i c s (linkCheck fin s) := by
  rw [linkCheck_failed fin s c hf]
  split
  · exact linkFail_retried i c s h hr
  · have hbad : ∀ q, decodeFrame s.mode s.rxBytes ≠ .frame q := by
      intro q hq
      rw [failedBy_of_frame _ _ q hq] at hf
      cases hf
    have hk := linkFail_retried i c _ (loseDf_linking i s s.mode s.rxBytes h hbad) (by simpa using hr)
    exact
      { hk with
        retryCnt := by simpa using hk.retryCnt
        retries := by simpa using hk.retries
        timeout := by simpa using hk.timeout
        inputs := by simpa using hk.inputs }

/-! ### Between two attempts -/

/-- The link command `i` is about to build its request again, after `k` failed attempts from the state `r` on. -/
structure AfterFailures (i : Instr) (r : State) (k : Nat) (t : State) : Prop where
  linking : Linking i t
  build : t.teState = .build
  data : t.DataInv
  sameEf : SameEf r t
  timeout : t.timeout = r.timeout
  retries : t.retries = r.retries
  retryCnt : t.retryCnt.toNat = k
  attempts : t.attempts.toNat = k
  txStream : t.txStream = r.txStream ++ (List.replicate k r.request).flatten
  rxStream : t.rxStream = []

/-- The events of an attempt depend on the request, the size of `RXBUF` and `TIMEOUT`. -/
theorem attemptEvents_congr (s t : State) (hq : t.request = s.request) (hp : t.params = s.params)
    (ht : t.timeout = s.timeout) : attemptEvents t = attemptEvents s := by
  funext rx
  simp only [attemptEvents, hq, hp, ht]

theorem SameEf.trans {s t u : State} (h : SameEf s t) (k : SameEf t u) : SameEf s u :=
  ⟨k.params.trans h.params, k.mode.trans h.mode, k.efAddr.trans h.efAddr, k.efFc.trans h.efFc, k.efLen.trans h.efLen,
    k.efPayload.trans h.efPayload⟩

section

variable {i : Instr} {pre fin : State → State} {r t : State} {k : Nat} {rx : List Byte} {rest : List Event}

/-- One more attempt, up to the check of its answer. -/
theorem AfterFailures.run_attempt (h : AfterFailures i r k t) (hr : r.DataInv)
    (hexec : ∀ u, exec i u = .next (linkStep pre fin u)) (hmax : rx.length ≤ r.params.rxMax)
    (htm : r.timeout ≠ 0) (hin : t.inputs = attemptEvents r rx ++ rest) :
    ∃ tm, runSteps (attemptEvents r rx).length t = .next (linkCheck fin (checkState t rx rest tm)) ∧
      (checkState t rx rest tm).mode = r.mode ∧ (checkState t rx rest tm).rxBytes = rx ∧
      (checkState t rx rest tm).txStream = r.txStream ++ (List.replicate (k + 1) r.request).flatten := by
  have hreq := h.sameEf.request hr
  have hev : attemptEvents t = attemptEvents r := attemptEvents_congr r t hreq h.sameEf.params h.timeout
  have hw := hr.params
  obtain ⟨tm, hrun⟩ := Machine.run_attempt pre fin t rx rest h.data ⟨h.linking.busy, i, h.linking.cmd, hexec⟩ h.build
    h.rxStream (by rwa [h.sameEf.params]) (.inl (by rwa [h.timeout])) (by rwa [hev])
  refine ⟨tm, by rwa [← hev], (h.sameEf.trans (checkState_sameEf t rx rest tm)).mode,
    checkState_rxBytes t rx rest tm (by omega), ?_⟩
  show t.txStream ++ t.request = _
  rw [h.txStream, hreq, List.replicate_succ', List.flatten_append, List.flatten_singleton, List.append_assoc]

/-- A bad answer with retries left: the next attempt is built. -/
theorem AfterFailures.run_bad (h : AfterFailures i r k t) (hr : r.DataInv)
    (hexec : ∀ u, exec i u = .next (linkStep pre fin u)) (hfin : fin = id ∨ fin = State.setTextFlags)
    (hk : k < r.retries.toNat) (hmax : rx.length ≤ r.params.rxMax) (htm : r.timeout ≠ 0)
    (hbad : failedBy r.mode rx ≠ none) (hin : t.inputs = attemptEvents r rx ++ rest) :
    ∃ u, runSteps (attemptEvents r rx).length t = .next u ∧ AfterFailures i r (k + 1) u ∧
      some u.cause = failedBy r.mode rx ∧ u.inputs = rest := by
  obtain ⟨c, hc⟩ := Option.ne_none_iff_exists'.1 hbad
  obtain ⟨tm, hrun, hmode, hrx, htx⟩ := h.run_attempt hr hexec hmax htm hin
  have hretries := r.retries.isLt
  have hcount : (checkState t rx rest tm).retryCnt = t.retryCnt := by simp [checkState, linkBuild]
  have hbound : (checkState t rx rest tm).retries = t.retries := by simp [checkState, linkBuild]
  have hleft : (checkState t rx rest tm).retryCnt ≠ (checkState t rx rest tm).retries := by
    rw [hcount, hbound, h.retries]
    intro e
    have := h.retryCnt
    rw [e] at this
    omega
  have hretry := linkCheck_retried i fin _ c (checkState_linking i t rx rest tm h.linking)
    (by rw [hmode, hrx, hc]) hleft
  obtain ⟨hkeep, -⟩ := linkCheck_keeps fin hfin (checkState t rx rest tm)
  refine ⟨_, hrun, ?_, by rw [hretry.cause, hc], hretry.inputs⟩
  exact
    { linking := hretry.linking
      build := hretry.build
      data := linkCheck_data fin (by rcases hfin with rfl | rfl; exacts [fun _ h => h, fun _ h => h.setTextFlags]) _
        (checkState_data t rx rest tm h.data (by rwa [h.sameEf.params]))
      sameEf := (h.sameEf.trans (checkState_sameEf t rx rest tm)).trans hkeep.toSameEf
      timeout := hretry.timeout.trans (by simpa [checkState, linkBuild] using h.timeout)
      retries := hretry.retries.trans (hbound.trans h.retries)
      retryCnt := by
        rw [hretry.retryCnt, hcount, BitVec.toNat_add, h.retryCnt]
        simp
        omega
      attempts := by
        rw [hkeep.attempts, checkState_attempts _ _ _ _ (by rw [h.attempts]; omega), h.attempts]
      txStream := hkeep.txStream.trans htx
      rxStream := hkeep.rxStream.trans (by simpa [checkState, linkBuild] using h.rxStream) }

/-- Bad answers within the retry bound, one attempt each. -/
theorem AfterFailures.run_all_bad (h : AfterFailures i r 0 r)
    (hexec : ∀ u, exec i u = .next (linkStep pre fin u)) (hfin : fin = id ∨ fin = State.setTextFlags)
    (htm : r.timeout ≠ 0) (bad : List (List Byte)) (hlen : bad.length ≤ r.retries.toNat)
    (hmax : ∀ rx ∈ bad, rx.length ≤ r.params.rxMax) (hbad : ∀ rx ∈ bad, failedBy r.mode rx ≠ none)
    (hin : r.inputs = bad.flatMap (attemptEvents r) ++ rest) :
    ∃ u, runSteps (bad.flatMap (attemptEvents r)).length r = .next u ∧ AfterFailures i r bad.length u ∧
      some u.cause = (bad.getLast?).elim (some r.cause) (failedBy r.mode) ∧ u.inputs = rest := by
  induction bad using List.reverseRecOn generalizing rest with
  | nil => exact ⟨r, rfl, h, rfl, hin⟩
  | append_singleton bad rx ih =>
    simp only [List.forall_mem_append, List.forall_mem_singleton] at hmax hbad
    simp only [List.flatMap_append, List.flatMap_singleton, List.append_assoc, List.length_append,
      List.length_singleton] at hin hlen ⊢
    obtain ⟨u, hrun, hu, -, huin⟩ := ih (by omega) hmax.1 hbad.1 hin
    obtain ⟨v, hrun', hv, hcause, hvin⟩ := hu.run_bad h.data hexec hfin (by omega) hmax.2 htm hbad.2 huin
    exact ⟨v, by rw [runSteps_add _ _ _ _ hrun, hrun'], hv, by simpa using hcause, hvin⟩

/-- A good answer: the command completes with its frame (rules R196, R230, R236). -/
theorem AfterFailures.run_good (h : AfterFailures i r k t) (hr : r.DataInv)
    (hexec : ∀ u, exec i u = .next (linkStep pre fin u)) (hk : k ≤ r.retries.toNat)
    (hmax : rx.length ≤ r.params.rxMax) (htm : r.timeout ≠ 0) (q : Parsed) (hq : decodeFrame r.mode rx = .frame q)
    (hin : t.inputs = attemptEvents r rx ++ rest) :
    ∃ v : State, runSteps (attemptEvents r rx).length t
        = .next ((fin (v.loadDf q.addr q.fc q.payload q.check)).complete .ok) ∧
      v.attempts.toNat = k + 1 ∧ v.txStream = r.txStream ++ (List.replicate (k + 1) r.request).flatten ∧
      v.rxStream = [] ∧ v.cause = t.cause ∧ v.params = r.params ∧ v.textValid = false ∧ v.utf8Err = false ∧
      v.inputs = rest := by
  obtain ⟨tm, hrun, hmode, hrx, htx⟩ := h.run_attempt hr hexec hmax htm hin
  have hretries := r.retries.isLt
  have hgood : failedBy (checkState t rx rest tm).mode (checkState t rx rest tm).rxBytes = none := by
    rw [hmode, hrx, failedBy_of_frame _ _ q hq]
  obtain ⟨-, q', hq', hcheck⟩ := linkCheck_succeeded fin _ hgood
  rw [hmode, hrx, hq] at hq'
  cases hq'
  rw [hcheck] at hrun
  obtain ⟨hvalid, herr⟩ := (checkState_linking i t rx rest tm h.linking).noText
  refine ⟨_, hrun, ?_, by simpa using htx, ?_, ?_, ?_, by simpa using hvalid, by simpa using herr, ?_⟩
  · rw [noteDecode_attempts, checkState_attempts _ _ _ _ (by rw [h.attempts]; omega), h.attempts]
  · simpa [checkState, linkBuild] using h.rxStream
  · simp [checkState, linkBuild]
  · simpa using (h.sameEf.trans (checkState_sameEf t rx rest tm)).params
  · simp [checkState]

/-- Bad answers within the retry bound and then a good one. -/
theorem AfterFailures.run_to_success (h : AfterFailures i r 0 r)
    (hexec : ∀ u, exec i u = .next (linkStep pre fin u)) (hfin : fin = id ∨ fin = State.setTextFlags)
    (htm : r.timeout ≠ 0) (bad : List (List Byte)) (good : List Byte) (q : Parsed)
    (hlen : bad.length ≤ r.retries.toNat) (hmax : ∀ rx ∈ bad, rx.length ≤ r.params.rxMax)
    (hbad : ∀ rx ∈ bad, failedBy r.mode rx ≠ none) (hgmax : good.length ≤ r.params.rxMax)
    (hq : decodeFrame r.mode good = .frame q)
    (hin : r.inputs = (bad ++ [good]).flatMap (attemptEvents r) ++ rest) :
    ∃ v : State, runSteps ((bad ++ [good]).flatMap (attemptEvents r)).length r
        = .next ((fin (v.loadDf q.addr q.fc q.payload q.check)).complete .ok) ∧
      v.attempts.toNat = bad.length + 1 ∧
      v.txStream = r.txStream ++ (List.replicate (bad.length + 1) r.request).flatten ∧ v.rxStream = [] ∧
      some v.cause = (bad.getLast?).elim (some r.cause) (failedBy r.mode) ∧ v.params = r.params ∧
      v.textValid = false ∧ v.utf8Err = false ∧ v.inputs = rest := by
  simp only [List.flatMap_append, List.flatMap_singleton, List.append_assoc, List.length_append] at hin ⊢
  obtain ⟨u, hrun, hu, hcause, huin⟩ := h.run_all_bad hexec hfin htm bad hlen hmax hbad hin
  obtain ⟨v, hrun', hattempts, htx, hrx, hvcause, hrest⟩ := hu.run_good h.data hexec hlen hgmax htm q hq huin
  exact ⟨v, by rw [runSteps_add _ _ _ _ hrun, hrun'], hattempts, htx, hrx, by rwa [hvcause], hrest⟩

end

/-! ### From the write to `CMD` (rules R26, R216) -/

/-- The state that the acceptance of a link command leaves. -/
def linkAccepted (i : Instr) (s : State) : State :=
  linkStart (State.prepared i) (s.accept ((encode i).setWidth 8) (decodesFrame i))

theorem linkAccepted_keeps (i : Instr) (s : State) :
    (linkAccepted i s).params = s.params ∧ (linkAccepted i s).mode = s.mode ∧
      (linkAccepted i s).timeout = s.timeout ∧ (linkAccepted i s).retries = s.retries ∧
      (linkAccepted i s).txStream = s.txStream ∧ (linkAccepted i s).rxStream = s.rxStream ∧
      (linkAccepted i s).inputs = s.inputs ∧ (linkAccepted i s).cause = .none := by
  unfold linkAccepted
  rcases prepared_cases i with h | h | h <;> rw [h] <;> exact ⟨rfl, rfl, rfl, rfl, rfl, rfl, rfl, rfl⟩

/-- No attempt has been made yet. -/
theorem afterFailures_linkAccepted (i : Instr) (s : State) (hi : i = .execute ∨ i = .writeText ∨ i = .readText)
    (hs : s.DataInv) (hte : s.teState = .idle) (hrx : s.rxStream = []) :
    AfterFailures i (linkAccepted i s) 0 (linkAccepted i s) := by
  obtain ⟨hd, hl⟩ := decodeCmd_encode_link i hi s.params.hasRd
  have hlink := accept_linking s _ i (decodeCmd_latched _ _ _ hd) hl
  have hcounts : Linking i (linkAccepted i s) ∧ (linkAccepted i s).retryCnt = 0 ∧ (linkAccepted i s).attempts = 0 := by
    obtain ⟨h1, h2, h3, h4, h5⟩ := hlink
    unfold linkAccepted
    rcases prepared_cases i with h | h | h <;> rw [h] <;> exact ⟨⟨h1, h2, h3, h4, h5⟩, rfl, rfl⟩
  obtain ⟨-, -, -, -, -, hkrx, -⟩ := linkAccepted_keeps i s
  exact
    { linking := hcounts.1
      build := rfl
      data := exec_data i _ _ (hs.accept _ _) (exec_link_accepted i _ _ s hi hte)
      sameEf := ⟨rfl, rfl, rfl, rfl, rfl, rfl⟩
      timeout := rfl
      retries := rfl
      retryCnt := by rw [hcounts.2.1]; rfl
      attempts := by rw [hcounts.2.2]; rfl
      txStream := by simp
      rxStream := hkrx.trans hrx }

theorem hostAccess_link_command (i : Instr) (s : State) (hi : i = .execute ∨ i = .writeText ∨ i = .readText)
    (hb : s.busy = false) (hte : s.teState = .idle) :
    hostAccess (.writeReg 0 (encode i)) s = .next (linkAccepted i s) := by
  obtain ⟨hd, hl⟩ := decodeCmd_encode_link i hi s.params.hasRd
  rw [writeReg_cmd _ s hb, issue_link _ s i hd hl, exec_link_accepted i _ _ s hi hte]
  rfl

/-- What an attempt sends, and the events of one, are settled before the host's write. -/
theorem attempt_linkAccepted (i : Instr) (s : State) :
    (linkAccepted i s.takeEvent).request = (s.prepared i).request ∧
      attemptEvents (linkAccepted i s.takeEvent) = attemptEvents (s.prepared i) := by
  have hreq : (linkAccepted i s.takeEvent).request = (s.prepared i).request :=
    (accept_request i _ _ s.takeEvent).trans (by cases i <;> rfl)
  obtain ⟨hparams, -, htimeout, -⟩ := linkAccepted_keeps i s.takeEvent
  have hprep : (s.prepared i).params = s.params ∧ (s.prepared i).timeout = s.timeout := by cases i <;> exact ⟨rfl, rfl⟩
  exact ⟨hreq, attemptEvents_congr _ _ hreq (hparams.trans hprep.1.symm) (htimeout.trans hprep.2.symm)⟩

/-- Settles O43: the write to `CMD`, then an attempt for each bad answer, then the good one. -/
theorem transactionSucceeds : Obligations.TransactionSucceeds := by
  unfold Obligations.TransactionSucceeds
  intro s i bad good q rest hi hinv hb hrx hlen htm hmax hbad hgmax hq hin
  have hte := hinv.control.idle hb
  have hpayload : q.payload.length < 65536 := by
    have := payload_length_le _ _ q ((decodeFrame_eq_frame_iff _ _ q).1 hq).1
    have := hinv.data.params
    omega
  obtain ⟨pre, fin, -, hfin, hexec⟩ := exec_link i hi
  have hstep : step s = .next (linkAccepted i s.takeEvent) := by
    rw [step_host s _ (by rw [State.nextEvent, hin]; rfl)]
    exact hostAccess_link_command i s.takeEvent hi hb hte
  have hstart := afterFailures_linkAccepted i s.takeEvent hi hinv.data.takeEvent hte hrx
  obtain ⟨hparams, hmode, htimeout, hretries, htx, -, hinputs, hcause⟩ := linkAccepted_keeps i s.takeEvent
  obtain ⟨hreq, hev⟩ := attempt_linkAccepted i s
  replace hinputs := hinputs.trans (congrArg List.tail hin)
  rw [List.tail_cons, ← hev] at hinputs
  rw [← hev, ← hreq, Nat.add_comm, runSteps_succ _ _ _ hstep]
  generalize linkAccepted i s.takeEvent = r at *
  simp only [State.takeEvent] at hparams hmode htimeout hretries htx
  rw [← hparams] at hmax hgmax
  rw [← hmode] at hbad hq
  obtain ⟨v, hrun, hattempts, hvtx, hvrx, hvcause, hvparams, hvalid, herr, hvin⟩ :=
    hstart.run_to_success hexec (by tauto) (by rwa [htimeout]) bad good q (by rwa [hretries]) hmax hbad hgmax hq hinputs
  rw [hcause, hmode] at hvcause
  rw [htx] at hvtx
  obtain ⟨hdfLen, hdfBytes, -⟩ := loadDf_bytes v q.addr q.fc q.payload q.check hpayload
  refine ⟨_, hrun, ?_⟩
  rcases hfin with ⟨rfl, rfl⟩ | ⟨hne, rfl⟩
  · refine ⟨hvin, rfl, rfl, rfl, rfl, hattempts, hvtx, hvrx, hvcause, rfl, rfl, rfl, hdfLen, hdfBytes, rfl, rfl, ?_⟩
    simp [hdfBytes, hvparams, hparams]
  · refine ⟨hvin, rfl, rfl, rfl, rfl, hattempts, hvtx, hvrx, hvcause, rfl, rfl, rfl, hdfLen, hdfBytes, rfl, rfl, ?_⟩
    simp [hne, hvalid, herr]

end Sys2Proof.Machine
end

section
/-! Proofs of the transaction family, part one: the cycles of `BUILD`, `SEND` and `CHECK`. -/

namespace Sys2Proof.Machine

/-! ### `BUILD` and `SEND` (rules R218, R220) -/

/-- Settles O35, from the frame built in `TXBUF`. -/
theorem buildStep : Obligations.BuildStep := by
  unfold Obligations.BuildStep
  intro s i hi ht hw hl
  obtain ⟨pre, fin, -, -, hx⟩ := exec_link i hi
  have hlen : 9 + 2 * s.efBytes.length < 65536 := by rw [efBytes_length]; omega
  obtain ⟨htxLen, htxBytes⟩ := buildFrame_bytes s.mode s.efAddr s.efFc s.efBytes s hlen
  refine ⟨linkBuild s, by rw [hx, linkStep_build _ _ _ ht], ?_, htxLen, htxBytes⟩
  apply State.ext <;> simp [linkBuild]

/-- Settles O36: the byte on offer taken or not taken, and the window that opens behind the last one. -/
theorem sendStep : Obligations.SendStep := by
  unfold Obligations.SendStep
  intro s i hi ht
  obtain ⟨pre, fin, -, -, hx⟩ := exec_link i hi
  have hsend : exec i s = .next (linkSend s) := by rw [hx, linkStep_send _ _ _ ht]
  rw [hsend]
  refine ⟨by simp [State.rxReady, ht], fun hp => ?_, fun hp => ?_⟩
  · obtain ⟨hv, hd⟩ := txData_offered s ht hp
    have hoffer : linkSend s = if s.txReady then sendByte s else s := if_pos hp
    rw [hoffer, hd]
    refine ⟨hv, fun b hb => ?_, fun hr => by rw [if_pos hr]; rfl, fun hr => by rw [hr]; rfl⟩
    rw [State.txNext, show s.txBuf.byteAt? s.txPtr.toNat = some b from hb, Option.getD_some]
  · have hend : ¬ s.txPtr < s.txLen := by simp [hp]
    exact ⟨by simp [State.txValid, hend], openWindow s, by rw [linkSend, if_neg hend], rfl⟩

/-! ### `CHECK` (rules R226, R228, R230, R236) -/

/-- The check of a failed attempt, in a state without a frame: DF, the working registers and the draws take some values,
and what rule R228 says follows. -/
theorem linkCheck_failed_eq (fin : State → State) (s : State) (c : Cause) (h : failedBy s.mode s.rxBytes = some c)
    (hv : s.dfValid = false) (he : s.exc = false) :
    ∃ a f l p x y d, linkCheck fin s = linkFail c
      { s with dfAddr := a, dfFc := f, dfLen := l, dfPayload := p, lrcAcc := x, crcReg := y, draws := d } := by
  rw [linkCheck_failed fin s c h]
  split
  · exact ⟨s.dfAddr, s.dfFc, s.dfLen, s.dfPayload, s.lrcAcc, s.crcReg, s.draws, rfl⟩
  · have hbad : ∀ q, decodeFrame s.mode s.rxBytes ≠ .frame q := by
      intro q hq
      rw [failedBy_of_frame _ _ q hq] at h
      cases h
    rw [receive_bad _ s _ hbad]
    generalize hu : (s.noteDecode s.mode s.rxBytes).loseDf = u
    refine ⟨u.dfAddr, u.dfFc, u.dfLen, u.dfPayload, u.lrcAcc, u.crcReg, u.draws, congrArg (linkFail c) ?_⟩
    subst hu
    apply State.ext <;> simp [hv, he]

theorem linkFail_last (c : Cause) (s : State) (h : s.retryCnt = s.retries) :
    linkFail c s = { s with cause := c }.complete .timeoutError := if_pos h

theorem linkFail_retry (c : Cause) (s : State) (h : s.retryCnt ≠ s.retries) :
    linkFail c s = { s with cause := c, retryCnt := s.retryCnt + 1, teState := .build } := if_neg h

/-- A retry that is left can be counted. -/
theorem retryCnt_next (s : State) (hle : s.retryCnt.toNat ≤ s.retries.toNat) (hne : s.retryCnt ≠ s.retries) :
    s.retryCnt.toNat < s.retries.toNat ∧ (s.retryCnt + 1).toNat = s.retryCnt.toNat + 1 := by
  have hlt : s.retryCnt.toNat ≠ s.retries.toNat := fun e => hne (BitVec.eq_of_toNat_eq e)
  have := s.retries.isLt
  refine ⟨by omega, ?_⟩
  rw [BitVec.toNat_add]
  simp
  omega

/-- While a command that decodes runs, `EXC` is 0: there is no frame. -/
theorem Linking.exc {i : Instr} {s : State} (h : Linking i s) (hs : s.DataInv) : s.exc = false := by
  rw [hs.exc, h.noFrame, Bool.false_and]

/-- Settles O38: the check of a failed attempt without retries left, and with one. -/
theorem failedAttempt : Obligations.FailedAttempt := by
  unfold Obligations.FailedAttempt
  intro s i c h hb hc ht hf
  have hrun : s.teState ≠ .idle := by simp [ht]
  obtain ⟨j, hj, hlink⟩ := linking_of_running s h.control hrun
  obtain rfl : j = i := Except.ok.inj (hlink.cmd.symm.trans hc)
  obtain ⟨pre, fin, -, -, hx⟩ := exec_link j (isLink_cases j hj)
  obtain ⟨a, f, l, p, x, y, d, hcheck⟩ := linkCheck_failed_eq fin s c hf hlink.noFrame (hlink.exc h.data)
  have hexec : exec j s = .next (linkCheck fin s) := by rw [hx, linkStep_check _ _ _ ht]
  rw [hexec, hcheck]
  refine ⟨fun he => ⟨_, congrArg _ (linkFail_last c _ he), rfl, hlink.noFrame, ?_⟩,
    fun hne => ⟨_, congrArg _ (linkFail_retry c _ hne), rfl, ?_⟩⟩
  · rw [← he]
    exact h.control.attemptsRun (.inr (.inr ht))
  · obtain ⟨hlt, hnext⟩ := retryCnt_next s (h.control.retryCnt hrun) hne
    exact ⟨hnext, hnext.trans_le hlt⟩

/-- Settles O39, from the check of an attempt that succeeds. -/
theorem successfulAttempt : Obligations.SuccessfulAttempt := by
  unfold Obligations.SuccessfulAttempt
  intro s i q hi ht _ hq
  obtain ⟨pre, fin, -, hfin, hx⟩ := exec_link i hi
  obtain ⟨-, q', hq', hcheck⟩ := linkCheck_succeeded fin s (failedBy_of_frame _ _ q hq)
  obtain rfl : q = q' := Verdict.frame.inj (hq.symm.trans hq')
  have hlen : q.payload.length < 65536 := by
    have := payload_length_rx s.mode s q hq
    omega
  obtain ⟨hdfLen, hdfBytes, -⟩ := loadDf_bytes (s.noteDecode s.mode s.rxBytes) q.addr q.fc q.payload q.check hlen
  refine ⟨_, by rw [hx, linkStep_check _ _ _ ht, hcheck], ?_⟩
  rcases hfin with ⟨rfl, rfl⟩ | ⟨hne, rfl⟩
  · refine ⟨?_, hdfLen, hdfBytes⟩
    apply State.ext <;> simp [hdfBytes]
  · refine ⟨?_, hdfLen, hdfBytes⟩
    apply State.ext <;> simp [hne]

end Sys2Proof.Machine
end

section
/-! Proofs of the transaction family, part two: the table of the sequencer. -/

namespace Sys2Proof.Machine

/-! ### What a host access and a local command do to `TE_STATE` -/

theorem writeIdleReg_teState (n : Nat) (v : Word) (s : State) : (s.writeIdleReg n v).teState = s.teState := by
  unfold State.writeIdleReg
  split
  case h_4 => unfold State.setOwnAddr; split <;> rfl
  case h_5 => unfold State.setEfHdr; split <;> rfl
  case h_6 => unfold State.setRxLen; split <;> rfl
  all_goals rfl

/-- The words of the link commands (rule R120). -/
theorem decodeCmd_link_word (r : Bool) (w : Word) (i : Instr) (h : decodeCmd r w = .ok i) (hl : isLink i = true) :
    w = 0x05 ∨ w = 0x06 ∨ w = 0x07 := by
  obtain ⟨-, -, rfl⟩ := (decodeCmd_eq_ok_iff r w i).1 h
  rcases isLink_cases i hl with rfl | rfl | rfl <;> decide

/-- An idle block that a write to `CMD` takes out of `IDLE` has accepted a link command (rule R216). -/
theorem issue_leaves_idle (w : Word) (s t : State) (ht : s.teState = .idle) (e : issue w s = .next t)
    (hne : t.teState ≠ s.teState) : (w = 0x05 ∨ w = 0x06 ∨ w = 0x07) ∧ t.teState = .build := by
  cases hd : decodeCmd s.params.hasRd w with
  | error r =>
    rw [issue_illegal w s (by simp [hd])] at e
    cases e
    exact absurd ht.symm hne
  | ok i =>
    cases hl : isLink i with
    | false =>
      rw [issue_local w s i hd hl] at e
      cases e
      exact absurd rfl hne
    | true =>
      rw [issue_link w s i hd hl, exec_link_accepted i _ _ s (isLink_cases i hl) ht] at e
      cases e
      exact ⟨decodeCmd_link_word _ w i hd hl, rfl⟩

/-- A host access changes `TE_STATE` only by the acceptance of a link command. -/
theorem hostEffect_teState (a : HostAccess) (s t : State) (h : s.ControlInv) (e : HostEffect s a t)
    (hne : t.teState ≠ s.teState) :
    (∃ w, a = .writeReg 0 w ∧ (w = 0x05 ∨ w = 0x06 ∨ w = 0x07)) ∧ s.busy = false ∧ s.teState = .idle ∧
      t.teState = .build := by
  cases e with
  | command w _ hb hi =>
    have hidle := h.idle hb
    obtain ⟨hw, ht⟩ := issue_leaves_idle w s t hidle hi hne
    exact ⟨⟨w, rfl, hw⟩, hb, hidle, ht⟩
  | register n v _ => exact absurd (writeIdleReg_teState n v s) hne
  | _ => exact absurd rfl hne

/-- A command that is no link command completes in the cycle that runs it. -/
theorem exec_local_teState (i : Instr) (s t : State) (hl : isLink i = false) (e : exec i s = .next t) :
    t.teState = .idle := by
  cases i with
  | lrc | crc16 | encAscii | encRtu | decAscii | decRtu => cases e; rfl
  | execute | writeText | readText => cases hl
  | handle => exact (execHandle_completed s t e).facts.2.1
  | fcWriteText => exact (serveRequest_completed 0x01 s t e).facts.2.1
  | fcReadText => exact (serveRequest_completed 0x02 s t e).facts.2.1
  | fcException low => cases e; rfl

/-! ### The rows of the table (rule R248) -/

/-- The rows of the table of rule R248 that a cycle of a link command can take, from `s` to `t`. -/
inductive SequencerRow (s t : State) : Prop
  | build (hs : s.teState = .build) (ht : t.teState = .send)
  | send (hs : s.teState = .send) (hp : s.txPtr = s.txLen) (ht : t.teState = .wait)
  | wait (hs : s.teState = .wait) (hw : s.rxLen.toNat = s.params.rxMax ∨ s.timer = s.timeout) (ht : t.teState = .check)
  | success (hs : s.teState = .check) (hf : failedBy s.mode s.rxBytes = none) (ht : t.teState = .idle)
      (hk : t.result = .ok)
  | exhausted (hs : s.teState = .check) (hf : failedBy s.mode s.rxBytes ≠ none) (hr : s.retryCnt = s.retries)
      (ht : t.teState = .idle) (hk : t.result = .timeoutError)
  | retry (hs : s.teState = .check) (hf : failedBy s.mode s.rxBytes ≠ none) (hr : s.retryCnt.toNat < s.retries.toNat)
      (ht : t.teState = .build)

theorem linkSend_row (s : State) (h : s.ControlInv) (hs : s.teState = .send) (hne : (linkSend s).teState ≠ s.teState) :
    SequencerRow s (linkSend s) := by
  unfold linkSend at hne ⊢
  split at hne
  · split at hne <;> exact absurd rfl hne
  · next hp =>
    have hle := h.txPtr hs
    rw [BitVec.lt_def] at hp
    rw [if_neg (by rwa [BitVec.lt_def])]
    exact .send hs (BitVec.eq_of_toNat_eq (by omega)) rfl

/-- A window that is not open is closed by its last byte or by the timeout. -/
theorem linkWait_row (s : State) (h : s.Inv) (hs : s.teState = .wait) (hne : (linkWait s).teState ≠ s.teState) :
    SequencerRow s (linkWait s) := by
  by_cases ho : s.windowOpen = true
  · obtain ⟨buf, n, str, e⟩ := takeByte_eq s
    rw [linkWait, if_pos ho, countTick_eq, e] at hne
    exact absurd rfl hne
  · have hlen := h.data.rxLen
    have htm := h.control.timer (.inl hs)
    rw [linkWait, if_neg ho]
    refine .wait hs ?_ rfl
    rw [windowOpen_iff, not_and_or] at ho
    refine ho.imp (by omega) fun ht => BitVec.eq_of_toNat_eq (by omega)

theorem linkCheck_row (fin : State → State) (s : State) (h : s.Inv) (hs : s.teState = .check) :
    SequencerRow s (linkCheck fin s) := by
  cases hf : failedBy s.mode s.rxBytes with
  | none =>
    obtain ⟨-, q, -, hcheck⟩ := linkCheck_succeeded fin s hf
    rw [hcheck]
    exact .success hs hf rfl rfl
  | some c =>
    have hrun : s.teState ≠ .idle := by simp [hs]
    have hfail : failedBy s.mode s.rxBytes ≠ none := by simp [hf]
    obtain ⟨i, -, hlink⟩ := linking_of_running s h.control hrun
    obtain ⟨a, f, l, p, x, y, d, hcheck⟩ := linkCheck_failed_eq fin s c hf hlink.noFrame (hlink.exc h.data)
    rw [hcheck]
    by_cases hr : s.retryCnt = s.retries
    · rw [linkFail_last]
      exacts [.exhausted hs hfail hr rfl rfl, hr]
    · rw [linkFail_retry]
      exacts [.retry hs hfail (retryCnt_next s (h.control.retryCnt hrun) hr).1 rfl, hr]

/-- A cycle of a link command that changes `TE_STATE` takes a row of the table. -/
theorem linkStep_row (pre fin : State → State) (s : State) (h : s.Inv) (hrun : s.teState ≠ .idle)
    (hne : (linkStep pre fin s).teState ≠ s.teState) : SequencerRow s (linkStep pre fin s) := by
  cases hs : s.teState with
  | idle => exact absurd hs hrun
  | build => rw [linkStep_build _ _ _ hs]; exact .build hs rfl
  | send => rw [linkStep_send _ _ _ hs] at hne ⊢; exact linkSend_row s h.control hs hne
  | wait => rw [linkStep_wait _ _ _ hs] at hne ⊢; exact linkWait_row s h hs hne
  | check => rw [linkStep_check _ _ _ hs]; exact linkCheck_row fin s h hs

/-- Settles O40, by the event of the step; a cycle of a link command takes a row of the table. -/
theorem sequencerTransitions : Obligations.SequencerTransitions := by
  unfold Obligations.SequencerTransitions
  intro s t h e hne
  rcases step_cases s t h.control e with ⟨a, hev, hx⟩ | ⟨a, b, c, -, -, rfl⟩ | ⟨a, b, c, i, -, -, -, hl, hidle, hx⟩ |
      ⟨a, b, c, i, hev, hb, -, hl, hrun, hx⟩ | ⟨b, -, rfl⟩ | ⟨hev, rfl⟩
  · obtain ⟨⟨w, rfl, hw⟩, hrest⟩ :=
      hostEffect_teState a s.takeEvent t { h.control with } (hostAccess_effect a _ t hx) hne
    exact .inr (.inl ⟨⟨w, hev, hw⟩, hrest⟩)
  · exact absurd rfl hne
  · exact absurd ((exec_local_teState i _ t hl hx).trans hidle.symm) hne
  · obtain ⟨pre, fin, -, -, hlink⟩ := exec_link i (isLink_cases i hl)
    rw [hlink] at hx
    cases hx
    refine .inr (.inr ⟨⟨a, b, c, hev⟩, hb, ?_⟩)
    cases linkStep_row pre fin _ (cycle_inv a b c s h) hrun hne with
    | build hs ht => exact .inl ⟨hs, ht⟩
    | send hs hp ht => exact .inr (.inl ⟨hs, hp, ht⟩)
    | wait hs hw ht => exact .inr (.inr (.inl ⟨hs, hw, ht⟩))
    | success hs hf ht hk => exact .inr (.inr (.inr (.inl ⟨hs, hf, ht, hk⟩)))
    | exhausted hs hf hr ht hk => exact .inr (.inr (.inr (.inr (.inl ⟨hs, hf, hr, ht, hk⟩))))
    | retry hs hf hr ht => exact .inr (.inr (.inr (.inr (.inr ⟨hs, hf, hr, ht⟩))))
  · exact absurd rfl hne
  · exact .inl ⟨hev, rfl⟩

end Sys2Proof.Machine
end

section
/-! Proofs of the transaction family, part three: a transaction whose answers are all bad. -/

namespace Sys2Proof.Machine

/-! ### The check of an answer -/

/-- The link command `i` is about to check the answer `rx`, after `k` failed attempts from the state `r` on. -/
structure Checking (i : Instr) (r : State) (k : Nat) (rx : List Byte) (s : State) : Prop where
  linking : Linking i s
  data : s.DataInv
  sameEf : SameEf r s
  rxBytes : s.rxBytes = rx
  timeout : s.timeout = r.timeout
  retries : s.retries = r.retries
  retryCnt : s.retryCnt.toNat = k
  attempts : s.attempts.toNat = k + 1
  txStream : s.txStream = r.txStream ++ (List.replicate (k + 1) r.request).flatten
  rxStream : s.rxStream = []

/-- The command begun in `r` has used up its attempts and failed, the last time because of `c`. -/
structure Exhausted (r : State) (c : Cause) (t : State) : Prop where
  busy : t.busy = false
  done : t.done = true
  idle : t.teState = .idle
  result : t.result = .timeoutError
  cause : t.cause = c
  attempts : t.attempts.toNat = r.retries.toNat + 1
  txStream : t.txStream = r.txStream ++ (List.replicate (r.retries.toNat + 1) r.request).flatten
  noFrame : t.dfValid = false
  noText : t.textValid = false ∧ t.utf8Err = false

section

variable {i : Instr} {pre fin : State → State} {r s t : State} {k : Nat} {rx : List Byte} {rest : List Event}
  {c : Cause}

/-- One more attempt, up to the check of its answer; with `TIMEOUT = 0` the answer is empty (rule R240). -/
theorem AfterFailures.run_to_check (h : AfterFailures i r k t) (hr : r.DataInv)
    (hexec : ∀ u, exec i u = .next (linkStep pre fin u)) (hk : k ≤ r.retries.toNat)
    (hmax : rx.length ≤ r.params.rxMax) (htm : r.timeout = 0 → rx = []) (hin : t.inputs = attemptEvents r rx ++ rest) :
    ∃ s, runSteps (attemptEvents r rx).length t = .next (linkCheck fin s) ∧ Checking i r k rx s ∧ s.inputs = rest := by
  have hreq := h.sameEf.request hr
  have hev : attemptEvents t = attemptEvents r := attemptEvents_congr r t hreq h.sameEf.params h.timeout
  have hmax' : rx.length ≤ t.params.rxMax := by rwa [h.sameEf.params]
  have hw := hr.params
  have hretries := r.retries.isLt
  obtain ⟨tm, hrun⟩ := Machine.run_attempt pre fin t rx rest h.data ⟨h.linking.busy, i, h.linking.cmd, hexec⟩ h.build
    h.rxStream hmax' (by rw [h.timeout]; tauto) (by rwa [hev])
  refine ⟨checkState t rx rest tm, by rwa [← hev], ?_, rfl⟩
  exact
    { linking := checkState_linking i t rx rest tm h.linking
      data := checkState_data t rx rest tm h.data hmax'
      sameEf := h.sameEf.trans (checkState_sameEf t rx rest tm)
      rxBytes := checkState_rxBytes t rx rest tm (by omega)
      timeout := by simpa [checkState, linkBuild] using h.timeout
      retries := by simpa [checkState, linkBuild] using h.retries
      retryCnt := by simpa [checkState, linkBuild] using h.retryCnt
      attempts := by rw [checkState_attempts _ _ _ _ (by rw [h.attempts]; omega), h.attempts]
      txStream := by
        show t.txStream ++ t.request = _
        rw [h.txStream, hreq, List.replicate_succ', List.flatten_append, List.flatten_singleton, List.append_assoc]
      rxStream := by simpa [checkState, linkBuild] using h.rxStream }

/-- A bad answer with retries left: the next attempt is built (rule R228). -/
theorem Checking.retry (h : Checking i r k rx s) (hfin : fin = id ∨ fin = State.setTextFlags)
    (hk : k < r.retries.toNat) (hbad : failedBy r.mode rx = some c) :
    AfterFailures i r (k + 1) (linkCheck fin s) ∧ (linkCheck fin s).inputs = s.inputs := by
  have hne : s.retryCnt ≠ s.retries := by
    intro e
    have := h.retryCnt
    rw [e, h.retries] at this
    omega
  have hnext := (retryCnt_next s (by rw [h.retryCnt, h.retries]; omega) hne).2
  have hretry := linkCheck_retried i fin s c h.linking (by rwa [h.sameEf.mode, h.rxBytes]) hne
  obtain ⟨hkeep, -⟩ := linkCheck_keeps fin hfin s
  have hfinData : ∀ u : State, u.DataInv → (fin u).DataInv := by
    rcases hfin with rfl | rfl
    exacts [fun _ h => h, fun _ h => h.setTextFlags]
  refine ⟨?_, hretry.inputs⟩
  exact
    { linking := hretry.linking
      build := hretry.build
      data := linkCheck_data fin hfinData s h.data
      sameEf := h.sameEf.trans hkeep.toSameEf
      timeout := hretry.timeout.trans h.timeout
      retries := hretry.retries.trans h.retries
      retryCnt := by rw [hretry.retryCnt, hnext, h.retryCnt]
      attempts := by rw [hkeep.attempts, h.attempts]
      txStream := hkeep.txStream.trans h.txStream
      rxStream := hkeep.rxStream.trans h.rxStream }

/-- A bad answer to the last attempt: the command completes with `TIMEOUT_ERROR` (rule R228). -/
theorem Checking.exhaust (fin : State → State) (h : Checking i r r.retries.toNat rx s)
    (hbad : failedBy r.mode rx = some c) :
    Exhausted r c (linkCheck fin s) ∧ (linkCheck fin s).inputs = s.inputs := by
  have hlast : s.retryCnt = s.retries := BitVec.eq_of_toNat_eq (by rw [h.retryCnt, h.retries])
  obtain ⟨a, f, l, p, x, y, d, hcheck⟩ := linkCheck_failed_eq fin s c (by rwa [h.sameEf.mode, h.rxBytes])
    h.linking.noFrame (h.linking.exc h.data)
  rw [hcheck, linkFail_last]
  exacts [⟨⟨rfl, rfl, rfl, rfl, rfl, h.attempts, h.txStream, h.linking.noFrame, h.linking.noText⟩, rfl⟩, hlast]

/-- Bad answers to all the attempts that are left. -/
theorem AfterFailures.run_to_exhaustion (h : AfterFailures i r k t) (hr : r.DataInv)
    (hexec : ∀ u, exec i u = .next (linkStep pre fin u)) (hfin : fin = id ∨ fin = State.setTextFlags)
    (hk : k ≤ r.retries.toNat) (bad : List (List Byte)) (hlen : k + bad.length = r.retries.toNat + 1)
    (hmax : ∀ rx ∈ bad, rx.length ≤ r.params.rxMax) (hbad : ∀ rx ∈ bad, failedBy r.mode rx ≠ none)
    (htm : r.timeout = 0 → ∀ rx ∈ bad, rx = []) (hin : t.inputs = bad.flatMap (attemptEvents r) ++ rest) :
    ∃ v rx c, runSteps (bad.flatMap (attemptEvents r)).length t = .next v ∧ Exhausted r c v ∧ v.inputs = rest ∧
      bad.getLast? = some rx ∧ failedBy r.mode rx = some c := by
  induction bad generalizing k t with
  | nil =>
    simp at hlen
    omega
  | cons rx more ih =>
    simp only [List.forall_mem_cons] at hmax hbad htm
    simp only [List.flatMap_cons, List.append_assoc, List.length_append, List.length_cons] at hin hlen ⊢
    obtain ⟨c, hc⟩ := Option.ne_none_iff_exists'.1 hbad.1
    obtain ⟨s, hrun, hs, hsin⟩ := h.run_to_check hr hexec hk hmax.1 (fun h0 => (htm h0).1) hin
    rw [runSteps_add _ _ _ _ hrun]
    cases more with
    | nil =>
      obtain rfl : k = r.retries.toNat := by simpa using hlen
      obtain ⟨hv, hvin⟩ := hs.exhaust fin hc
      exact ⟨_, rx, c, rfl, hv, hvin.trans hsin, rfl, hc⟩
    | cons next more =>
      simp only [List.length_cons] at hlen ih
      obtain ⟨hu, huin⟩ := hs.retry hfin (by omega) hc
      exact ih hu (by omega) (by omega) hmax.2 hbad.2 (fun h0 => (htm h0).2) (huin.trans hsin)

end

/-- The write of a link command to `CMD` of an idle block: no attempt has been made, and the request and the events of
each attempt are settled. -/
theorem transaction_starts (i : Instr) (s : State) (events : List Event)
    (hi : i = .execute ∨ i = .writeText ∨ i = .readText) (h : s.Inv) (hb : s.busy = false) (hrx : s.rxStream = [])
    (hin : s.inputs = .host (.writeReg 0 (encode i)) :: events) :
    ∃ r, step s = .next r ∧ AfterFailures i r 0 r ∧ r.inputs = events ∧ r.params = s.params ∧ r.mode = s.mode ∧
      r.timeout = s.timeout ∧ r.retries = s.retries ∧ r.txStream = s.txStream ∧
      r.request = (s.prepared i).request ∧ attemptEvents r = attemptEvents (s.prepared i) := by
  have hte := h.control.idle hb
  obtain ⟨hparams, hmode, htimeout, hretries, htx, -, hinputs, -⟩ := linkAccepted_keeps i s.takeEvent
  obtain ⟨hreq, hev⟩ := attempt_linkAccepted i s
  refine ⟨_, ?_, afterFailures_linkAccepted i s.takeEvent hi h.data.takeEvent hte hrx,
    hinputs.trans (congrArg List.tail hin), hparams, hmode, htimeout, hretries, htx, hreq, hev⟩
  rw [step_host s _ (by rw [State.nextEvent, hin]; rfl)]
  exact hostAccess_link_command i s.takeEvent hi hb hte

/-- Settles O44: the write to `CMD`, then an attempt for each bad answer. -/
theorem transactionExhausted : Obligations.TransactionExhausted := by
  unfold Obligations.TransactionExhausted
  intro s i bad rest hi hinv hb hrx hlen hmax hbad htm hin
  obtain ⟨pre, fin, -, hfin, hexec⟩ := exec_link i hi
  obtain ⟨r, hstep, hstart, hrin, hparams, hmode, htimeout, hretries, htx, hreq, hev⟩ :=
    transaction_starts i s _ hi hinv hb hrx hin
  rw [← hev] at hrin ⊢
  rw [← hparams] at hmax
  rw [← hmode] at hbad ⊢
  rw [← htimeout] at htm
  rw [← hretries] at hlen ⊢
  rw [← htx, ← hreq, Nat.add_comm, runSteps_succ _ _ _ hstep]
  obtain ⟨v, rx, c, hrun, hv, hvin, hlast, hc⟩ :=
    hstart.run_to_exhaustion hstart.data hexec (by tauto) (Nat.zero_le _) bad (by omega) hmax hbad htm hrin
  exact ⟨v, hrun, hvin, hv.busy, hv.done, hv.idle, hv.result, hv.attempts, hv.txStream,
    ⟨rx, hlast, by rw [hv.cause, hc]⟩, hv.noFrame, hv.noText.1, hv.noText.2⟩

end Sys2Proof.Machine
end

section
/-! Proofs of the dispatcher family, part one: the UTF-8 scan and the patterns of its table. -/

namespace Sys2Proof.Machine

/-! ### The table of rule R268 -/

/-- The byte sequence has a byte in each range, in order, and no other byte. -/
abbrev FitRanges (ranges : List ByteRange) (x : List Byte) : Prop :=
  List.Forall₂ (fun r b => inRange b r = true) ranges x

/-- The byte sequence is a byte pattern of the table: it fits one row. -/
def FitsTable (x : List Byte) : Prop := ∃ row ∈ utf8Table, FitRanges (row.1 :: row.2) x

theorem not_fitsTable_nil : ¬ FitsTable [] := by
  rintro ⟨row, -, hx⟩
  cases hx

/-- A sequence fits the table by the row that its first byte starts. -/
theorem fitsTable_cons (b : Byte) (x : List Byte) :
    FitsTable (b :: x) ↔ ∃ row ∈ utf8Table, inRange b row.1 = true ∧ FitRanges row.2 x := by
  simp only [FitsTable, List.forall₂_cons]

/-- A row is found only where the byte starts it. -/
theorem mem_of_utf8Follow (rows : List (ByteRange × List ByteRange)) (b : Byte) (follow : List ByteRange)
    (h : utf8Follow rows b = some follow) : ∃ row ∈ rows, inRange b row.1 = true ∧ row.2 = follow := by
  induction rows with
  | nil => cases h
  | cons row rest ih =>
    rw [utf8Follow] at h
    split at h
    · next hb => exact ⟨row, List.mem_cons_self, hb, Option.some.inj h⟩
    · obtain ⟨found, hfound, hfit⟩ := ih h
      exact ⟨found, List.mem_cons_of_mem _ hfound, hfit⟩

/-- No byte starts two rows of the table, so the first row it starts is the only one. -/
theorem utf8Follow_of_mem (b : Byte) (row : ByteRange × List ByteRange) (hrow : row ∈ utf8Table)
    (hb : inRange b row.1 = true) : utf8Follow utf8Table b = some row.2 := by
  have key : ∀ row ∈ utf8Table, ∀ b : Byte, inRange b row.1 = true → utf8Follow utf8Table b = some row.2 := by decide
  exact key row hrow b hb

/-! ### The scan -/

/-- The scan takes the bytes that fit the open ranges and then starts anew. -/
theorem utf8Scan_iff (ranges : List ByteRange) (s : List Byte) :
    utf8Scan ranges s = true ↔ ∃ x y, s = x ++ y ∧ FitRanges ranges x ∧ utf8ByTable y = true := by
  induction ranges generalizing s with
  | nil => simp [utf8ByTable]
  | cons r ranges ih =>
    cases s with
    | nil => simp [utf8Scan]
    | cons b s =>
      rw [utf8Scan, Bool.and_eq_true, ih]
      constructor
      · rintro ⟨hb, x, y, rfl, hx, hy⟩
        exact ⟨b :: x, y, rfl, .cons hb hx, hy⟩
      · rintro ⟨_, y, hs, hx, hy⟩
        obtain ⟨c, z, hc, hz, rfl⟩ := List.forall₂_cons_left_iff.1 hx
        obtain ⟨rfl, rfl⟩ := List.cons.inj hs
        exact ⟨hc, z, y, rfl, hz, hy⟩

/-- A sequence that begins with a byte passes exactly where it begins with a pattern and what follows passes. -/
theorem utf8ByTable_cons (b : Byte) (s : List Byte) :
    utf8ByTable (b :: s) = true ↔ ∃ x y, s = x ++ y ∧ FitsTable (b :: x) ∧ utf8ByTable y = true := by
  rw [utf8ByTable, utf8Scan]
  constructor
  · intro h
    split at h
    · next follow hf =>
      obtain ⟨row, hrow, hb, rfl⟩ := mem_of_utf8Follow _ _ _ hf
      obtain ⟨x, y, hs, hx, hy⟩ := (utf8Scan_iff _ _).1 h
      exact ⟨x, y, hs, (fitsTable_cons b x).2 ⟨row, hrow, hb, hx⟩, hy⟩
    · cases h
  · rintro ⟨x, y, hs, hfit, hy⟩
    obtain ⟨row, hrow, hb, hx⟩ := (fitsTable_cons b x).1 hfit
    simpa only [utf8Follow_of_mem b row hrow hb] using (utf8Scan_iff _ _).2 ⟨x, y, hs, hx, hy⟩

/-- What passes is a concatenation of patterns: the first one and, by induction on the length, those of the rest. -/
theorem exists_patterns_of_utf8ByTable (s : List Byte) (h : utf8ByTable s = true) :
    ∃ parts : List (List Byte), s = parts.flatten ∧ ∀ x ∈ parts, FitsTable x := by
  match s with
  | [] => exact ⟨[], rfl, List.forall_mem_nil _⟩
  | b :: s =>
    obtain ⟨x, y, hs, hx, hy⟩ := (utf8ByTable_cons b s).1 h
    have hshorter : y.length < (b :: s).length := by
      rw [hs, List.length_cons, List.length_append]
      omega
    obtain ⟨parts, rfl, hparts⟩ := exists_patterns_of_utf8ByTable y hy
    exact ⟨(b :: x) :: parts, congrArg (b :: ·) hs, List.forall_mem_cons.2 ⟨hx, hparts⟩⟩
termination_by s.length

theorem utf8ByTable_flatten (parts : List (List Byte)) (h : ∀ x ∈ parts, FitsTable x) :
    utf8ByTable parts.flatten = true := by
  induction parts with
  | nil => rfl
  | cons x parts ih =>
    obtain ⟨hx, hparts⟩ := List.forall_mem_cons.1 h
    cases x with
    | nil => exact absurd hx not_fitsTable_nil
    | cons b x => exact (utf8ByTable_cons b _).2 ⟨x, parts.flatten, rfl, hx, ih hparts⟩

/-! ### The patterns by their lengths -/

/-- The byte is one of the values from `lo` to `hi`. -/
def Between (lo hi : Nat) (b : Byte) : Prop := lo ≤ b.toNat ∧ b.toNat ≤ hi

theorem inRange_iff (b : Byte) (r : ByteRange) : inRange b r = true ↔ Between r.1 r.2 b := by
  simp [inRange, Between]

/-- A byte that continues a pattern, with no narrower range. -/
def Continues (b : Byte) : Prop := Between 0x80 0xBF b

/-- The first two bytes of a pattern of three. -/
def StartsThree (a b : Byte) : Prop :=
  a = 0xE0 ∧ Between 0xA0 0xBF b ∨ Between 0xE1 0xEC a ∧ Continues b ∨ a = 0xED ∧ Between 0x80 0x9F b ∨
    Between 0xEE 0xEF a ∧ Continues b

/-- The first two bytes of a pattern of four. -/
def StartsFour (a b : Byte) : Prop :=
  a = 0xF0 ∧ Between 0x90 0xBF b ∨ Between 0xF1 0xF3 a ∧ Continues b ∨ a = 0xF4 ∧ Between 0x80 0x8F b

/-- A pattern, as `Obligations.Utf8TableExact` says it: the rows by the number of their bytes. -/
def Utf8Pattern (s : List Byte) : Prop :=
  (∃ a, s = [a] ∧ Between 0x00 0x7F a) ∨
  (∃ a b, s = [a, b] ∧ Between 0xC2 0xDF a ∧ Continues b) ∨
  (∃ a b c, s = [a, b, c] ∧ Continues c ∧ StartsThree a b) ∨
  (∃ a b c d, s = [a, b, c, d] ∧ Continues c ∧ Continues d ∧ StartsFour a b)

theorem eq_iff_between (b c : Byte) : b = c ↔ Between c.toNat c.toNat b := by
  rw [BitVec.toNat_eq, Between]
  omega

/-- The four rows of three bytes. -/
theorem fitsTable_three (a b c : Byte) : FitsTable [a, b, c] ↔
    a = 0xE0 ∧ Between 0xA0 0xBF b ∧ Continues c ∨ Between 0xE1 0xEC a ∧ Continues b ∧ Continues c ∨
      a = 0xED ∧ Between 0x80 0x9F b ∧ Continues c ∨ Between 0xEE 0xEF a ∧ Continues b ∧ Continues c := by
  simp [FitsTable, utf8Table, inRange_iff, Continues, eq_iff_between a]

/-- The three rows of four bytes. -/
theorem fitsTable_four (a b c d : Byte) : FitsTable [a, b, c, d] ↔
    a = 0xF0 ∧ Between 0x90 0xBF b ∧ Continues c ∧ Continues d ∨
      Between 0xF1 0xF3 a ∧ Continues b ∧ Continues c ∧ Continues d ∨
      a = 0xF4 ∧ Between 0x80 0x8F b ∧ Continues c ∧ Continues d := by
  simp [FitsTable, utf8Table, inRange_iff, Continues, eq_iff_between a]

theorem utf8Pattern_three (a b c : Byte) : Utf8Pattern [a, b, c] ↔ Continues c ∧ StartsThree a b := by
  constructor
  · rintro (⟨_, h, -⟩ | ⟨_, _, h, -⟩ | ⟨_, _, _, h, hp⟩ | ⟨_, _, _, _, h, -⟩) <;> cases h
    exact hp
  · exact fun h => .inr (.inr (.inl ⟨a, b, c, rfl, h⟩))

theorem utf8Pattern_four (a b c d : Byte) :
    Utf8Pattern [a, b, c, d] ↔ Continues c ∧ Continues d ∧ StartsFour a b := by
  constructor
  · rintro (⟨_, h, -⟩ | ⟨_, _, h, -⟩ | ⟨_, _, _, h, -⟩ | ⟨_, _, _, _, h, hp⟩) <;> cases h
    exact hp
  · exact fun h => .inr (.inr (.inr ⟨a, b, c, d, rfl, h⟩))

/-- The rows that a sequence fits are those with as many bytes. -/
theorem fitsTable_iff (x : List Byte) : FitsTable x ↔ Utf8Pattern x := by
  match x with
  | [] => simp [FitsTable, Utf8Pattern]
  | [a] => simp [FitsTable, utf8Table, Utf8Pattern, inRange_iff]
  | [a, b] => simp [FitsTable, utf8Table, Utf8Pattern, inRange_iff, Continues]
  | [a, b, c] =>
    rw [utf8Pattern_three, fitsTable_three, StartsThree]
    tauto
  | [a, b, c, d] =>
    rw [utf8Pattern_four, fitsTable_four, StartsFour]
    tauto
  | a :: b :: c :: d :: e :: rest => simp [FitsTable, utf8Table, Utf8Pattern]

/-- Settles O53, from the scan's first pattern. -/
theorem utf8TableExact : Obligations.Utf8TableExact := by
  unfold Obligations.Utf8TableExact
  intro _ _ _ s
  constructor
  · intro h
    obtain ⟨parts, hs, hparts⟩ := exists_patterns_of_utf8ByTable s h
    exact ⟨parts, hs, fun x hx => (fitsTable_iff x).1 (hparts x hx)⟩
  · rintro ⟨parts, rfl, hparts⟩
    exact utf8ByTable_flatten parts fun x hx => (fitsTable_iff x).2 (hparts x hx)

end Sys2Proof.Machine
end

section
/-! Proofs of the dispatcher family, part two: the reply to a request for this slave. -/

namespace Sys2Proof.Machine

/-! ### The reply to a request (rules R264, R266, R270) -/

/-- What a request with function code `fc` and payload `q` gets from a slave that holds `text`: the function code, the
payload and the error kind of the response, and the text that enters the store. -/
inductive Reply (params : Params) (text : List Byte) (fc : Byte) (q : List Byte) :
    Byte → List Byte → Kind → Option (List Byte) → Prop
  | stored (hf : fc = 0x01) (hq : q.length ≤ params.payloadMax ∧ utf8Ok params q = true) :
      Reply params text fc q 0x01 [] .ok (some q)
  | rejected (hf : fc = 0x01) (hq : ¬(q.length ≤ params.payloadMax ∧ utf8Ok params q = true)) :
      Reply params text fc q 0x81 [0x01] .processingError none
  | read (hf : fc = 0x02) : Reply params text fc q 0x02 text .ok none
  | unsupported (hw : fc ≠ 0x01) (hr : fc ≠ 0x02) :
      Reply params text fc q (fc ||| 0x80) [0x01] .unsupportedFunction none

/-- The state after the text that a reply stores, if any, is in the store. -/
def State.storing (new : Option (List Byte)) (s : State) : State :=
  match new with
  | none => s
  | some q => s.loadText q

@[simp] theorem storing_none (s : State) : s.storing none = s := rfl
@[simp] theorem storing_some (q : List Byte) (s : State) : s.storing (some q) = s.loadText q := rfl
@[simp] theorem storing_params (new : Option (List Byte)) (s : State) : (s.storing new).params = s.params := by
  cases new <;> rfl
@[simp] theorem storing_mode (new : Option (List Byte)) (s : State) : (s.storing new).mode = s.mode := by
  cases new <;> rfl
@[simp] theorem storing_dfAddr (new : Option (List Byte)) (s : State) : (s.storing new).dfAddr = s.dfAddr := by
  cases new <;> rfl

/-- The store after storing depends on the store before and on nothing else. -/
theorem storing_store_congr (new : Option (List Byte)) (s u : State) (ht : u.text = s.text)
    (hl : u.textLen = s.textLen) :
    (u.storing new).text = (s.storing new).text ∧ (u.storing new).textLen = (s.storing new).textLen := by
  cases new with
  | none => exact ⟨ht, hl⟩
  | some q => exact ⟨rfl, rfl⟩

/-- A store that was loaded with a text has its length and its bytes. -/
theorem stored_text (s t : State) (q : List Byte) (hq : q.length < 65536) (ht : t.text = (s.storing (some q)).text)
    (hl : t.textLen = (s.storing (some q)).textLen) : t.textLen.toNat = q.length ∧ t.textBytes = q :=
  ⟨(congrArg BitVec.toNat hl).trans (toNat_ofNat16 _ hq), textBytes_of_loaded t q hq ht hl⟩

theorem textAccepted_iff (s : State) :
    s.textAccepted = true ↔ s.dfLen.toNat ≤ s.params.payloadMax ∧ utf8Ok s.params s.dfBytes = true := by
  simp [State.textAccepted]

theorem exceptionCode_eq_or (f : Byte) : 0x80 ||| (f.extractLsb' 0 7).setWidth 8 = f ||| 0x80 := by
  revert f; decide

/-- Step 4 of rule R260 responds with the reply to the request in DF. -/
theorem serveRequest_reply (fc f : Byte) (p : List Byte) (k : Kind) (new : Option (List Byte)) (s : State)
    (h : Reply s.params s.textBytes fc s.dfBytes f p k new) :
    serveRequest fc s = .next ((s.storing new).respond f p k) := by
  rw [serveRequest]
  cases h with
  | stored hf hq =>
    rw [dfBytes_length] at hq
    rw [if_pos hf]
    exact execFcWriteText_accepted s hq.1 hq.2
  | rejected hf hq =>
    rw [dfBytes_length, ← textAccepted_iff] at hq
    rw [if_pos hf, execFcWriteText, if_neg hq]
    rfl
  | read hf =>
    rw [if_neg (by rw [hf]; decide), if_pos hf]
    rfl
  | unsupported hw hr =>
    rw [if_neg hw, if_neg hr, execFcException, exceptionCode_eq_or]
    rfl

/-! ### The function-code instructions -/

/-- A function-code instruction responds with the reply to the request in DF under its own code. -/
theorem exec_reply (i : Instr) (f : Byte) (p : List Byte) (k : Kind) (new : Option (List Byte)) (s : State)
    (hi : i.format = .fc8) (h : Reply s.params s.textBytes (encodeByte i) s.dfBytes f p k new) :
    exec i s = .next ((s.storing new).respond f p k) := by
  have hw : i.wellFormed true = true := by cases i <;> rfl
  rw [← serveRequest_of_decodeFc (encodeByte i) i s ((decodeFc_eq_ok_iff _ _ _).2 ⟨hi, hw, rfl⟩),
    serveRequest_reply _ _ _ _ _ _ h]

/-- The exception response that an `FC_EXCEPTION` stands for is the reply to its own code. -/
theorem reply_fcException (low : BitVec 7) (params : Params) (text q : List Byte) :
    Reply params text (encodeByte (.fcException low)) q (0x80 ||| low.setWidth 8) [0x01] .unsupportedFunction none := by
  obtain ⟨hw, hr, -, hlow⟩ := exceptionCode_fields low
  have h : Reply params text (encodeByte (.fcException low)) q _ _ _ _ := .unsupported hw hr
  rwa [← exceptionCode_eq_or, hlow] at h

/-- The payload of a reply is empty, one byte, or the text. -/
theorem Reply.payload_length {params : Params} {text : List Byte} {fc : Byte} {q : List Byte} {f : Byte} {p : List Byte}
    {k : Kind} {new : Option (List Byte)} (h : Reply params text fc q f p k new) : p.length ≤ max 1 text.length := by
  cases h <;> simp

/-- The text that a reply stores is the payload of the request. -/
theorem Reply.stored_eq {params : Params} {text : List Byte} {fc : Byte} {q q' : List Byte} {f : Byte} {p : List Byte}
    {k : Kind} (h : Reply params text fc q f p k (some q')) : q' = q := by
  cases h
  rfl

/-- Settles O47, from the reply of each case. -/
theorem functionCodeInstructions : Obligations.FunctionCodeInstructions := by
  unfold Obligations.FunctionCodeInstructions
  intro s hwf htext i f p k new h
  obtain ⟨hi, hreply⟩ : i.format = .fc8 ∧ Reply s.params s.textBytes (encodeByte i) s.dfBytes f p k new := by
    rcases h with ⟨rfl, hl, hu, rfl, rfl, rfl, rfl⟩ | ⟨rfl, hq, rfl, rfl, rfl, rfl⟩ | ⟨rfl, rfl, rfl, rfl, rfl⟩ |
      ⟨⟨low, rfl, rfl⟩, rfl, rfl, rfl⟩
    · exact ⟨rfl, .stored rfl ⟨by rwa [dfBytes_length], hu⟩⟩
    · exact ⟨rfl, .rejected rfl (by rwa [dfBytes_length])⟩
    · exact ⟨rfl, .read rfl⟩
    · exact ⟨rfl, reply_fcException low _ _ _⟩
  have hp : 9 + 2 * p.length < 65536 := by
    have := hreply.payload_length
    rw [textBytes_length] at this
    omega
  obtain ⟨hframe, hefLen, hefBytes, htxLen, htxBytes⟩ := respond_facts (s.storing new) f p k hp
  simp only [storing_params, storing_mode, storing_dfAddr] at hframe htxLen htxBytes
  refine ⟨_, exec_reply i f p k new s hi hreply, ?_, hefLen, hefBytes, htxLen, htxBytes, ?_, ?_⟩
  · refine hframe.trans ?_
    cases new <;> simp [State.loadText]
  · rintro q rfl
    refine stored_text s _ q ?_ (respond_text ..) (respond_textLen ..)
    rw [hreply.stored_eq, dfBytes_length]
    exact s.dfLen.isLt
  · rintro rfl
    exact ⟨respond_text .., respond_textLen ..⟩

/-! ### `HANDLE` of a request for this slave -/

/-- The state that the function code is served from: the request is in DF, the store is as it was. -/
theorem execHandle_serves (s : State) (q : Parsed) (hq : decodeFrame s.mode s.rxBytes = .frame q)
    (ha : q.addr = s.ownAddr) :
    ∃ u : State, exec .handle s = serveRequest q.fc u ∧ u.params = s.params ∧ u.mode = s.mode ∧ u.dfAddr = s.ownAddr ∧
      u.dfBytes = q.payload ∧ u.text = s.text ∧ u.textLen = s.textLen ∧ u.textBytes = s.textBytes := by
  have hlen : q.payload.length < 65536 := by
    have := payload_length_rx s.mode s q hq
    omega
  obtain ⟨-, hbytes, -⟩ :=
    loadDf_bytes (s.beginHandle.noteDecode s.mode s.rxBytes) q.addr q.fc q.payload q.check hlen
  refine ⟨_, execHandle_request s q hq ha, ?_, ?_, ?_, hbytes, ?_, ?_, ?_⟩ <;> simp [ha, State.textBytes]

/-- `HANDLE` answers a request for this slave with its reply. -/
theorem execHandle_reply (s : State) (q : Parsed) (f : Byte) (p : List Byte) (k : Kind) (new : Option (List Byte))
    (hq : decodeFrame s.mode s.rxBytes = .frame q) (ha : q.addr = s.ownAddr)
    (h : Reply s.params s.textBytes q.fc q.payload f p k new) (hp : 9 + 2 * p.length < 65536) :
    ∃ t, exec .handle s = .next t ∧ t.result = k ∧ t.done = true ∧ t.busy = false ∧
      t.text = (s.storing new).text ∧ t.textLen = (s.storing new).textLen ∧
      t.txBytes = encodeFrame s.mode s.params.hexUpper s.ownAddr f p := by
  obtain ⟨u, hx, hparams, hmode, haddr, hbytes, htext, htextLen, htextBytes⟩ := execHandle_serves s q hq ha
  rw [← hbytes, ← htextBytes, ← hparams] at h
  obtain ⟨hstore, hstoreLen⟩ := storing_store_congr new s u htext htextLen
  obtain ⟨-, -, -, -, htx⟩ := respond_facts (u.storing new) f p k hp
  refine ⟨_, hx.trans (serveRequest_reply _ _ _ _ _ _ h), rfl, rfl, rfl, ?_, ?_, ?_⟩
  · rw [respond_text, hstore]
  · rw [respond_textLen, hstoreLen]
  · rw [htx, storing_mode, storing_params, storing_dfAddr, hparams, hmode, haddr]

/-- Settles O48, by the two replies to a write-text request. -/
theorem handleWriteText : Obligations.HandleWriteText := by
  unfold Obligations.HandleWriteText
  intro s q hq ha hf
  refine ⟨fun hacc => ?_, fun hrej => execHandle_reply s q _ _ _ _ hq ha (.rejected hf hrej) (by simp)⟩
  obtain ⟨t, hx, hresult, hdone, hbusy, htext, htextLen, htx⟩ :=
    execHandle_reply s q _ _ _ _ hq ha (.stored hf hacc) (by simp)
  have hlen : q.payload.length < 65536 := by
    have := payload_length_rx s.mode s q hq
    omega
  obtain ⟨hn, hbytes⟩ := stored_text s t _ hlen htext htextLen
  exact ⟨t, hx, hresult, hdone, hbusy, hn, hbytes, fun i => htext ▸ byteAt?_ofBytes _ i, htx⟩

/-- Settles O49, by the reply to a read-text request. -/
theorem handleReadText : Obligations.HandleReadText := by
  unfold Obligations.HandleReadText
  intro s q hwf htext hq ha hf
  refine execHandle_reply s q _ _ _ _ hq ha (.read hf) ?_
  rw [textBytes_length]
  omega

/-- Settles O50, by the reply to a code that is not supported and the one to a text that is rejected. -/
theorem handleException : Obligations.HandleException := by
  unfold Obligations.HandleException
  rintro s q k hq ha (⟨hw, hr, rfl⟩ | ⟨hf, hrej, rfl⟩)
  · exact execHandle_reply s q _ _ _ _ hq ha (.unsupported hw hr) (by simp)
  · rw [hf]
    exact execHandle_reply s q _ _ _ _ hq ha (.rejected hf hrej) (by simp)

end Sys2Proof.Machine
end
